-- ==== Sys2Proof/Word.lean ====
section
/-!
DEFINITION. The two word types of the model (spec/00_scope.md R14): a register value is an unsigned
32-bit word, ordinary memory is read and written by the byte (20_memory.md R95).
-/

namespace Sys2Proof

/-- A register value, a mask of cores, lines or vIPI bits, an event word (`u32`, 00_scope R14). -/
abbrev Word := BitVec 32

/-- One byte of ordinary memory (20_memory R95). -/
abbrev Byte := BitVec 8

end Sys2Proof
end

