-- ==== Sys2Proof/Config.lean ====
section
/-!
DEFINITION. What an implementation fixes (the named parameters of spec/00_scope.md R7 to R12 and
30_encoding.md R122, with their constraints) and the model's free values: constants with no body.
The parameters are carried in the state and never change, so that a statement about every state is
a statement about every choice of the parameters.
-/

namespace Sys2Proof

/-- The three line domains (00_scope R17); `ipi` is the vIPI domain. -/
inductive Dom where
  | hw
  | fiq
  | ipi
deriving DecidableEq, Repr, Inhabited

/-- How a FIQ cause is masked (00_scope R10). -/
inductive MaskKind where
  | enableBit
  | source
deriving DecidableEq, Repr, Inhabited

/-- One descriptor of FIQ_CAUSES (00_scope R10). -/
structure CauseDesc where
  name  : String
  dom   : Option Nat
  mkind : MaskKind
deriving DecidableEq, Repr, Inhabited

/-- REGMAP: the byte offset of each register of 30_encoding R110. -/
structure RegMap where
  info       : Nat
  whoami     : Nat
  event      : Nat
  ipiSend    : Nat
  ipiAck     : Nat
  ipiMaskSet : Nat
  ipiMaskClr : Nat
  target     : Nat
  swSet      : Nat
  swClr      : Nat
  maskSet    : Nat
  maskClr    : Nat
deriving DecidableEq, Repr, Inhabited

/-- KIND_CODE: the code of each descriptor kind in a firmware table (30_encoding R122). -/
structure KindCode where
  hw  : Nat
  fiq : Nat
  ipi : Nat
deriving DecidableEq, Repr, Inhabited

/-- The parameters of one construction (00_scope R7 to R12, 10_state R31, 30_encoding R122). -/
structure Config where
  nrHw          : Nat
  /-- INFO[31:16], drawn once at construction (10_state R31). -/
  infoHigh      : BitVec 16
  nrFiq         : Nat
  nrVipi        : Nat
  maxCores      : Nat
  regmap        : RegMap
  evTypeHw      : BitVec 16
  evTypeIpi     : BitVec 16
  evIpiOther    : BitVec 16
  evIpiSelf     : BitVec 16
  ipiOtherBit   : Nat
  ipiSelfBit    : Nat
  causes        : List CauseDesc
  defaultTarget : Word
  /-- Bit c: core c is online (00_scope R12, R16). -/
  online        : Word
  hwid          : List Word
  bootCore      : Nat
  kindCode      : KindCode
  /-- The platform reports the register window present (70_reset_and_hazards R503, 92 D42). -/
  windowPresent : Bool
deriving DecidableEq, Repr, Inhabited

/-- `NBANK = ceil(NR_HW / 32)` (30_encoding R110). -/
def Config.nBank (cfg : Config) : Nat := (cfg.nrHw + 31) / 32

/-- The registers of the window as (base offset, number of 32-bit registers), in the order of the
table of 30_encoding R110; the bank ranges are those of R111. -/
def Config.ranges (cfg : Config) : List (Nat × Nat) :=
  [(cfg.regmap.info, 1), (cfg.regmap.whoami, 1), (cfg.regmap.event, 1), (cfg.regmap.ipiSend, 1),
   (cfg.regmap.ipiAck, 1), (cfg.regmap.ipiMaskSet, 1), (cfg.regmap.ipiMaskClr, 1),
   (cfg.regmap.target, cfg.nrHw), (cfg.regmap.swSet, cfg.nBank), (cfg.regmap.swClr, cfg.nBank),
   (cfg.regmap.maskSet, cfg.nBank), (cfg.regmap.maskClr, cfg.nBank)]

/-- Two register ranges share no offset. -/
abbrev disjointRanges (p q : Nat × Nat) : Prop := p.1 + 4 * p.2 ≤ q.1 ∨ q.1 + 4 * q.2 ≤ p.1

/-- REGMAP's constraint (30_encoding R110): multiples of 4, no two registers overlapping. DEDUCED (log 41):
every register lies below 2^32, since an offset has 32 bits. -/
abbrev Config.RegmapWf (cfg : Config) : Prop :=
  (∀ p ∈ cfg.ranges, p.1 % 4 = 0 ∧ p.1 + 4 * p.2 ≤ 2 ^ 32) ∧ cfg.ranges.Pairwise disjointRanges

/-- FIQ_CAUSES' constraint (00_scope R10): every index in [0, NR_FIQ) is the `dom` of exactly one
descriptor, and no `dom` is another index. -/
abbrev Config.CausesWf (cfg : Config) : Prop :=
  (∀ d < cfg.nrFiq, cfg.causes.countP (fun k => k.dom == some d) = 1) ∧
  ∀ k ∈ cfg.causes, k.dom.all (fun d => decide (d < cfg.nrFiq)) = true

/-- The event codes' constraint (00_scope R9). -/
abbrev Config.CodesWf (cfg : Config) : Prop :=
  cfg.evTypeHw ≠ cfg.evTypeIpi ∧ cfg.evTypeHw ≠ 0 ∧ cfg.evTypeIpi ≠ 0 ∧
  cfg.evIpiOther ≠ cfg.evIpiSelf ∧
  cfg.ipiOtherBit < 32 ∧ cfg.ipiSelfBit < 32 ∧ cfg.ipiOtherBit ≠ cfg.ipiSelfBit

/-- Every constraint the spec puts on the parameters (00_scope R7 to R12, 30_encoding R110, R122). -/
abbrev Config.Wf (cfg : Config) : Prop :=
  cfg.nrHw ≤ 65535 ∧ (1 ≤ cfg.nrVipi ∧ cfg.nrVipi ≤ 32) ∧ (1 ≤ cfg.maxCores ∧ cfg.maxCores ≤ 31) ∧
  cfg.RegmapWf ∧ cfg.CodesWf ∧ cfg.CausesWf ∧
  cfg.hwid.length = cfg.maxCores ∧ cfg.bootCore < cfg.maxCores ∧
  (cfg.kindCode.hw ≠ cfg.kindCode.fiq ∧ cfg.kindCode.hw ≠ cfg.kindCode.ipi ∧
    cfg.kindCode.fiq ≠ cfg.kindCode.ipi)

/-- The suggested REGMAP of 93_implementation_defined G2, as Configuration V uses it. -/
def RegMap.suggested : RegMap where
  info       := 0x0004
  whoami     := 0x2000
  event      := 0x2004
  ipiSend    := 0x2008
  ipiAck     := 0x200C
  ipiMaskSet := 0x2024
  ipiMaskClr := 0x2028
  target     := 0x3000
  swSet      := 0x4000
  swClr      := 0x4080
  maskSet    := 0x4100
  maskClr    := 0x4180

/-- DESIGN CHOICE (log 3): Configuration V of 95_test_vectors.md, the spec's own worked
configuration. Nothing but `State.reset` and the tests rests on it. -/
def Config.default : Config where
  nrHw          := 4
  infoHigh      := 0
  nrFiq         := 1
  nrVipi        := 2
  maxCores      := 4
  regmap        := RegMap.suggested
  evTypeHw      := 1
  evTypeIpi     := 4
  evIpiOther    := 1
  evIpiSelf     := 2
  ipiOtherBit   := 0
  ipiSelfBit    := 31
  causes        := [⟨"TMR", some 0, .source⟩, ⟨"PMC", none, .source⟩]
  defaultTarget := 1
  online        := 0xF
  hwid          := [0, 1, 2, 3]
  bootCore      := 0
  kindCode      := ⟨0, 1, 2⟩
  windowPresent := true

/-- Which agent moves next, with what it does (10_state R60 to R62, R66; 20_memory R94;
45_frontend_config R395). -/
inductive Mover where
  /-- core c performs its next step -/
  | core (c : Nat)
  /-- LEVEL(i, v) -/
  | level (i : Nat) (v : Bool)
  /-- COND(c, k, v) -/
  | cond (c k : Nat) (v : Bool)
  /-- ARM(c, k, v), for a SOURCE cause only -/
  | arm (c k : Nat) (v : Bool)
  /-- core_accepts(c) becomes v -/
  | accept (c : Nat) (v : Bool)
  /-- the device of line i writes a byte of ordinary memory -/
  | devWrite (i addr : Nat) (v : Byte)
deriving DecidableEq, Repr, Inhabited

/-- FREE VALUE (log 6): the n-th drawn number, for a choice among alternatives. -/
opaque Config.freeNat : Nat → Nat

/-- FREE VALUE (log 6): the n-th drawn word, for a read of a write-action register (30_encoding R127). -/
opaque Config.freeWord : Nat → Word

/-- FREE VALUE (log 7): who moves when no mover is given; the schedule is free (10_state R66). -/
opaque Config.freeMover : Nat → Mover

/-- FREE VALUE (log 13): the initial contents of ordinary memory (20_memory R93). -/
opaque Config.initialByte : Nat → Byte

end Sys2Proof
end

