-- ==== Sys2Proof/Syntax.lean ====
section
/-!
DEFINITION. The operations of the block, one constructor of `Instr` per row of
spec/opcode_table.json, in the table's order. The first operand of each is the core that performs it:
the requester of a transaction (30_encoding.md R111), the calling core of a composite operation.
-/

namespace Sys2Proof

/-- The kind of a register access (20_memory R83). -/
inductive AccessKind where
  | relaxed
  | ordered
deriving DecidableEq, Repr, Inhabited

/-- The kind of a fence (20_memory R90). -/
inductive FenceKind where
  | w
  | r
deriving DecidableEq, Repr, Inhabited

/-- The two physical IPI lines of a core (10_state R36). -/
inductive Sel where
  | other
  | self
deriving DecidableEq, Repr, Inhabited

/-- The operations of spec/opcode_table.json. -/
inductive Instr where
  -- register transactions (30_encoding R110, R124)
  | readInfo (c : Nat) (k : AccessKind)
  | writeInfo (c : Nat) (k : AccessKind) (v : Word)
  | readWhoami (c : Nat) (k : AccessKind)
  | writeWhoami (c : Nat) (k : AccessKind) (v : Word)
  | readEvent (c : Nat) (k : AccessKind)
  | writeEvent (c : Nat) (k : AccessKind) (v : Word)
  | writeIpiSend (c : Nat) (k : AccessKind) (v : Word)
  | readIpiSend (c : Nat) (k : AccessKind)
  | writeIpiAck (c : Nat) (k : AccessKind) (v : Word)
  | readIpiAck (c : Nat) (k : AccessKind)
  | writeIpiMaskSet (c : Nat) (k : AccessKind) (v : Word)
  | readIpiMaskSet (c : Nat) (k : AccessKind)
  | writeIpiMaskClr (c : Nat) (k : AccessKind) (v : Word)
  | readIpiMaskClr (c : Nat) (k : AccessKind)
  | readTarget (c : Nat) (k : AccessKind) (i : Nat)
  | writeTarget (c : Nat) (k : AccessKind) (i : Nat) (v : Word)
  | writeSwSet (c : Nat) (k : AccessKind) (n : Nat) (v : Word)
  | readSwSet (c : Nat) (k : AccessKind) (n : Nat)
  | writeSwClr (c : Nat) (k : AccessKind) (n : Nat) (v : Word)
  | readSwClr (c : Nat) (k : AccessKind) (n : Nat)
  | writeMaskSet (c : Nat) (k : AccessKind) (n : Nat) (v : Word)
  | readMaskSet (c : Nat) (k : AccessKind) (n : Nat)
  | writeMaskClr (c : Nat) (k : AccessKind) (n : Nat) (v : Word)
  | readMaskClr (c : Nat) (k : AccessKind) (n : Nat)
  -- vIPI arbiter ports (44_vipi_arbiter R352 to R356)
  | vipiEnRead (c t : Nat)
  | vipiEnOr (c t : Nat) (m : Word)
  | vipiEnAndn (c t : Nat) (m : Word)
  | vipiPendOr (c t : Nat) (m : Word)
  | vipiPendXchg0 (c t : Nat)
  -- CPU-local FIQ accesses (43_fiq R312, R313)
  | fiqReadCause (c k : Nat)
  | fiqWriteArm (c k : Nat) (v : Bool)
  -- fences (20_memory R91, R92)
  | fenceW (c : Nat)
  | fenceR (c : Nat)
  -- hardware IRQ domain (41_hw_lines R255 to R259)
  | hwDisable (c i : Nat)
  | hwEnable (c i : Nat)
  | hwEoi (c i : Nat)
  | hwSetAffinity (c i : Nat) (m : Word)
  | hwDispatch (c i : Nat)
  -- fast-path domain (43_fiq R314 to R319)
  | fiqMask (c d : Nat)
  | fiqUnmask (c d : Nat)
  | fiqEoi (c d : Nat)
  | fiqPoll (c : Nat)
  | silence (c k : Nat)
  | fiqDispatch (c d : Nat)
  -- vIPI domain (44_vipi_arbiter R360 to R366)
  | vipiSend (c v : Nat) (dests : Word)
  | vipiReceive (c : Nat)
  | vipiMask (c v : Nat)
  | vipiUnmask (c v : Nat)
  -- front-end and configuration (45_frontend_config R390 to R405)
  | trap (c : Nat)
  | drain (c : Nat)
  | classify (c : Nat) (e : Word)
  /-- DESIGN CHOICE (log 28): a descriptor's flags are a word -/
  | resolve (c kind index : Nat) (flags : Word)
  | bind (c : Nat) (dom : Dom) (idx h : Nat)
  -- initialisation (70_reset_and_hazards R503, R505)
  | init (c : Nat)
  | cpuOnline (c : Nat)
deriving DecidableEq, Repr, Inhabited

/-- The core that performs an operation (30_encoding R111). -/
def Instr.core : Instr → Nat
  | .readInfo c _ | .writeInfo c _ _ | .readWhoami c _ | .writeWhoami c _ _ | .readEvent c _
  | .writeEvent c _ _ | .writeIpiSend c _ _ | .readIpiSend c _ | .writeIpiAck c _ _
  | .readIpiAck c _ | .writeIpiMaskSet c _ _ | .readIpiMaskSet c _ | .writeIpiMaskClr c _ _
  | .readIpiMaskClr c _ | .readTarget c _ _ | .writeTarget c _ _ _ | .writeSwSet c _ _ _
  | .readSwSet c _ _ | .writeSwClr c _ _ _ | .readSwClr c _ _ | .writeMaskSet c _ _ _
  | .readMaskSet c _ _ | .writeMaskClr c _ _ _ | .readMaskClr c _ _ | .vipiEnRead c _
  | .vipiEnOr c _ _ | .vipiEnAndn c _ _ | .vipiPendOr c _ _ | .vipiPendXchg0 c _
  | .fiqReadCause c _ | .fiqWriteArm c _ _ | .fenceW c | .fenceR c | .hwDisable c _
  | .hwEnable c _ | .hwEoi c _ | .hwSetAffinity c _ _ | .hwDispatch c _ | .fiqMask c _
  | .fiqUnmask c _ | .fiqEoi c _ | .fiqPoll c | .silence c _ | .fiqDispatch c _
  | .vipiSend c _ _ | .vipiReceive c | .vipiMask c _ | .vipiUnmask c _ | .trap c | .drain c
  | .classify c _ | .resolve c _ _ _ | .bind c _ _ _ | .init c | .cpuOnline c => c

/-- What a core's software puts on its port to have an operation performed: a header word and three
operand words. DESIGN CHOICE (log 1): the spec gives the contents of a request (30_encoding R111,
R124, R125) and no binary form of it; the requester is the core whose port it is. -/
structure Packet where
  header : Word
  a      : Word
  b      : Word
  d      : Word
deriving DecidableEq, Repr, Inhabited

end Sys2Proof
end

