-- ==== Sys2Proof/WellFormed.lean ====
section
/-!
DEFINITION. Which operations exist under given parameters. Each check is a domain the spec states for
an operand: the cores (00_scope.md R12, 60_exceptions.md R464), the bank ranges (30_encoding.md R111),
the causes (43_fiq.md R312), the destination mask (44_vipi_arbiter.md R360). An index that an operation
itself tests (HW_DISABLE's i, VIPI_SEND's v, ...) is no matter of well-formedness beyond its width.
-/

namespace Sys2Proof

/-- Why a request is no operation, each under its own name. -/
inductive Reject where
  /-- no register at the offset (20_memory R81, 30_encoding R111) -/
  | unmappedOffset
  /-- not a 32-bit access at a multiple of 4 (20_memory R82) -/
  | badWidthOrAlignment
  /-- the packet's operation code is none of the model's (log 1) -/
  | noSuchOperation
  /-- a bit of the packet that the operation does not use is set (log 1) -/
  | unusedBits
  /-- the performing core is not in [0, MAX_CORES) (60_exceptions R464) -/
  | noSuchCore
  /-- a port's target core is not in [0, MAX_CORES) (44_vipi_arbiter R350) -/
  | noSuchTargetCore
  /-- no descriptor of FIQ_CAUSES has the number (43_fiq R312) -/
  | noSuchCause
  /-- the line is outside its domain (41_hw_lines R259, 43_fiq R319, 45_frontend_config R405) -/
  | noSuchLine
  /-- the vIPI destination set is no mask over [0, MAX_CORES) (44_vipi_arbiter R360) -/
  | badDestinations
  /-- CLASSIFY of the empty event word (45_frontend_config R392) -/
  | emptyEvent
  /-- a natural-number operand that no operand word can hold (log 1) -/
  | operandTooWide
deriving DecidableEq, Repr, Inhabited

/-- No bit at or above n is set in v. -/
abbrev onlyBelow (n : Nat) (v : Word) : Prop := v.toNat < 2 ^ n

/-- The size of a domain's index range (00_scope R17). -/
def Config.domSize (cfg : Config) : Dom → Nat
  | .hw => cfg.nrHw
  | .fiq => cfg.nrFiq
  | .ipi => cfg.nrVipi

/-- `some e` when p fails. -/
abbrev failUnless (p : Prop) [Decidable p] (e : Reject) : Option Reject :=
  if p then none else some e

/-- The checks on an operation's operands other than the performing core. -/
def Instr.checkOperands (cfg : Config) : Instr → Option Reject
  | .readTarget _ _ i | .writeTarget _ _ i _ => failUnless (i < cfg.nrHw) .unmappedOffset
  | .writeSwSet _ _ n _ | .readSwSet _ _ n | .writeSwClr _ _ n _ | .readSwClr _ _ n
  | .writeMaskSet _ _ n _ | .readMaskSet _ _ n | .writeMaskClr _ _ n _ | .readMaskClr _ _ n =>
    failUnless (n < cfg.nBank) .unmappedOffset
  | .vipiEnRead _ t | .vipiEnOr _ t _ | .vipiEnAndn _ t _ | .vipiPendOr _ t _ | .vipiPendXchg0 _ t =>
    failUnless (t < cfg.maxCores) .noSuchTargetCore
  | .fiqReadCause _ k | .fiqWriteArm _ k _ | .silence _ k =>
    if k < cfg.causes.length then failUnless (k < 2 ^ 32) .operandTooWide else some .noSuchCause
  | .hwDispatch _ i => failUnless (i < cfg.nrHw) .noSuchLine
  | .fiqDispatch _ d =>
    if d < cfg.nrFiq then failUnless (d < 2 ^ 32) .operandTooWide else some .noSuchLine
  | .hwDisable _ i | .hwEnable _ i | .hwEoi _ i | .hwSetAffinity _ i _ | .fiqMask _ i
  | .fiqUnmask _ i | .fiqEoi _ i | .vipiMask _ i | .vipiUnmask _ i =>
    failUnless (i < 2 ^ 32) .operandTooWide
  | .vipiSend _ v dests =>
    if onlyBelow cfg.maxCores dests then failUnless (v < 2 ^ 32) .operandTooWide
    else some .badDestinations
  | .classify _ e => failUnless (e ≠ 0) .emptyEvent
  | .resolve _ kind index _ => failUnless (kind < 2 ^ 32 ∧ index < 2 ^ 32) .operandTooWide
  | .bind _ dom idx h =>
    if idx < cfg.domSize dom then failUnless (idx < 2 ^ 32 ∧ h < 2 ^ 32) .operandTooWide
    else some .noSuchLine
  | .readInfo _ _ | .writeInfo _ _ _ | .readWhoami _ _ | .writeWhoami _ _ _ | .readEvent _ _
  | .writeEvent _ _ _ | .writeIpiSend _ _ _ | .readIpiSend _ _ | .writeIpiAck _ _ _
  | .readIpiAck _ _ | .writeIpiMaskSet _ _ _ | .readIpiMaskSet _ _ | .writeIpiMaskClr _ _ _
  | .readIpiMaskClr _ _ | .fenceW _ | .fenceR _ | .fiqPoll _ | .vipiReceive _ | .trap _
  | .drain _ | .init _ | .cpuOnline _ => none

/-- `none` for an operation that exists under the parameters, else why it does not. -/
def Instr.check (cfg : Config) (i : Instr) : Option Reject :=
  if i.core < cfg.maxCores then i.checkOperands cfg else some .noSuchCore

/-- The operation exists under the parameters. -/
abbrev Instr.Wf (cfg : Config) (i : Instr) : Prop := i.check cfg = none

end Sys2Proof
end

