-- ==== Sys2Proof/Decode.lean ====
section
/-!
DEFINITION. Decoding of a request into an operation, total on every packet, and the encoder.
A register transaction is decoded from its direction and offset as spec/30_encoding.md R111 says;
an arbiter port, CPU-local access, fence or composite operation carries its name (R125) as the
operation code of the packet's header.

Packet layout, DESIGN CHOICE (log 1): header bits [7:0] operation code, [15:8] access width in bytes
(register transactions only), bit 16 set for an ordered access (register transactions only), all
other bits 0; a, b, d the operands in the order of the operation's row, 0 where unused. A register
transaction has a = offset, b = data.
-/

namespace Sys2Proof

/-- A register of the window (30_encoding R110). -/
inductive Reg where
  | info
  | whoami
  | event
  | ipiSend
  | ipiAck
  | ipiMaskSet
  | ipiMaskClr
  | target (i : Nat)
  | swSet (n : Nat)
  | swClr (n : Nat)
  | maskSet (n : Nat)
  | maskClr (n : Nat)
deriving DecidableEq, Repr, Inhabited

/-- The offset lies in the range of n registers from `base` (30_encoding R111). -/
abbrev inRange (base n off : Nat) : Prop := base ≤ off ∧ (off - base) / 4 < n

/-- The register at a 4-aligned offset (30_encoding R111). -/
def regAt (cfg : Config) (off : Nat) : Option Reg :=
  let m := cfg.regmap
  if off = m.info then some .info
  else if off = m.whoami then some .whoami
  else if off = m.event then some .event
  else if off = m.ipiSend then some .ipiSend
  else if off = m.ipiAck then some .ipiAck
  else if off = m.ipiMaskSet then some .ipiMaskSet
  else if off = m.ipiMaskClr then some .ipiMaskClr
  else if inRange m.target cfg.nrHw off then some (.target ((off - m.target) / 4))
  else if inRange m.swSet cfg.nBank off then some (.swSet ((off - m.swSet) / 4))
  else if inRange m.swClr cfg.nBank off then some (.swClr ((off - m.swClr) / 4))
  else if inRange m.maskSet cfg.nBank off then some (.maskSet ((off - m.maskSet) / 4))
  else if inRange m.maskClr cfg.nBank off then some (.maskClr ((off - m.maskClr) / 4))
  else none

/-- The operation a read of a register is. -/
def busRead (c : Nat) (k : AccessKind) : Reg → Instr
  | .info => .readInfo c k
  | .whoami => .readWhoami c k
  | .event => .readEvent c k
  | .ipiSend => .readIpiSend c k
  | .ipiAck => .readIpiAck c k
  | .ipiMaskSet => .readIpiMaskSet c k
  | .ipiMaskClr => .readIpiMaskClr c k
  | .target i => .readTarget c k i
  | .swSet n => .readSwSet c k n
  | .swClr n => .readSwClr c k n
  | .maskSet n => .readMaskSet c k n
  | .maskClr n => .readMaskClr c k n

/-- The operation a write of v to a register is. -/
def busWrite (c : Nat) (k : AccessKind) (v : Word) : Reg → Instr
  | .info => .writeInfo c k v
  | .whoami => .writeWhoami c k v
  | .event => .writeEvent c k v
  | .ipiSend => .writeIpiSend c k v
  | .ipiAck => .writeIpiAck c k v
  | .ipiMaskSet => .writeIpiMaskSet c k v
  | .ipiMaskClr => .writeIpiMaskClr c k v
  | .target i => .writeTarget c k i v
  | .swSet n => .writeSwSet c k n v
  | .swClr n => .writeSwClr c k n v
  | .maskSet n => .writeMaskSet c k n v
  | .maskClr n => .writeMaskClr c k n v

/-- What decoding answers. -/
inductive Decoded where
  | ok (i : Instr)
  | reject (e : Reject)
deriving DecidableEq, Repr, Inhabited

def Packet.code (p : Packet) : Nat := p.header.toNat % 256

def Packet.width (p : Packet) : Nat := p.header.toNat / 256 % 256

/-- The header's bits from 16 up: 0 relaxed, 1 ordered. -/
def Packet.kindBits (p : Packet) : Nat := p.header.toNat / 65536

/-- The access kind of header bits [31:16]; `none` when a bit above 16 is set. -/
def kindOfBits : Nat → Option AccessKind
  | 0 => some .relaxed
  | 1 => some .ordered
  | _ + 2 => none

/-- A register transaction: the width and alignment check of 20_memory R82, then the register of
30_encoding R111; `make` is the operation on that register. DESIGN CHOICE (log 31): where more than one
refusal of 30_encoding R126 holds, the reason recorded is the first of width or alignment, no register,
and the register's own. -/
def decodeBus (cfg : Config) (p : Packet) (make : AccessKind → Reg → Instr) : Decoded :=
  match kindOfBits p.kindBits with
  | none => .reject .unusedBits
  | some k =>
    if p.width ≠ 4 ∨ p.a.toNat % 4 ≠ 0 then .reject .badWidthOrAlignment
    else
      match regAt cfg p.a.toNat with
      | none => .reject .unmappedOffset
      | some r => .ok (make k r)

/-- An operation named by its code: nothing else in the header, and no operand word beyond the
first `used` ones. -/
def decodePlain (p : Packet) (used : Nat) (i : Instr) : Decoded :=
  if p.header.toNat / 256 = 0 ∧ (p.a = 0 ∨ 1 ≤ used) ∧ (p.b = 0 ∨ 2 ≤ used) ∧ (p.d = 0 ∨ 3 ≤ used)
  then .ok i else .reject .unusedBits

/-- The domain of BIND's first operand. -/
def domOfCode : Nat → Option Dom
  | 0 => some .hw
  | 1 => some .fiq
  | 2 => some .ipi
  | _ + 3 => none

/-- The value of a one-bit operand. -/
def boolOfCode : Nat → Option Bool
  | 0 => some false
  | 1 => some true
  | _ + 2 => none

/-- The operation a packet names, before its operands are checked. -/
def decodeRaw (cfg : Config) (c : Nat) (p : Packet) : Decoded :=
  match p.code with
  | 1 => if p.b = 0 ∧ p.d = 0 then decodeBus cfg p (busRead c) else .reject .unusedBits
  | 2 => if p.d = 0 then decodeBus cfg p (fun k => busWrite c k p.b) else .reject .unusedBits
  | 3 => decodePlain p 1 (.vipiEnRead c p.a.toNat)
  | 4 => decodePlain p 2 (.vipiEnOr c p.a.toNat p.b)
  | 5 => decodePlain p 2 (.vipiEnAndn c p.a.toNat p.b)
  | 6 => decodePlain p 2 (.vipiPendOr c p.a.toNat p.b)
  | 7 => decodePlain p 1 (.vipiPendXchg0 c p.a.toNat)
  | 8 => decodePlain p 1 (.fiqReadCause c p.a.toNat)
  | 9 =>
    match boolOfCode p.b.toNat with
    | none => .reject .unusedBits
    | some v => decodePlain p 2 (.fiqWriteArm c p.a.toNat v)
  | 10 => decodePlain p 0 (.fenceW c)
  | 11 => decodePlain p 0 (.fenceR c)
  | 12 => decodePlain p 1 (.hwDisable c p.a.toNat)
  | 13 => decodePlain p 1 (.hwEnable c p.a.toNat)
  | 14 => decodePlain p 1 (.hwEoi c p.a.toNat)
  | 15 => decodePlain p 2 (.hwSetAffinity c p.a.toNat p.b)
  | 16 => decodePlain p 1 (.hwDispatch c p.a.toNat)
  | 17 => decodePlain p 1 (.fiqMask c p.a.toNat)
  | 18 => decodePlain p 1 (.fiqUnmask c p.a.toNat)
  | 19 => decodePlain p 1 (.fiqEoi c p.a.toNat)
  | 20 => decodePlain p 0 (.fiqPoll c)
  | 21 => decodePlain p 1 (.silence c p.a.toNat)
  | 22 => decodePlain p 1 (.fiqDispatch c p.a.toNat)
  | 23 => decodePlain p 2 (.vipiSend c p.a.toNat p.b)
  | 24 => decodePlain p 0 (.vipiReceive c)
  | 25 => decodePlain p 1 (.vipiMask c p.a.toNat)
  | 26 => decodePlain p 1 (.vipiUnmask c p.a.toNat)
  | 27 => decodePlain p 0 (.trap c)
  | 28 => decodePlain p 0 (.drain c)
  | 29 => decodePlain p 1 (.classify c p.a)
  | 30 => decodePlain p 3 (.resolve c p.a.toNat p.b.toNat p.d)
  | 31 =>
    match domOfCode p.a.toNat with
    | none => .reject .unusedBits
    | some dom => decodePlain p 3 (.bind c dom p.b.toNat p.d.toNat)
  | 32 => decodePlain p 0 (.init c)
  | 33 => decodePlain p 0 (.cpuOnline c)
  | _ => .reject .noSuchOperation

/-- The operation core c requests by the packet p, or why p is none. -/
def decode (cfg : Config) (c : Nat) (p : Packet) : Decoded :=
  match decodeRaw cfg c p with
  | .reject e => .reject e
  | .ok i =>
    match i.check cfg with
    | none => .ok i
    | some e => .reject e

/-- The offset of a register (30_encoding R110). -/
def offsetOf (cfg : Config) : Reg → Nat
  | .info => cfg.regmap.info
  | .whoami => cfg.regmap.whoami
  | .event => cfg.regmap.event
  | .ipiSend => cfg.regmap.ipiSend
  | .ipiAck => cfg.regmap.ipiAck
  | .ipiMaskSet => cfg.regmap.ipiMaskSet
  | .ipiMaskClr => cfg.regmap.ipiMaskClr
  | .target i => cfg.regmap.target + 4 * i
  | .swSet n => cfg.regmap.swSet + 4 * n
  | .swClr n => cfg.regmap.swClr + 4 * n
  | .maskSet n => cfg.regmap.maskSet + 4 * n
  | .maskClr n => cfg.regmap.maskClr + 4 * n

def kindCodeBit : AccessKind → Nat
  | .relaxed => 0
  | .ordered => 1

/-- The packet of a 32-bit register transaction (30_encoding R124). -/
def busPacket (cfg : Config) (code : Nat) (k : AccessKind) (r : Reg) (v : Word) : Packet where
  header := BitVec.ofNat 32 (code + 256 * 4 + 65536 * kindCodeBit k)
  a := BitVec.ofNat 32 (offsetOf cfg r)
  b := v
  d := 0

def readPacket (cfg : Config) (k : AccessKind) (r : Reg) : Packet := busPacket cfg 1 k r 0

def writePacket (cfg : Config) (k : AccessKind) (r : Reg) (v : Word) : Packet := busPacket cfg 2 k r v

/-- The packet of an operation named by its code (30_encoding R125). -/
def plainPacket (code : Nat) (a b d : Word) : Packet := ⟨BitVec.ofNat 32 code, a, b, d⟩

def domCode : Dom → Word
  | .hw => 0
  | .fiq => 1
  | .ipi => 2

def boolCode : Bool → Word
  | false => 0
  | true => 1

/-- The packet of an operation. -/
def encode (cfg : Config) : Instr → Packet
  | .readInfo _ k => readPacket cfg k .info
  | .writeInfo _ k v => writePacket cfg k .info v
  | .readWhoami _ k => readPacket cfg k .whoami
  | .writeWhoami _ k v => writePacket cfg k .whoami v
  | .readEvent _ k => readPacket cfg k .event
  | .writeEvent _ k v => writePacket cfg k .event v
  | .writeIpiSend _ k v => writePacket cfg k .ipiSend v
  | .readIpiSend _ k => readPacket cfg k .ipiSend
  | .writeIpiAck _ k v => writePacket cfg k .ipiAck v
  | .readIpiAck _ k => readPacket cfg k .ipiAck
  | .writeIpiMaskSet _ k v => writePacket cfg k .ipiMaskSet v
  | .readIpiMaskSet _ k => readPacket cfg k .ipiMaskSet
  | .writeIpiMaskClr _ k v => writePacket cfg k .ipiMaskClr v
  | .readIpiMaskClr _ k => readPacket cfg k .ipiMaskClr
  | .readTarget _ k i => readPacket cfg k (.target i)
  | .writeTarget _ k i v => writePacket cfg k (.target i) v
  | .writeSwSet _ k n v => writePacket cfg k (.swSet n) v
  | .readSwSet _ k n => readPacket cfg k (.swSet n)
  | .writeSwClr _ k n v => writePacket cfg k (.swClr n) v
  | .readSwClr _ k n => readPacket cfg k (.swClr n)
  | .writeMaskSet _ k n v => writePacket cfg k (.maskSet n) v
  | .readMaskSet _ k n => readPacket cfg k (.maskSet n)
  | .writeMaskClr _ k n v => writePacket cfg k (.maskClr n) v
  | .readMaskClr _ k n => readPacket cfg k (.maskClr n)
  | .vipiEnRead _ t => plainPacket 3 (BitVec.ofNat 32 t) 0 0
  | .vipiEnOr _ t m => plainPacket 4 (BitVec.ofNat 32 t) m 0
  | .vipiEnAndn _ t m => plainPacket 5 (BitVec.ofNat 32 t) m 0
  | .vipiPendOr _ t m => plainPacket 6 (BitVec.ofNat 32 t) m 0
  | .vipiPendXchg0 _ t => plainPacket 7 (BitVec.ofNat 32 t) 0 0
  | .fiqReadCause _ k => plainPacket 8 (BitVec.ofNat 32 k) 0 0
  | .fiqWriteArm _ k v => plainPacket 9 (BitVec.ofNat 32 k) (boolCode v) 0
  | .fenceW _ => plainPacket 10 0 0 0
  | .fenceR _ => plainPacket 11 0 0 0
  | .hwDisable _ i => plainPacket 12 (BitVec.ofNat 32 i) 0 0
  | .hwEnable _ i => plainPacket 13 (BitVec.ofNat 32 i) 0 0
  | .hwEoi _ i => plainPacket 14 (BitVec.ofNat 32 i) 0 0
  | .hwSetAffinity _ i m => plainPacket 15 (BitVec.ofNat 32 i) m 0
  | .hwDispatch _ i => plainPacket 16 (BitVec.ofNat 32 i) 0 0
  | .fiqMask _ d => plainPacket 17 (BitVec.ofNat 32 d) 0 0
  | .fiqUnmask _ d => plainPacket 18 (BitVec.ofNat 32 d) 0 0
  | .fiqEoi _ d => plainPacket 19 (BitVec.ofNat 32 d) 0 0
  | .fiqPoll _ => plainPacket 20 0 0 0
  | .silence _ k => plainPacket 21 (BitVec.ofNat 32 k) 0 0
  | .fiqDispatch _ d => plainPacket 22 (BitVec.ofNat 32 d) 0 0
  | .vipiSend _ v dests => plainPacket 23 (BitVec.ofNat 32 v) dests 0
  | .vipiReceive _ => plainPacket 24 0 0 0
  | .vipiMask _ v => plainPacket 25 (BitVec.ofNat 32 v) 0 0
  | .vipiUnmask _ v => plainPacket 26 (BitVec.ofNat 32 v) 0 0
  | .trap _ => plainPacket 27 0 0 0
  | .drain _ => plainPacket 28 0 0 0
  | .classify _ e => plainPacket 29 e 0 0
  | .resolve _ kind index flags => plainPacket 30 (BitVec.ofNat 32 kind) (BitVec.ofNat 32 index) flags
  | .bind _ dom idx h => plainPacket 31 (domCode dom) (BitVec.ofNat 32 idx) (BitVec.ofNat 32 h)
  | .init _ => plainPacket 32 0 0 0
  | .cpuOnline _ => plainPacket 33 0 0 0

/-- The packet whose words, the header lowest, are the number w: the first word is bits [31:0]. -/
def packetOfNat (w : Nat) : Packet where
  header := BitVec.ofNat 32 w
  a := BitVec.ofNat 32 (w / 2 ^ 32)
  b := BitVec.ofNat 32 (w / 2 ^ 64)
  d := BitVec.ofNat 32 (w / 2 ^ 96)

/-- The number whose words are a packet's, the header lowest. -/
def Packet.toNat (p : Packet) : Nat :=
  p.header.toNat + 2 ^ 32 * p.a.toNat + 2 ^ 64 * p.b.toNat + 2 ^ 96 * p.d.toNat

/-- The operation the decoder reads from a packet given as a number of nbits bits, requested by the
boot core of the parameters of `State.reset`. -/
def decodeTableWord (nbits w : Nat) : Option Instr :=
  match decode Config.default Config.default.bootCore (packetOfNat (w % 2 ^ nbits)) with
  | .ok i => some i
  | .reject _ => none

end Sys2Proof
end

