-- ==== Sys2Proof/Machine/State.lean ====
section
/-!
DEFINITION. The state of the arbiter (spec/10_state.md R30 to R62, R67) as plain data, the outcomes of
a step, and the state at power-on. Beside the spec's state it holds the model's own fields, each said
to be so: the inputs `sched` and `queue`, the counter `draws`, the returned values `ret` and the total
order `trace` of 20_memory.md R87.
-/

namespace Sys2Proof.Machine

open Sys2Proof

/-- The state of the front-end of a core (10_state R46). -/
inductive FrontEnd where
  | idle
  | draining
deriving DecidableEq, Repr, Inhabited

/-- One bit for each physical IPI line of a core (10_state R36, R37). -/
structure IpiBits where
  other : Bool
  self  : Bool
deriving DecidableEq, Repr, Inhabited

/-- The error results returned to callers (60_exceptions R450, R452). -/
inductive ErrCode where
  | config
  | affinity
  | range
deriving DecidableEq, Repr, Inhabited

/-- The diagnostic codes (60_exceptions R451). -/
inductive DiagCode where
  | unknownEvent
  | unsupportedFiq
  | topology
  | unboundLine
deriving DecidableEq, Repr, Inhabited

/-- What a diagnostic record says (41_hw_lines R259, 43_fiq R318, 44_vipi_arbiter R362,
45_frontend_config R392, 70_reset_and_hazards R505). -/
inductive DiagInfo where
  | line (dom : Dom) (idx : Nat)
  | event (e : Word)
  | cause (name : String)
  | ids (c : Nat) (id : Word)
deriving DecidableEq, Repr, Inhabited

/-- One record of the diagnostic log (10_state R58). -/
structure Diag where
  core : Nat
  code : DiagCode
  info : DiagInfo
deriving DecidableEq, Repr, Inhabited

/-- The reasons of `raise Refused` (00_scope R15, 30_encoding R126, 44_vipi_arbiter R360). -/
inductive RefuseReason where
  | unmappedOffset
  | badWidthOrAlignment
  | writeReadOnly
  | reservedBit
  | badVipiIndex
deriving DecidableEq, Repr, Inhabited

/-- The value an operation returns to its core (`return v`, 00_scope R15). -/
inductive Result where
  | none
  | word (v : Word)
  | bit (b : Bool)
  | causeState (cond arm : Bool)
  | ok
  | core (t : Nat)
  | line (dom : Dom) (idx : Nat)
  | err (e : ErrCode)
  | byte (v : Byte)
deriving DecidableEq, Repr, Inhabited

/-- A step that a composite operation still has to perform (10_state R47, R66): `op` a register
transaction, port operation, fence or called operation, the others the control steps of the
operation's pseudocode. A control step that tests a value tests the one its core read last (`ret`). -/
inductive SeqStep where
  | op (i : Instr)
  /-- `return r` -/
  | ret (r : Result)
  /-- `hw_disabled[i] <- v` (41_hw_lines R255, R256; 70_reset_and_hazards R503) -/
  | setHwDisabled (i : Nat) (v : Bool)
  /-- `d <- hw_disabled[i]` (41_hw_lines R257) -/
  | hwEoiRead (i : Nat)
  /-- `if d = 0 then wr MASK_CLR[bank(i)], bit(i)` (41_hw_lines R257) -/
  | hwEoiTest (i : Nat)
  /-- `wait until aff_lock = free; aff_lock <- held(c)` (41_hw_lines R258) -/
  | affLock (i : Nat) (m : Word)
  /-- the test of S and the choice of t, the lock held (41_hw_lines R258) -/
  | affChoose (i : Nat) (m : Word)
  /-- `aff_lock <- free` -/
  | affUnlock
  /-- `Handler(dom, idx)` (00_scope R15) -/
  | invoke (dom : Dom) (idx : Nat)
  /-- the handler h of the line runs: the core performs its software's steps (00_scope R6) -/
  | running (dom : Dom) (idx h : Nat)
  /-- `fiq_disabled[c][d] <- v` (43_fiq R314, R315; 70_reset_and_hazards R505) -/
  | setFiqDisabled (d : Nat) (v : Bool)
  /-- `x <- fiq_disabled[c][d]` (43_fiq R316) -/
  | fiqEoiRead (d : Nat)
  /-- `if x = 0 then FIQ_WRITE_ARM(cause(d), 1)` (43_fiq R316) -/
  | fiqEoiTest (d : Nat)
  /-- the test of the pair read for cause k (43_fiq R317) -/
  | pollTest (k : Nat)
  /-- `Diag(code, info)` -/
  | diag (code : DiagCode) (info : DiagInfo)
  /-- the head of the loop over the cores of D still in `rest`, `kick` gathered so far (44_vipi_arbiter R360) -/
  | sendNext (v : Nat) (rest kick : Word)
  /-- `if e[v] = 1` for the destination t (44_vipi_arbiter R360) -/
  | sendTest (v t : Nat) (rest kick : Word)
  /-- `if kick ≠ 0 then wr IPI_SEND, kick` (44_vipi_arbiter R360) -/
  | sendKick (kick : Word)
  /-- f is the value exchanged: step 4 and the loop over its bits follow (44_vipi_arbiter R362) -/
  | recvTake
  /-- the dispatch of bit b (44_vipi_arbiter R362) -/
  | recvBit (b : Nat)
  /-- `if r = 0 then wr IPI_MASK_SET, 1 << IPI_OTHER_BIT` (44_vipi_arbiter R364) -/
  | vipiMaskTest
  /-- `if e = 0 then exit loop`, else CLASSIFY(e) and the next read (45_frontend_config R391) -/
  | drainTest
  /-- `fe[c] <- Idle` (45_frontend_config R390) -/
  | trapExit
  /-- the loops of INIT over the lines just discovered (70_reset_and_hazards R503) -/
  | initLoops
  /-- `armed <- 1` (70_reset_and_hazards R503) -/
  | setArmed
  /-- `if id ≠ c then Diag(TOPOLOGY, (c, id))` (70_reset_and_hazards R505) -/
  | onlineTest
deriving DecidableEq, Repr, Inhabited

/-- What the software of a core does next, an input of the model (log 2): request an operation,
access a byte of ordinary memory (20_memory R95), or return from the handler it runs in. -/
inductive Request where
  | packet (p : Packet)
  | memRead (addr : Nat)
  | memWrite (addr : Nat) (v : Byte)
  | handlerReturn
deriving DecidableEq, Repr, Inhabited

/-- The state of one hardware line (10_state R32 to R35, R43). -/
structure Line where
  level      : Bool
  sw         : Bool
  mask       : Bool
  target     : Word
  hwDisabled : Bool
deriving DecidableEq, Repr, Inhabited

/-- The state of one core (10_state R36, R37, R39 to R42, R44, R46, R47; 45_frontend_config R395),
and the model's own `ret` (log 22) and `queue` (log 2). -/
structure CoreState where
  ipiPend     : IpiBits
  ipiMask     : IpiBits
  cond        : List Bool
  arm         : List Bool
  fiqDisabled : List Bool
  pending     : Word
  enabled     : Word
  fe          : FrontEnd
  seq         : List SeqStep
  accepts     : Bool
  ret         : Result
  queue       : List Request
deriving DecidableEq, Repr, Inhabited

/-- An event the status-mux may report (40_status_mux R200). -/
inductive EventKind where
  | hw (i : Nat)
  | ipi (sel : Sel)
deriving DecidableEq, Repr, Inhabited

/-- A piece of block state, as far as 20_memory R93 needs to know who wrote what a read observes. -/
inductive Loc where
  | sw (i : Nat)
  | mask (i : Nat)
  | target (i : Nat)
  | hwDisabled (i : Nat)
  | ipiPend (c : Nat) (sel : Sel)
  | ipiMask (c : Nat) (sel : Sel)
  | arm (c k : Nat)
  | fiqDisabled (c d : Nat)
  | pending (c : Nat)
  | enabled (c : Nat)
  | bound (dom : Dom) (idx : Nat)
  | flags (dom : Dom) (idx : Nat)
  | affLock
  | armed
  | fe (c : Nat)
  | diag
deriving DecidableEq, Repr, Inhabited

/-- Who writes ordinary memory: a core's software or the device of a line (20_memory R93, R94).
DESIGN CHOICE (log 37): each line has its own device. -/
inductive MemAgent where
  | core (c : Nat)
  | device (i : Nat)
deriving DecidableEq, Repr, Inhabited

/-- One entry of the total order (20_memory R87, R90). -/
inductive Event where
  /-- core c read and wrote the pieces of block state named, in one step; k is the access kind of a
  register transaction, none for a port, a CPU-local access or a control step -/
  | access (c : Nat) (k : Option AccessKind) (reads writes : List Loc)
  /-- an EVENT read by core c reported e (40_status_mux R203) -/
  | report (c : Nat) (k : AccessKind) (e : EventKind)
  /-- `Fence(k)` by core c (20_memory R90) -/
  | fence (c : Nat) (k : FenceKind)
  /-- an environment input changed (10_state R60 to R62) -/
  | input (m : Mover)
  /-- a byte of ordinary memory was written -/
  | memWrite (who : MemAgent) (addr : Nat) (v : Byte)
  /-- core c read ordinary memory and got the value of the write at position src of this order, the
  initial value for none (20_memory R95) -/
  | memRead (c addr : Nat) (src : Option Nat)
  /-- the handler h of a line began on core c (00_scope R15) -/
  | handler (c : Nat) (dom : Dom) (idx h : Nat)
  /-- the handler running on core c returned -/
  | handlerEnd (c : Nat)
  /-- core c began, ended the front-end's run for a trap (60_exceptions R458, R459) -/
  | trapEntry (c : Nat)
  | trapReturn (c : Nat)
deriving DecidableEq, Repr, Inhabited

/-- The flags of the descriptor last resolved to each line, none before the first (30_encoding R122,
92 D28; log 28). -/
structure LineFlags where
  hw  : List (Option Word)
  fiq : List (Option Word)
  ipi : List (Option Word)
deriving DecidableEq, Repr, Inhabited

/-- The state of the machine. `cfg` never changes. -/
structure State where
  cfg       : Config
  lines     : List Line
  cores     : List CoreState
  boundHw   : List (Option Nat)
  boundFiq  : List (Option Nat)
  boundVipi : List (Option Nat)
  flags     : LineFlags
  affLock   : Option Nat
  armed     : Bool
  diag      : List Diag
  /-- the bit of 10_state R59, with its reason beside it -/
  refused   : Option RefuseReason
  trace     : List Event
  draws     : Nat
  sched     : List Mover
deriving DecidableEq, Repr, Inhabited

/-- Why the machine stops. -/
inductive Fault where
  /-- raised by `step` alone, in a state whose `refused` mark is set: such a state has no successor
  (10_state R59). Safe: the machine goes no further where the spec gives no meaning. -/
  | runRefused (r : RefuseReason)
deriving DecidableEq, Repr, Inhabited

/-- Why a step has no meaning. -/
inductive Refusal where
  /-- raised by an arm of `exec` whose operation has no meaning yet. Safe. -/
  | notModelled (mnemonic : String)
  /-- raised by `step` when a core's packet is no operation of the spec (log 1). Safe: no such
  request exists on the hardware. -/
  | undecodable (e : Reject)
deriving DecidableEq, Repr, Inhabited

/-- What a step answers. -/
abbrev Out := Host.Outcome State Fault Refusal

/-- The values the spec leaves unspecified at power-on (10_state R67, 92 D22), and the environment
inputs at that instant (10_state R32, R39; 45_frontend_config R395). -/
structure PowerOn where
  sw      : Nat → Bool
  mask    : Nat → Bool
  target  : Nat → Word
  ipiPend : Nat → IpiBits
  ipiMask : Nat → IpiBits
  arm     : Nat → Nat → Bool
  level   : Nat → Bool
  cond    : Nat → Nat → Bool
  accepts : Nat → Bool

/-- Line i at power-on (10_state R67). -/
def PowerOn.line (d : PowerOn) (i : Nat) : Line where
  level      := d.level i
  sw         := d.sw i
  mask       := d.mask i
  target     := d.target i
  hwDisabled := true

/-- Core c at power-on (10_state R67). -/
def PowerOn.core (d : PowerOn) (cfg : Config) (c : Nat) : CoreState where
  ipiPend     := d.ipiPend c
  ipiMask     := d.ipiMask c
  cond        := (List.range cfg.causes.length).map (d.cond c)
  arm         := (List.range cfg.causes.length).map (d.arm c)
  fiqDisabled := List.replicate cfg.nrFiq true
  pending     := 0
  enabled     := 0
  fe          := .idle
  seq         := []
  accepts     := d.accepts c
  ret         := .none
  queue       := []

/-- The machine at power-on, for every choice of the parameters and of the drawn values
(10_state R67, 70_reset_and_hazards R500). -/
def State.powerOn (cfg : Config) (d : PowerOn) : State where
  cfg       := cfg
  lines     := (List.range cfg.nrHw).map d.line
  cores     := (List.range cfg.maxCores).map (d.core cfg)
  boundHw   := List.replicate cfg.nrHw none
  boundFiq  := List.replicate cfg.nrFiq none
  boundVipi := List.replicate cfg.nrVipi none
  flags     := ⟨List.replicate cfg.nrHw none, List.replicate cfg.nrFiq none,
    List.replicate cfg.nrVipi none⟩
  affLock   := none
  armed     := false
  diag      := []
  refused   := none
  trace     := []
  draws     := 0
  sched     := []

/-- DESIGN CHOICE (log 4, log 5): every drawn value and every input zero. -/
def PowerOn.zero : PowerOn where
  sw      := fun _ => false
  mask    := fun _ => false
  target  := fun _ => 0
  ipiPend := fun _ => ⟨false, false⟩
  ipiMask := fun _ => ⟨false, false⟩
  arm     := fun _ _ => false
  level   := fun _ => false
  cond    := fun _ _ => false
  accepts := fun _ => false

/-- The machine right after reset, with the parameters of log 3 and the power-on values of log 4 and
log 5. What is stated of reset in this package is stated of `State.powerOn` for every choice. -/
def State.reset : State := State.powerOn Config.default PowerOn.zero

end Sys2Proof.Machine
end

