-- ==== Sys2Proof/Machine/Operands.lean ====
section
/-!
DEFINITION. How operands name state: the bank and bit of a line (spec/30_encoding.md R119), the
selector bits of the physical IPI registers (R118), the fields of INFO and of the event word
(R114, R115), the cause of a fast-path index (43_fiq.md), sets of cores as masks (00_scope.md R16), and
the reading of each piece of state by its index.
-/

namespace Sys2Proof

open Sys2Proof.Machine

/-- `bank(i) = i >> 5` (30_encoding R119). -/
def bankOf (i : Nat) : Nat := i / 32

/-- `1 << n` (00_scope R14). -/
def oneBit (n : Nat) : Word := BitVec.ofNat 32 (2 ^ n)

/-- `bit(i) = 1 << (i & 31)` (30_encoding R119). -/
def bitOf (i : Nat) : Word := oneBit (i % 32)

/-- Line i is acted on by the data v of bank n: it is the line 32·n + b of a set bit b of v
(41_hw_lines R243). -/
def inBank (n : Nat) (v : Word) (i : Nat) : Bool := decide (bankOf i = n) && v.getLsbD (i % 32)

/-- The set bits below n of a mask, ascending (00_scope R16). -/
def setBits (n : Nat) (m : Word) : List Nat := (List.range n).filter (fun b => m.getLsbD b)

/-- m without bit b. -/
def clearBit (m : Word) (b : Nat) : Word := m &&& ~~~(oneBit b)

namespace Config

/-- The INFO word (10_state R31, 30_encoding R114). -/
def info (cfg : Config) : Word := cfg.infoHigh ++ BitVec.ofNat 16 cfg.nrHw

/-- HWID(c) (10_state R38). -/
def hwidOf (cfg : Config) (c : Nat) : Word := cfg.hwid.getD c 0

/-- online(c), for a core of the platform (00_scope R12). -/
def isOnline (cfg : Config) (c : Nat) : Bool := decide (c < cfg.maxCores) && cfg.online.getLsbD c

/-- Descriptor k of FIQ_CAUSES. -/
def cause (cfg : Config) (k : Nat) : CauseDesc := cfg.causes.getD k ⟨"", none, .source⟩

/-- `cause(d)`: the number of the descriptor whose dom is d (43_fiq, notation). -/
def causeOf (cfg : Config) (d : Nat) : Nat := cfg.causes.findIdx (fun k => k.dom == some d)

/-- `1 << IPI_OTHER_BIT` (30_encoding R118). -/
def otherBit (cfg : Config) : Word := oneBit cfg.ipiOtherBit

/-- `1 << IPI_SELF_BIT` (30_encoding R118). -/
def selfBit (cfg : Config) : Word := oneBit cfg.ipiSelfBit

/-- The bits of m that are vIPI lines, the only ones `pending` has: a bit of it at or above NR_VIPI is
always 0 (10_state R41, 44_vipi_arbiter R350). -/
def vipiBits (cfg : Config) (m : Word) : Word := BitVec.ofNat 32 (m.toNat % 2 ^ cfg.nrVipi)

/-- v has a bit other than the two selector bits (42_physical_ipi R284). -/
def badSelector (cfg : Config) (v : Word) : Bool := v &&& ~~~(cfg.otherBit ||| cfg.selfBit) != 0

/-- v has a bit c ≥ MAX_CORES set (42_physical_ipi R282). -/
def badDestination (cfg : Config) (v : Word) : Bool := v >>> cfg.maxCores != 0

/-- The line s is selected by the data v (30_encoding R118). -/
def selects (cfg : Config) (v : Word) : Sel → Bool
  | .other => v.getLsbD cfg.ipiOtherBit
  | .self => v.getLsbD cfg.ipiSelfBit

/-- The selected lines, for the record of an access. -/
def selected (cfg : Config) (v : Word) : List Sel :=
  [Sel.other, Sel.self].filter (fun sel => cfg.selects v sel)

/-- The lines that the data v of bank n acts on. -/
def bankLines (cfg : Config) (n : Nat) (v : Word) : List Nat :=
  (List.range cfg.nrHw).filter (inBank n v)

/-- The event word of an event (30_encoding R115, R116). -/
def eventWord (cfg : Config) : EventKind → Word
  | .hw i => cfg.evTypeHw ++ BitVec.ofNat 16 i
  | .ipi .other => cfg.evTypeIpi ++ cfg.evIpiOther
  | .ipi .self => cfg.evTypeIpi ++ cfg.evIpiSelf

/-- The domain of a descriptor's kind code (30_encoding R122). -/
def domOfKind (cfg : Config) (kind : Nat) : Option Dom :=
  if kind = cfg.kindCode.hw then some .hw
  else if kind = cfg.kindCode.fiq then some .fiq
  else if kind = cfg.kindCode.ipi then some .ipi
  else none

end Config

/-- `type = e[31:16]` (30_encoding R115). -/
def eventType (e : Word) : BitVec 16 := e.extractLsb' 16 16

/-- `index = e[15:0]` (30_encoding R115). -/
def eventIndex (e : Word) : BitVec 16 := e.extractLsb' 0 16

/-- `NR_HW = INFO[15:0]` (30_encoding R114). -/
def lineCount (info : Word) : Nat := (info.extractLsb' 0 16).toNat

namespace Machine

def IpiBits.get (b : IpiBits) : Sel → Bool
  | .other => b.other
  | .self => b.self

/-- Set the bits that `which` names, or clear them. -/
def IpiBits.assign (b : IpiBits) (which : Sel → Bool) (v : Bool) : IpiBits where
  other := if which .other then v else b.other
  self  := if which .self then v else b.self

/-- Line i; a line that is not there requests nothing. -/
def State.line (s : State) (i : Nat) : Line := s.lines.getD i default

/-- Core c; a core that is not there has nothing pending and nothing to do. -/
def State.core (s : State) (c : Nat) : CoreState := s.cores.getD c default

/-- `cond[c][k]`. -/
def State.cond (s : State) (c k : Nat) : Bool := (s.core c).cond.getD k false

/-- `arm[c][k]`. -/
def State.arm (s : State) (c k : Nat) : Bool := (s.core c).arm.getD k false

/-- `fiq_disabled[c][d]`. -/
def State.fiqDisabled (s : State) (c d : Nat) : Bool := (s.core c).fiqDisabled.getD d false

/-- `bound[dom][idx]` (10_state R45). -/
def State.bound (s : State) (dom : Dom) (idx : Nat) : Option Nat :=
  match dom with
  | .hw => s.boundHw.getD idx none
  | .fiq => s.boundFiq.getD idx none
  | .ipi => s.boundVipi.getD idx none

/-- The flags stored for line (dom, idx) (30_encoding R122). -/
def State.flagsOf (s : State) (dom : Dom) (idx : Nat) : Option Word :=
  match dom with
  | .hw => s.flags.hw.getD idx none
  | .fiq => s.flags.fiq.getD idx none
  | .ipi => s.flags.ipi.getD idx none

/-- The word a result holds; the model's control steps that test a word follow a step that returned one. -/
def Result.toWord : Result → Word
  | .word v => v
  | _ => 0

/-- The bit a result holds. -/
def Result.toBit : Result → Bool
  | .bit b => b
  | _ => false

/-- The pair FIQ_READ_CAUSE returned has both its bits set (43_fiq R317). -/
def Result.fired : Result → Bool
  | .causeState x a => x && a
  | _ => false

end Machine

end Sys2Proof
end

