-- ==== Sys2Proof/Machine/Flags.lean ====
section
/-!
DEFINITION. The derived signals (spec/10_state.md R50 to R54) and the classification of waiting events
(40_status_mux.md R200). The block has no condition flags (10_state R30); these signals are the status
it computes, each a function of the current state (40_status_mux R215).
-/

namespace Sys2Proof.Machine

open Sys2Proof

/-- `hw_req(i) = level[i] | sw[i]` (10_state R50). -/
def State.hwReq (s : State) (i : Nat) : Bool := (s.line i).level || (s.line i).sw

/-- `hw_elig(i, c) = hw_req(i) & ~mask[i] & target[i][c]`, for c < MAX_CORES (10_state R51). -/
def State.hwElig (s : State) (i c : Nat) : Bool :=
  decide (c < s.cfg.maxCores) && (s.hwReq i && !(s.line i).mask && (s.line i).target.getLsbD c)

/-- `ipi_elig(c, s) = ipi_pend[c][s] & ~ipi_mask[c][s]` (10_state R52). -/
def State.ipiElig (s : State) (c : Nat) (sel : Sel) : Bool :=
  (s.core c).ipiPend.get sel && !((s.core c).ipiMask.get sel)

/-- `irq_out[c]` (10_state R53). -/
def State.irqOut (s : State) (c : Nat) : Bool :=
  (List.range s.cfg.nrHw).any (fun i => s.hwElig i c) || s.ipiElig c .other || s.ipiElig c .self

/-- `fire[c][k] = cond[c][k] & arm[c][k]` (10_state R54). -/
def State.fire (s : State) (c k : Nat) : Bool := s.cond c k && s.arm c k

/-- `fiq_out[c] = ∃ k . fire[c][k]` (10_state R54). -/
def State.fiqOut (s : State) (c : Nat) : Bool :=
  (List.range s.cfg.causes.length).any (fun k => s.fire c k)

/-- EV(c), the events an EVENT read by core c may report (40_status_mux R200), in a fixed order that
means nothing (R207). -/
def State.events (s : State) (c : Nat) : List EventKind :=
  ((List.range s.cfg.nrHw).filter (fun i => s.hwElig i c)).map EventKind.hw ++
    ([Sel.other, Sel.self].filter (fun sel => s.ipiElig c sel)).map EventKind.ipi

/-- What TRAP needs of core c (45_frontend_config R390, R395). -/
def State.trapAdmitted (s : State) (c : Nat) : Bool :=
  decide ((s.core c).fe = .idle) && s.armed && (s.core c).seq.isEmpty

/-- Core c takes an interrupt: it accepts one, an output to it is raised, and TRAP may start
(60_exceptions R458, 45_frontend_config R395). -/
def State.trapDue (s : State) (c : Nat) : Bool :=
  s.trapAdmitted c && (s.core c).accepts && (s.irqOut c || s.fiqOut c)

/-- Core c is in state Draining. -/
def State.draining (s : State) (c : Nat) : Bool := decide ((s.core c).fe = .draining)

end Sys2Proof.Machine
end

