-- ==== Sys2Proof/Machine/Ops.lean ====
section
/-!
DEFINITION. The shared operations over the state: updates of one line, one core, one bound entry; the
total order; free choices; refusals; the register transactions that more than one operation performs;
and trap entry and return (spec/60_exceptions.md R458, R459), each written once.
-/

namespace Sys2Proof.Machine

open Sys2Proof

/-- The list l, whose first element has index n, with every element changed by its index. -/
def mapFrom {α : Type} (f : Nat → α → α) : Nat → List α → List α
  | _, [] => []
  | n, x :: l => f n x :: mapFrom f (n + 1) l

/-- Change line i. -/
def State.updLine (s : State) (i : Nat) (f : Line → Line) : State :=
  { s with lines := s.lines.modify i f }

/-- Change core c. -/
def State.updCore (s : State) (c : Nat) (f : CoreState → CoreState) : State :=
  { s with cores := s.cores.modify c f }

/-- Change every line of bank n that the data v acts on (30_encoding R119). -/
def State.updBank (s : State) (n : Nat) (v : Word) (f : Line → Line) : State :=
  { s with lines := mapFrom (fun i l => if inBank n v i then f l else l) 0 s.lines }

/-- Change every core by its number. -/
def State.updCores (s : State) (f : Nat → CoreState → CoreState) : State :=
  { s with cores := mapFrom f 0 s.cores }

/-- The count of draws becomes n (log 6). -/
def State.withDraws (s : State) (n : Nat) : State := { s with draws := n }

/-- The movers to come become l. -/
def State.withSched (s : State) (l : List Mover) : State := { s with sched := l }

/-- `aff_lock <- o`, `none` for free (10_state R48). -/
def State.withAffLock (s : State) (o : Option Nat) : State := { s with affLock := o }

/-- `armed <- 1` (10_state R49). -/
def State.withArmed (s : State) : State := { s with armed := true }

/-- The steps core c has still to perform become l. -/
def State.setSeq (s : State) (c : Nat) (l : List SeqStep) : State :=
  s.updCore c (fun k => { k with seq := l })

/-- What core c's software performs next becomes l. -/
def State.setQueue (s : State) (c : Nat) (l : List Request) : State :=
  s.updCore c (fun k => { k with queue := l })

/-- `fe[c] <- f`. -/
def State.setFe (s : State) (c : Nat) (f : FrontEnd) : State :=
  s.updCore c (fun k => { k with fe := f })

/-- `pending[c] <- v`. -/
def State.setPending (s : State) (c : Nat) (v : Word) : State :=
  s.updCore c (fun k => { k with pending := v })

/-- `enabled[c] <- v`. -/
def State.setEnabled (s : State) (c : Nat) (v : Word) : State :=
  s.updCore c (fun k => { k with enabled := v })

/-- `ipi_pend[c] <- b`. -/
def State.setIpiPend (s : State) (c : Nat) (b : IpiBits) : State :=
  s.updCore c (fun k => { k with ipiPend := b })

/-- `ipi_mask[c] <- b`. -/
def State.setIpiMask (s : State) (c : Nat) (b : IpiBits) : State :=
  s.updCore c (fun k => { k with ipiMask := b })

/-- Append to the total order (20_memory R87). -/
def State.note (s : State) (e : Event) : State := { s with trace := s.trace ++ [e] }

/-- Record a step of core c by what it reads and writes. -/
def State.access (s : State) (c : Nat) (k : Option AccessKind) (reads writes : List Loc) : State :=
  s.note (.access c k reads writes)

/-- `return r` to core c (00_scope R15). -/
def State.reply (s : State) (c : Nat) (r : Result) : State :=
  s.updCore c (fun k => { k with ret := r })

/-- Core c has the steps to perform, before those it had. -/
def State.call (s : State) (c : Nat) (steps : List SeqStep) : State :=
  s.updCore c (fun k => { k with seq := steps ++ k.seq })

/-- `raise Refused(r)`: no effect on the block but the mark (10_state R59, 30_encoding R126). -/
def State.refuse (s : State) (r : RefuseReason) : State := { s with refused := some r }

/-- `Diag(code, info)` by core c, a write of block state (00_scope R15, 10_state R58, 20_memory R87). -/
def State.addDiag (s : State) (c : Nat) (code : DiagCode) (info : DiagInfo) : State :=
  { s.access c none [] [.diag] with diag := s.diag ++ [⟨c, code, info⟩] }

/-- `choose x ∈ S` (00_scope R15): the element, and the state after the draw; none for an empty S, and
no draw where there is one element only. -/
def State.choose {α : Type} (s : State) : List α → Option (α × State)
  | [] => none
  | [x] => some (x, s)
  | x :: y :: l =>
    some ((x :: y :: l).getD (Config.freeNat s.draws % (l.length + 2)) x,
      s.withDraws (s.draws + 1))

/-- `bound[dom][idx] <- h` (45_frontend_config R405). -/
def State.setBound (s : State) (dom : Dom) (idx h : Nat) : State :=
  match dom with
  | .hw => { s with boundHw := s.boundHw.set idx (some h) }
  | .fiq => { s with boundFiq := s.boundFiq.set idx (some h) }
  | .ipi => { s with boundVipi := s.boundVipi.set idx (some h) }

/-- The flags of the descriptor resolved to (dom, idx) become v (30_encoding R122; log 28). -/
def State.setFlags (s : State) (dom : Dom) (idx : Nat) (v : Word) : State :=
  match dom with
  | .hw => { s with flags := { s.flags with hw := s.flags.hw.set idx (some v) } }
  | .fiq => { s with flags := { s.flags with fiq := s.flags.fiq.set idx (some v) } }
  | .ipi => { s with flags := { s.flags with ipi := s.flags.ipi.set idx (some v) } }

/-- A read of a write-action register: a drawn value, no side effect (30_encoding R127). -/
def State.readDrawn (s : State) (c : Nat) (k : AccessKind) : State :=
  ((s.withDraws (s.draws + 1)).access c (some k) [] []).reply c (.word (Config.freeWord s.draws))

/-- A write to one of the four bank registers: it acts on the lines of the set bits, which are the
pieces of state `loc` (30_encoding R119, 41_hw_lines R243 to R246). -/
def State.writeBank (s : State) (c : Nat) (k : AccessKind) (n : Nat) (v : Word) (loc : Nat → Loc)
    (f : Line → Line) : State :=
  (s.access c (some k) [] ((s.cfg.bankLines n v).map loc)).updBank n v f

/-- The auto-mask of the event an EVENT read by core c reports (40_status_mux R205, R206). -/
def State.autoMask (s : State) (c : Nat) : EventKind → State
  | .hw i => s.updLine i (fun l => { l with mask := true })
  | .ipi sel => s.setIpiMask c ((s.core c).ipiMask.assign (· == sel) true)

/-- READ_EVENT by core c: the word and the state after it, in one step (40_status_mux R203).
DESIGN CHOICE (log 30): a read that answers 0 is recorded as reading no piece of block state, so it
observes none of the writes that made EV(c) empty. -/
def State.readEvent (s : State) (c : Nat) (k : AccessKind) : Word × State :=
  match s.choose (s.events c) with
  | none => (0, s.access c (some k) [] [])
  | some (e, s') => (s.cfg.eventWord e, (s'.note (.report c k e)).autoMask c e)

/-- A write of v to IPI_ACK, IPI_MASK_SET or IPI_MASK_CLR by core c: refused with a bit that is no
selector, else the change f, which writes the pieces `loc` of the selected lines
(42_physical_ipi R283 to R286). -/
def State.writeSelector (s : State) (c : Nat) (k : AccessKind) (v : Word) (loc : Sel → Loc)
    (f : State → State) : State :=
  if s.cfg.badSelector v then s.refuse .reservedBit
  else f (s.access c (some k) [] ((s.cfg.selected v).map loc))

/-- `arm[c][k] <- v` (43_fiq R313). -/
def State.setArm (s : State) (c k : Nat) (v : Bool) : State :=
  s.updCore c (fun st => { st with arm := st.arm.set k v })

/-- `fiq_disabled[c][d] <- v`. -/
def State.setFiqDisabled (s : State) (c d : Nat) (v : Bool) : State :=
  s.updCore c (fun st => { st with fiqDisabled := st.fiqDisabled.set d v })

/-- Trap entry, as far as the block sees it (60_exceptions R458): the start of TRAP on core c
(45_frontend_config R390), where TRAP may start (R395); where it may not there is no such step, and
nothing changes (log 8). DESIGN CHOICE (log 38): `fe[c] <- Draining` and the choice of the order are one
step. -/
def State.takeTrap (s : State) (c : Nat) : State :=
  if s.trapAdmitted c then
    match s.choose [[SeqStep.op (.drain c), .op (.fiqPoll c)], [.op (.fiqPoll c), .op (.drain c)]] with
    | none => s
    | some (order, s') =>
      ((s'.note (.trapEntry c)).setFe c .draining).call c (order ++ [.trapExit])
  else s

/-- Trap return, as far as the block sees it (60_exceptions R459): `fe[c] <- Idle`, nothing restored. -/
def State.trapReturn (s : State) (c : Nat) : State :=
  (s.note (.trapReturn c)).setFe c .idle

end Sys2Proof.Machine
end

