-- ==== Sys2Proof/Machine/Ordering.lean ====
section
/-!
DEFINITION. What a read of ordinary memory may return (spec/20_memory.md R90 to R95), as a function of
the total order (R87). Ordinary memory is not part of the block: its contents are the history of the
writes in the order. A write that the rules make visible to the reader bounds the answer from below;
among the writes not older the answer is free (R95, 93 U12; log 12).
-/

namespace Sys2Proof.Machine

open Sys2Proof

/-- The pieces of block state a step wrote. DESIGN CHOICE: a step of the environment is no write that a
read may observe (log 34), nor is the advance of a core's own `seq` (log 36); the auto-mask of an EVENT
read is one, a write by the reading core (log 40). -/
def Event.writes : Event → List Loc
  | .access _ _ _ ws => ws
  | .report _ _ (.hw i) => [.mask i]
  | .report c _ (.ipi sel) => [.ipiMask c sel]
  | .trapEntry c | .trapReturn c => [.fe c]
  | .fence _ _ | .input _ | .memWrite _ _ _ | .memRead _ _ _ | .handler _ _ _ _ | .handlerEnd _ => []

/-- The pieces of block state whose values a step shows to its core: in the value it returns, in the
handler it begins, in that the trap it begins was admitted (what counts as a read is log 29, log 30). -/
def Event.reads : Event → List Loc
  | .access _ _ rs _ => rs
  | .report _ _ (.hw i) => [.sw i, .mask i, .target i]
  | .report c _ (.ipi sel) => [.ipiPend c sel, .ipiMask c sel]
  | .handler _ dom idx _ => [.bound dom idx]
  | .trapEntry _ => [.armed]
  | .fence _ _ | .input _ | .memWrite _ _ _ | .memRead _ _ _ | .handlerEnd _ | .trapReturn _ => []

/-- Core c wrote block state or ordinary memory in the step. DESIGN CHOICE: a register write that acts on
nothing wrote nothing (log 35); an EVENT read that reports is a write by the reading core, its auto-mask
(40_status_mux R205, R206; log 40). -/
def Event.writtenBy (c : Nat) (e : Event) : Bool :=
  match e with
  | .access b _ _ ws => b == c && !ws.isEmpty
  | .report b _ _ | .trapEntry b | .trapReturn b => b == c
  | .memWrite who _ _ => who == .core c
  | _ => false

/-- Core c read block state or ordinary memory in the step. -/
def Event.readBy (c : Nat) (e : Event) : Bool :=
  match e with
  | .access b _ rs _ => b == c && !rs.isEmpty
  | .report b _ _ => b == c
  | .memRead b _ _ => b == c
  | .handler b _ _ _ => b == c
  | .trapEntry b => b == c
  | _ => false

/-- `p` holds of the entry at position n. -/
def entryAt (tr : List Event) (n : Nat) (p : Event → Bool) : Bool :=
  match tr[n]? with
  | none => false
  | some e => p e

/-- The read at position r observes the write at position x, or, for block state, a value written
after it in the order (20_memory R93). DESIGN CHOICE (log 34): that an ARM step of the environment came
between such a write of arm and the read takes nothing from the observation. -/
def observes (tr : List Event) (x r : Nat) : Bool :=
  entryAt tr r (fun e =>
    match e with
    | .memRead _ _ src => src == some x
    | e =>
      entryAt tr x (fun ex => !ex.writes.isEmpty) &&
        (List.range r).any (fun y =>
          decide (x ≤ y) && entryAt tr y (fun ey => e.reads.any (fun l => ey.writes.contains l))))

/-- Some position in [lo, hi) has p. -/
def somewhere (lo hi : Nat) (p : Nat → Bool) : Bool :=
  (List.range hi).any (fun n => decide (lo ≤ n) && p n)

/-- The pairing rule (20_memory R93): core b wrote memory at w, fenced with W at f, wrote at x; core c
read at r what observes x, and fenced with R at g. -/
def paired (tr : List Event) (b c w : Nat) : Bool :=
  somewhere (w + 1) tr.length (fun f =>
    entryAt tr f (· == .fence b .w) &&
    somewhere (f + 1) tr.length (fun x =>
      entryAt tr x (Event.writtenBy b) &&
      somewhere (x + 1) tr.length (fun r =>
        entryAt tr r (Event.readBy c) && observes tr x r &&
        somewhere (r + 1) tr.length (fun g => entryAt tr g (· == .fence c .r)))))

/-- Device-write visibility (20_memory R94): the device of line i wrote memory at w, raised its level,
and an ordered EVENT read by core c then reported i. DESIGN CHOICE (log 32): every step LEVEL(i, 1)
raises it, also one while level[i] is 1 already. -/
def deviceSeen (tr : List Event) (i c w : Nat) : Bool :=
  somewhere (w + 1) tr.length (fun l =>
    entryAt tr l (· == .input (.level i true)) &&
    somewhere (l + 1) tr.length (fun r => entryAt tr r (· == .report c .ordered (.hw i))))

/-- Core c got the write at w by an earlier read and fenced with R after it (20_memory R92). -/
def reread (tr : List Event) (c w : Nat) : Bool :=
  somewhere (w + 1) tr.length (fun r =>
    entryAt tr r (fun e =>
      match e with
      | .memRead b _ src => b == c && src == some w
      | _ => false) &&
    somewhere (r + 1) tr.length (fun g => entryAt tr g (· == .fence c .r)))

/-- The rules make the memory write at w visible to core c, which runs the handler of `line` (none:
no hardware line's handler). -/
def mustSee (tr : List Event) (c : Nat) (line : Option Nat) (w : Nat) : Bool :=
  match tr[w]? with
  | some (.memWrite (.core b) _ _) => paired tr b c w || reread tr c w
  | some (.memWrite (.device i) _ _) => (line == some i && deviceSeen tr i c w) || reread tr c w
  | _ => false

/-- The entry is a write of ordinary memory at addr. -/
def Event.isMemWriteTo (addr : Nat) (e : Event) : Bool :=
  match e with
  | .memWrite _ a _ => a == addr
  | _ => false

/-- The positions of the writes to addr, oldest first. -/
def memWrites (tr : List Event) (addr : Nat) : List Nat :=
  (List.range tr.length).filter (fun n => entryAt tr n (Event.isMemWriteTo addr))

/-- The writes a read of addr by core c may return, `none` for the initial value (20_memory R93 to R95). -/
def memSources (tr : List Event) (c : Nat) (line : Option Nat) (addr : Nat) : List (Option Nat) :=
  match ((memWrites tr addr).filter (mustSee tr c line)).getLast? with
  | none => none :: (memWrites tr addr).map some
  | some w => ((memWrites tr addr).filter (fun n => decide (w ≤ n))).map some

/-- The byte at addr that the write at a position left, or the initial one (log 13). -/
def memValue (tr : List Event) (addr : Nat) : Option Nat → Byte
  | none => Config.initialByte addr
  | some n =>
    match tr[n]? with
    | some (.memWrite _ _ v) => v
    | _ => Config.initialByte addr

/-- The hardware line whose handler runs on core c. -/
def State.handlerLine (s : State) (c : Nat) : Option Nat :=
  match (s.core c).seq with
  | .running .hw i _ :: _ => some i
  | _ => none

/-- `MemRead(addr, 1)` by core c (20_memory R95; log 23). -/
def State.memRead (s : State) (c addr : Nat) : State :=
  match s.choose (memSources s.trace c (s.handlerLine c) addr) with
  | none => s
  | some (src, s') => (s'.note (.memRead c addr src)).reply c (.byte (memValue s.trace addr src))

/-- `MemWrite(addr, 1, v)` by core c, or a device's write (20_memory R94, R95; log 23). -/
def State.memWrite (s : State) (who : MemAgent) (addr : Nat) (v : Byte) : State :=
  s.note (.memWrite who addr v)

/-- The canonical form of the memory history: every read returned a write to its address that stands
before it in the order, or the initial value. -/
def Memory.wf (tr : List Event) : Bool :=
  (List.range tr.length).all (fun n =>
    match tr[n]? with
    | some (.memRead _ addr (some w)) => decide (w < n) && entryAt tr w (Event.isMemWriteTo addr)
    | _ => true)

end Sys2Proof.Machine
end

