-- ==== Sys2Proof/Machine/Fiq.lean ====
section
/-!
DEFINITION. The meanings of the CPU-local FIQ accesses and of the fast-path domain's composite
operations (spec/43_fiq.md). A composite operation's meaning performs its first control step and
leaves the others in `seq[c]` (log 9).
-/

namespace Sys2Proof.Machine

open Sys2Proof

/-- FIQ_READ_CAUSE (43_fiq R312). DESIGN CHOICE (log 39): it is recorded as a read of arm. -/
def execFiqReadCause (c k : Nat) (s : State) : Out :=
  .next ((s.access c none [.arm c k] []).reply c (.causeState (s.cond c k) (s.arm c k)))

/-- FIQ_WRITE_ARM (43_fiq R313). DESIGN CHOICE (log 39): it is recorded as a write of block state. -/
def execFiqWriteArm (c k : Nat) (v : Bool) (s : State) : Out :=
  .next ((s.access c none [] [.arm c k]).setArm c k v)

/-- The start of an operation on fast-path index d: ERR_RANGE with no state change out of range
(60_exceptions R452), else the operation's steps. -/
def State.onFiq (s : State) (c d : Nat) (steps : List SeqStep) : Out :=
  if d < s.cfg.nrFiq then .next (s.call c steps) else .next (s.reply c (.err .range))

/-- FIQ_MASK (43_fiq R314). -/
def execFiqMask (c d : Nat) (s : State) : Out :=
  s.onFiq c d [.setFiqDisabled d true, .op (.fiqWriteArm c (s.cfg.causeOf d) false), .ret .ok]

/-- FIQ_UNMASK (43_fiq R315). -/
def execFiqUnmask (c d : Nat) (s : State) : Out :=
  s.onFiq c d [.setFiqDisabled d false, .op (.fiqWriteArm c (s.cfg.causeOf d) true), .ret .ok]

/-- FIQ_EOI (43_fiq R316). -/
def execFiqEoi (c d : Nat) (s : State) : Out :=
  s.onFiq c d [.fiqEoiRead d, .fiqEoiTest d, .ret .ok]

/-- FIQ_POLL (43_fiq R317), an operation of a core in state Draining (log 20): each descriptor in list
order is read and tested. -/
def execFiqPoll (c : Nat) (s : State) : Out :=
  if s.draining c then
    .next (s.call c ((List.range s.cfg.causes.length).flatMap
      (fun k => [.op (.fiqReadCause c k), .pollTest k])))
  else .next s

/-- SILENCE (43_fiq R318). -/
def execSilence (c k : Nat) (s : State) : Out :=
  .next (s.call c
    [.op (.fiqWriteArm c k false), .diag .unsupportedFiq (.cause (s.cfg.cause k).name)])

/-- FIQ_DISPATCH of a bound index (43_fiq R319). DESIGN CHOICE (log 33): requested of a bound index whose
cause has not fired, it is performed all the same. Of an index that is not bound it is no step (log 20). -/
def execFiqDispatch (c d : Nat) (s : State) : Out :=
  match s.bound .fiq d with
  | none => .next s
  | some _ =>
    .next ((s.access c none [.bound .fiq d] []).call c
      [.op (.fiqWriteArm c (s.cfg.causeOf d) false), .invoke .fiq d, .op (.fiqEoi c d)])

/-- `fiq_disabled[c][d] <- v`, with its record. -/
def State.setFiqDisabledStep (s : State) (c d : Nat) (v : Bool) : State :=
  (s.access c none [] [.fiqDisabled c d]).setFiqDisabled c d v

/-- `x <- fiq_disabled[c][d]` (43_fiq R316). -/
def State.fiqEoiRead (s : State) (c d : Nat) : State :=
  (s.access c none [.fiqDisabled c d] []).reply c (.bit (s.fiqDisabled c d))

/-- `if x = 0 then FIQ_WRITE_ARM(cause(d), 1)` (43_fiq R316). DESIGN CHOICE (log 38): test and write are
one step. -/
def State.fiqEoiTest (s : State) (c d : Nat) : Out :=
  if (s.core c).ret.toBit then .next s else execFiqWriteArm c (s.cfg.causeOf d) true s

/-- The test of the pair read for cause k: dispatch a bound index, silence every other firing cause
(43_fiq R317). DESIGN CHOICE (log 38): the test of the pair, the read of `bound` and its test are one
step. -/
def State.pollTest (s : State) (c k : Nat) : State :=
  if (s.core c).ret.fired then
    match (s.cfg.cause k).dom with
    | none => s.call c [.op (.silence c k)]
    | some d =>
      (s.access c none [.bound .fiq d] []).call c
        [if (s.bound .fiq d).isSome then .op (.fiqDispatch c d) else .op (.silence c k)]
  else s

end Sys2Proof.Machine
end

