-- ==== Sys2Proof/Machine/Frontend.lean ====
section
/-!
DEFINITION. The meanings of the dispatch front-end and of configuration (spec/45_frontend_config.md),
and of initialisation and per-core bring-up (70_reset_and_hazards.md R503, R505). A composite
operation's meaning performs its first control step and leaves the others in `seq[c]` (log 9).
-/

namespace Sys2Proof.Machine

open Sys2Proof

/-- TRAP (45_frontend_config R390). -/
def execTrap (c : Nat) (s : State) : Out := .next (s.takeTrap c)

/-- DRAIN (45_frontend_config R391), an operation of a core in state Draining (log 20). -/
def execDrain (c : Nat) (s : State) : Out :=
  if s.draining c then .next (s.call c [.op (.readEvent c .ordered), .drainTest]) else .next s

/-- CLASSIFY (45_frontend_config R392). -/
def execClassify (c : Nat) (e : Word) (s : State) : Out :=
  if eventType e = s.cfg.evTypeHw ∧ (eventIndex e).toNat < s.cfg.nrHw then
    .next (s.call c [.op (.hwDispatch c (eventIndex e).toNat)])
  else if eventType e = s.cfg.evTypeIpi ∧ eventIndex e = s.cfg.evIpiOther then
    .next (s.call c [.op (.vipiReceive c)])
  else .next (s.call c [.diag .unknownEvent (.event e)])

/-- RESOLVE (45_frontend_config R400): the flags are stored for the line and not interpreted
(30_encoding R122). DESIGN CHOICE (log 28): where they stand, and that the storing is a write of block
state. -/
def execResolve (c kind index : Nat) (flags : Word) (s : State) : Out :=
  match s.cfg.domOfKind kind with
  | none => .next (s.reply c (.err .config))
  | some dom =>
    if index < s.cfg.domSize dom then
      .next (((s.access c none [] [.flags dom index]).setFlags dom index flags).reply c
        (.line dom index))
    else .next (s.reply c (.err .config))

/-- BIND (45_frontend_config R405). -/
def execBind (c : Nat) (dom : Dom) (idx h : Nat) (s : State) : Out :=
  .next ((s.access c none [] [.bound dom idx]).setBound dom idx h)

/-- INIT (70_reset_and_hazards R503): ERR_CONFIG where the platform reports the window absent (92 D42),
else the INFO read and what follows it. -/
def execInit (c : Nat) (s : State) : Out :=
  if s.cfg.windowPresent then .next (s.call c [.op (.readInfo c .relaxed), .initLoops])
  else .next (s.reply c (.err .config))

/-- The steps CPU_ONLINE performs for descriptor k (70_reset_and_hazards R505). -/
def onlineCause (cfg : Config) (c k : Nat) : List SeqStep :=
  .op (.fiqWriteArm c k false) ::
    match (cfg.cause k).dom with
    | none => []
    | some d => [.setFiqDisabled d true]

/-- CPU_ONLINE (70_reset_and_hazards R505). -/
def execCpuOnline (c : Nat) (s : State) : Out :=
  .next (s.call c ((List.range s.cfg.causes.length).flatMap (onlineCause s.cfg c) ++
    [.op (.writeIpiMaskSet c .relaxed (s.cfg.otherBit ||| s.cfg.selfBit)),
     .op (.readWhoami c .relaxed), .onlineTest, .ret .ok]))

/-- `if e = 0 then exit loop`, else CLASSIFY(e) and the next EVENT read (45_frontend_config R391). -/
def State.drainTest (s : State) (c : Nat) : State :=
  if (s.core c).ret.toWord = 0 then s
  else s.call c
    [.op (.classify c (s.core c).ret.toWord), .op (.readEvent c .ordered), .drainTest]

/-- The steps of INIT's loops over n_hw lines (70_reset_and_hazards R503). -/
def initSteps (c nHw : Nat) (deflt : Word) : List SeqStep :=
  (List.range ((nHw + 31) / 32)).flatMap
      (fun n => [.op (.writeSwClr c .relaxed n 0xFFFFFFFF), .op (.writeMaskSet c .relaxed n 0xFFFFFFFF)]) ++
    (List.range nHw).flatMap
      (fun i => [.op (.writeTarget c .relaxed i deflt), .setHwDisabled i true])

/-- INIT after the INFO read: n_hw is bits [15:0] of what was read. DESIGN CHOICE (log 38): the loops over
it are unrolled in one step. -/
def State.initLoops (s : State) (c : Nat) : State :=
  s.call c (initSteps c (lineCount (s.core c).ret.toWord) s.cfg.defaultTarget ++
    [.setArmed, .ret .ok])

/-- `armed <- 1`. -/
def State.setArmed (s : State) (c : Nat) : State :=
  s.withArmed.access c none [] [.armed]

/-- `if id ≠ c then Diag(TOPOLOGY, (c, id))` (70_reset_and_hazards R505). -/
def State.onlineTest (s : State) (c : Nat) : State :=
  if (s.core c).ret.toWord.toNat = c then s
  else s.call c [.diag .topology (.ids c (s.core c).ret.toWord)]

end Sys2Proof.Machine
end

