-- ==== Sys2Proof/Machine/HwLines.lean ====
section
/-!
DEFINITION. The meanings of the hardware-line registers and of the composite operations of the
hardware IRQ domain (spec/41_hw_lines.md). A composite operation's meaning performs its first control
step and leaves the others in `seq[c]` (10_state.md R47, R66; log 9).
-/

namespace Sys2Proof.Machine

open Sys2Proof

/-- WRITE_MASK_SET (41_hw_lines R243). -/
def execWriteMaskSet (c : Nat) (k : AccessKind) (n : Nat) (v : Word) (s : State) : Out :=
  .next (s.writeBank c k n v .mask (fun l => { l with mask := true }))

/-- WRITE_MASK_CLR (41_hw_lines R244). -/
def execWriteMaskClr (c : Nat) (k : AccessKind) (n : Nat) (v : Word) (s : State) : Out :=
  .next (s.writeBank c k n v .mask (fun l => { l with mask := false }))

/-- WRITE_SW_SET (41_hw_lines R245). -/
def execWriteSwSet (c : Nat) (k : AccessKind) (n : Nat) (v : Word) (s : State) : Out :=
  .next (s.writeBank c k n v .sw (fun l => { l with sw := true }))

/-- WRITE_SW_CLR (41_hw_lines R246). -/
def execWriteSwClr (c : Nat) (k : AccessKind) (n : Nat) (v : Word) (s : State) : Out :=
  .next (s.writeBank c k n v .sw (fun l => { l with sw := false }))

/-- READ_TARGET (41_hw_lines R248). -/
def execReadTarget (c : Nat) (k : AccessKind) (i : Nat) (s : State) : Out :=
  .next ((s.access c (some k) [.target i] []).reply c (.word (s.line i).target))

/-- WRITE_TARGET (41_hw_lines R249). -/
def execWriteTarget (c : Nat) (k : AccessKind) (i : Nat) (v : Word) (s : State) : Out :=
  .next ((s.access c (some k) [] [.target i]).updLine i (fun l => { l with target := v }))

/-- The start of an operation on line i: ERR_RANGE with no state change for a line that is not there
(60_exceptions R452), else the operation's steps. -/
def State.onLine (s : State) (c i : Nat) (steps : List SeqStep) : Out :=
  if i < s.cfg.nrHw then .next (s.call c steps) else .next (s.reply c (.err .range))

/-- HW_DISABLE (41_hw_lines R255). -/
def execHwDisable (c i : Nat) (s : State) : Out :=
  s.onLine c i
    [.setHwDisabled i true, .op (.writeMaskSet c .relaxed (bankOf i) (bitOf i)), .ret .ok]

/-- HW_ENABLE (41_hw_lines R256). -/
def execHwEnable (c i : Nat) (s : State) : Out :=
  s.onLine c i
    [.setHwDisabled i false, .op (.writeMaskClr c .relaxed (bankOf i) (bitOf i)), .ret .ok]

/-- HW_EOI (41_hw_lines R257). -/
def execHwEoi (c i : Nat) (s : State) : Out :=
  s.onLine c i [.hwEoiRead i, .hwEoiTest i, .ret .ok]

/-- HW_SET_AFFINITY (41_hw_lines R258). -/
def execHwSetAffinity (c i : Nat) (m : Word) (s : State) : Out := s.onLine c i [.affLock i m]

/-- HW_DISPATCH (41_hw_lines R259), an operation of a core in state Draining (log 20). DESIGN CHOICE (log
38): the read of `bound` and its test are one step. -/
def execHwDispatch (c i : Nat) (s : State) : Out :=
  if s.draining c then
    match s.bound .hw i with
    | none => .next ((s.access c none [.bound .hw i] []).call c [.diag .unboundLine (.line .hw i)])
    | some _ =>
      .next ((s.access c none [.bound .hw i] []).call c [.invoke .hw i, .op (.hwEoi c i)])
  else .next s

/-- `hw_disabled[i] <- v` by core c. -/
def State.setHwDisabled (s : State) (c i : Nat) (v : Bool) : State :=
  (s.access c none [] [.hwDisabled i]).updLine i (fun l => { l with hwDisabled := v })

/-- `d <- hw_disabled[i]` (41_hw_lines R257). -/
def State.hwEoiRead (s : State) (c i : Nat) : State :=
  (s.access c none [.hwDisabled i] []).reply c (.bit (s.line i).hwDisabled)

/-- `if d = 0 then wr MASK_CLR[bank(i)], bit(i)`, one step (41_hw_lines R257). -/
def State.hwEoiTest (s : State) (c i : Nat) : Out :=
  if (s.core c).ret.toBit then .next s
  else execWriteMaskClr c .relaxed (bankOf i) (bitOf i) s

/-- `wait until aff_lock = free; aff_lock <- held(c)`, one step, enabled only when free
(41_hw_lines R258): while it is held the core stays where it is (log 8). -/
def State.affLockStep (s : State) (c i : Nat) (m : Word) : State :=
  match s.affLock with
  | none => ((s.withAffLock (some c)).access c none [.affLock] [.affLock]).call c [.affChoose i m]
  | some _ => s.call c [.affLock i m]

/-- The cores `S = { t | t < MAX_CORES, m[t] = 1, online(t) }` (41_hw_lines R258). -/
def Config.onlineOf (cfg : Config) (m : Word) : List Nat :=
  (setBits cfg.maxCores m).filter cfg.isOnline

/-- The test of S, the choice of t and what follows (41_hw_lines R258, 92 D32). DESIGN CHOICE (log 38):
test and choice are one step. -/
def State.affChooseStep (s : State) (c i : Nat) (m : Word) : State :=
  match s.choose (Config.onlineOf s.cfg m) with
  | none => s.call c [.affUnlock, .ret (.err .affinity)]
  | some (t, s') => s'.call c [.op (.writeTarget c .relaxed i (oneBit t)), .affUnlock, .ret (.core t)]

/-- `aff_lock <- free`. -/
def State.affUnlockStep (s : State) (c : Nat) : State :=
  (s.withAffLock none).access c none [] [.affLock]

end Sys2Proof.Machine
end

