-- ==== Sys2Proof/Machine/Registers.lean ====
section
/-!
DEFINITION. The meanings of the status-mux, identity and information registers (spec/40_status_mux.md)
and of the reads of the write-action registers (30_encoding.md R127).
-/

namespace Sys2Proof.Machine

open Sys2Proof

/-- READ_INFO (40_status_mux R211). -/
def execReadInfo (c : Nat) (k : AccessKind) (s : State) : Out :=
  .next ((s.access c (some k) [] []).reply c (.word s.cfg.info))

/-- WRITE_INFO: refused (40_status_mux R212). -/
def execWriteInfo (_c : Nat) (_k : AccessKind) (_v : Word) (s : State) : Out :=
  .next (s.refuse .writeReadOnly)

/-- READ_WHOAMI (40_status_mux R213). -/
def execReadWhoami (c : Nat) (k : AccessKind) (s : State) : Out :=
  .next ((s.access c (some k) [] []).reply c (.word (s.cfg.hwidOf c)))

/-- WRITE_WHOAMI: refused (40_status_mux R214). -/
def execWriteWhoami (_c : Nat) (_k : AccessKind) (_v : Word) (s : State) : Out :=
  .next (s.refuse .writeReadOnly)

/-- READ_EVENT (40_status_mux R203). -/
def execReadEvent (c : Nat) (k : AccessKind) (s : State) : Out :=
  .next ((s.readEvent c k).2.reply c (.word (s.readEvent c k).1))

/-- WRITE_EVENT: refused (40_status_mux R210). -/
def execWriteEvent (_c : Nat) (_k : AccessKind) (_v : Word) (s : State) : Out :=
  .next (s.refuse .writeReadOnly)

/-- READ_IPI_SEND (42_physical_ipi R287). -/
def execReadIpiSend (c : Nat) (k : AccessKind) (s : State) : Out := .next (s.readDrawn c k)

/-- READ_IPI_ACK (42_physical_ipi R287). -/
def execReadIpiAck (c : Nat) (k : AccessKind) (s : State) : Out := .next (s.readDrawn c k)

/-- READ_IPI_MASK_SET (42_physical_ipi R287). -/
def execReadIpiMaskSet (c : Nat) (k : AccessKind) (s : State) : Out := .next (s.readDrawn c k)

/-- READ_IPI_MASK_CLR (42_physical_ipi R287). -/
def execReadIpiMaskClr (c : Nat) (k : AccessKind) (s : State) : Out := .next (s.readDrawn c k)

/-- READ_SW_SET (41_hw_lines R247). -/
def execReadSwSet (c : Nat) (k : AccessKind) (_n : Nat) (s : State) : Out := .next (s.readDrawn c k)

/-- READ_SW_CLR (41_hw_lines R247). -/
def execReadSwClr (c : Nat) (k : AccessKind) (_n : Nat) (s : State) : Out := .next (s.readDrawn c k)

/-- READ_MASK_SET (41_hw_lines R247). -/
def execReadMaskSet (c : Nat) (k : AccessKind) (_n : Nat) (s : State) : Out := .next (s.readDrawn c k)

/-- READ_MASK_CLR (41_hw_lines R247). -/
def execReadMaskClr (c : Nat) (k : AccessKind) (_n : Nat) (s : State) : Out := .next (s.readDrawn c k)

end Sys2Proof.Machine
end

