-- ==== Sys2Proof/Machine/PhysicalIpi.lean ====
section
/-!
DEFINITION. The meanings of the writes to the physical IPI unit's registers (spec/42_physical_ipi.md).
-/

namespace Sys2Proof.Machine

open Sys2Proof

/-- WRITE_IPI_SEND (42_physical_ipi R281, R282). -/
def execWriteIpiSend (c : Nat) (k : AccessKind) (v : Word) (s : State) : Out :=
  if s.cfg.badDestination v then .next (s.refuse .reservedBit)
  else
    .next
      ((s.access c (some k) [] ((setBits s.cfg.maxCores v).map (fun t => Loc.ipiPend t .other))).updCores
        (fun t st =>
          if v.getLsbD t then { st with ipiPend := { st.ipiPend with other := true } } else st))

/-- WRITE_IPI_ACK (42_physical_ipi R283, R284). -/
def execWriteIpiAck (c : Nat) (k : AccessKind) (v : Word) (s : State) : Out :=
  .next (s.writeSelector c k v (.ipiPend c)
    (fun t => t.setIpiPend c ((s.core c).ipiPend.assign (s.cfg.selects v) false)))

/-- WRITE_IPI_MASK_SET (42_physical_ipi R285, R284). -/
def execWriteIpiMaskSet (c : Nat) (k : AccessKind) (v : Word) (s : State) : Out :=
  .next (s.writeSelector c k v (.ipiMask c)
    (fun t => t.setIpiMask c ((s.core c).ipiMask.assign (s.cfg.selects v) true)))

/-- WRITE_IPI_MASK_CLR (42_physical_ipi R286, R284). -/
def execWriteIpiMaskClr (c : Nat) (k : AccessKind) (v : Word) (s : State) : Out :=
  .next (s.writeSelector c k v (.ipiMask c)
    (fun t => t.setIpiMask c ((s.core c).ipiMask.assign (s.cfg.selects v) false)))

end Sys2Proof.Machine
end

