-- ==== Sys2Proof/Machine/Vipi.lean ====
section
/-!
DEFINITION. The meanings of the vIPI arbiter's ports, of the fences, and of the vIPI domain's composite
operations (spec/44_vipi_arbiter.md, 20_memory.md R90). A composite operation's meaning performs its
first control step and leaves the others in `seq[c]` (log 9).
-/

namespace Sys2Proof.Machine

open Sys2Proof

/-- VIPI_EN_READ (44_vipi_arbiter R352). -/
def execVipiEnRead (c t : Nat) (s : State) : Out :=
  .next ((s.access c none [.enabled t] []).reply c (.word (s.core t).enabled))

/-- VIPI_EN_OR (44_vipi_arbiter R353). DESIGN CHOICE (log 29): it returns no value, so it is recorded
as no read. -/
def execVipiEnOr (c t : Nat) (m : Word) (s : State) : Out :=
  .next ((s.access c none [] [.enabled t]).setEnabled t ((s.core t).enabled ||| m))

/-- VIPI_EN_ANDN (44_vipi_arbiter R354): it returns the new value. -/
def execVipiEnAndn (c t : Nat) (m : Word) (s : State) : Out :=
  .next (((s.access c none [.enabled t] [.enabled t]).setEnabled t ((s.core t).enabled &&& ~~~m)).reply
    c (.word ((s.core t).enabled &&& ~~~m)))

/-- VIPI_PEND_OR (44_vipi_arbiter R355): it never fails, and ors m into a field whose bits at or above
NR_VIPI are always 0 (10_state R41). DEDUCED (log 19): such a bit of m has no effect. DESIGN CHOICE (log
29): the port returns no value, so it is recorded as no read. -/
def execVipiPendOr (c t : Nat) (m : Word) (s : State) : Out :=
  .next ((s.access c none [] [.pending t]).setPending t ((s.core t).pending ||| s.cfg.vipiBits m))

/-- VIPI_PEND_XCHG0 (44_vipi_arbiter R356). -/
def execVipiPendXchg0 (c t : Nat) (s : State) : Out :=
  .next (((s.access c none [.pending t] [.pending t]).setPending t 0).reply c
    (.word (s.core t).pending))

/-- FENCE_W: recorded, no effect on the block's state (20_memory R90, R91). -/
def execFenceW (c : Nat) (s : State) : Out := .next (s.note (.fence c .w))

/-- FENCE_R: recorded, no effect on the block's state (20_memory R90, R92). -/
def execFenceR (c : Nat) (s : State) : Out := .next (s.note (.fence c .r))

/-- VIPI_SEND (44_vipi_arbiter R360): the index test, then step 1 and the loop. DESIGN CHOICE (log 38):
`kick <- 0` is in the step of the index test. -/
def execVipiSend (c v : Nat) (dests : Word) (s : State) : Out :=
  if v < s.cfg.nrVipi then .next (s.call c [.op (.fenceW c), .sendNext v dests 0])
  else .next (s.refuse .badVipiIndex)

/-- VIPI_RECEIVE (44_vipi_arbiter R362), an operation of a core in state Draining (log 20): steps 1
to 3; the exchanged value is taken by the step after. -/
def execVipiReceive (c : Nat) (s : State) : Out :=
  if s.draining c then
    .next (s.call c [.op (.writeIpiAck c .relaxed s.cfg.otherBit), .op (.fenceR c),
      .op (.vipiPendXchg0 c c), .recvTake])
  else .next s

/-- The start of an operation on vIPI index v: ERR_RANGE with no state change out of range
(60_exceptions R452), else the operation's steps. -/
def State.onVipi (s : State) (c v : Nat) (steps : List SeqStep) : Out :=
  if v < s.cfg.nrVipi then .next (s.call c steps) else .next (s.reply c (.err .range))

/-- VIPI_MASK (44_vipi_arbiter R364). -/
def execVipiMask (c v : Nat) (s : State) : Out :=
  s.onVipi c v [.op (.vipiEnAndn c c (oneBit v)), .vipiMaskTest, .ret .ok]

/-- VIPI_UNMASK (44_vipi_arbiter R366). -/
def execVipiUnmask (c v : Nat) (s : State) : Out :=
  s.onVipi c v
    [.op (.vipiEnOr c c (oneBit v)), .op (.writeIpiMaskClr c .relaxed s.cfg.otherBit), .ret .ok]

/-- The head of the loop over D (44_vipi_arbiter R360 step 2; any order, 92 D15): read `enabled` of
one of the cores left, or go on to step 3. -/
def State.sendNext (s : State) (c v : Nat) (rest kick : Word) : State :=
  match s.choose (setBits s.cfg.maxCores rest) with
  | none => s.call c [.op (.fenceW c), .sendKick kick]
  | some (t, s') => s'.call c [.op (.vipiEnRead c t), .sendTest v t (clearBit rest t) kick]

/-- `if e[v] = 1` for destination t: signal it and kick it, or drop the send for it
(44_vipi_arbiter R360 step 2). DESIGN CHOICE (log 38): `kick <- kick | (1 << t)` is in the step of the
test. -/
def State.sendTest (s : State) (c v t : Nat) (rest kick : Word) : State :=
  if (s.core c).ret.toWord.getLsbD v then
    s.call c [.op (.vipiPendOr c t (oneBit v)), .sendNext v rest (kick ||| oneBit t)]
  else s.call c [.sendNext v rest kick]

/-- `if kick ≠ 0 then wr IPI_SEND, kick` (44_vipi_arbiter R360). -/
def State.sendKick (s : State) (c : Nat) (kick : Word) : Out :=
  if kick = 0 then .next s else execWriteIpiSend c .relaxed kick s

/-- The steps after the exchange (44_vipi_arbiter R362 steps 4 to 6): the bits of f in ascending order
(92 D16). -/
def State.recvTake (s : State) (c : Nat) : State :=
  s.call c (.op (.fenceR c) :: (setBits 32 (s.core c).ret.toWord).map SeqStep.recvBit ++
    [.op (.writeIpiMaskClr c .relaxed s.cfg.otherBit)])

/-- The dispatch of bit b (44_vipi_arbiter R362 step 5). DESIGN CHOICE (log 38): the read of `bound` and its
test are one step. -/
def State.recvBit (s : State) (c b : Nat) : State :=
  (s.access c none [.bound .ipi b] []).call c
    [if (s.bound .ipi b).isSome then .invoke .ipi b else .diag .unboundLine (.line .ipi b)]

/-- `if r = 0 then wr IPI_MASK_SET, 1 << IPI_OTHER_BIT` (44_vipi_arbiter R364). DESIGN CHOICE (log 38):
test and write are one step. -/
def State.vipiMaskTest (s : State) (c : Nat) : Out :=
  if (s.core c).ret.toWord = 0 then execWriteIpiMaskSet c .relaxed s.cfg.otherBit s else .next s

end Sys2Proof.Machine
end

