-- ==== Sys2Proof/Machine/Dispatch.lean ====
section
/-!
DEFINITION. The meaning of an operation, one arm per row of spec/opcode_table.json.
-/

namespace Sys2Proof.Machine

open Sys2Proof

def exec (i : Instr) (s : State) : Host.Outcome State Fault Refusal :=
  match i with
  | .readInfo c k => Sys2Proof.Machine.execReadInfo c k s
  | .writeInfo c k v => Sys2Proof.Machine.execWriteInfo c k v s
  | .readWhoami c k => Sys2Proof.Machine.execReadWhoami c k s
  | .writeWhoami c k v => Sys2Proof.Machine.execWriteWhoami c k v s
  | .readEvent c k => Sys2Proof.Machine.execReadEvent c k s
  | .writeEvent c k v => Sys2Proof.Machine.execWriteEvent c k v s
  | .writeIpiSend c k v => Sys2Proof.Machine.execWriteIpiSend c k v s
  | .readIpiSend c k => Sys2Proof.Machine.execReadIpiSend c k s
  | .writeIpiAck c k v => Sys2Proof.Machine.execWriteIpiAck c k v s
  | .readIpiAck c k => Sys2Proof.Machine.execReadIpiAck c k s
  | .writeIpiMaskSet c k v => Sys2Proof.Machine.execWriteIpiMaskSet c k v s
  | .readIpiMaskSet c k => Sys2Proof.Machine.execReadIpiMaskSet c k s
  | .writeIpiMaskClr c k v => Sys2Proof.Machine.execWriteIpiMaskClr c k v s
  | .readIpiMaskClr c k => Sys2Proof.Machine.execReadIpiMaskClr c k s
  | .readTarget c k j => Sys2Proof.Machine.execReadTarget c k j s
  | .writeTarget c k j v => Sys2Proof.Machine.execWriteTarget c k j v s
  | .writeSwSet c k n v => Sys2Proof.Machine.execWriteSwSet c k n v s
  | .readSwSet c k n => Sys2Proof.Machine.execReadSwSet c k n s
  | .writeSwClr c k n v => Sys2Proof.Machine.execWriteSwClr c k n v s
  | .readSwClr c k n => Sys2Proof.Machine.execReadSwClr c k n s
  | .writeMaskSet c k n v => Sys2Proof.Machine.execWriteMaskSet c k n v s
  | .readMaskSet c k n => Sys2Proof.Machine.execReadMaskSet c k n s
  | .writeMaskClr c k n v => Sys2Proof.Machine.execWriteMaskClr c k n v s
  | .readMaskClr c k n => Sys2Proof.Machine.execReadMaskClr c k n s
  | .vipiEnRead c t => Sys2Proof.Machine.execVipiEnRead c t s
  | .vipiEnOr c t m => Sys2Proof.Machine.execVipiEnOr c t m s
  | .vipiEnAndn c t m => Sys2Proof.Machine.execVipiEnAndn c t m s
  | .vipiPendOr c t m => Sys2Proof.Machine.execVipiPendOr c t m s
  | .vipiPendXchg0 c t => Sys2Proof.Machine.execVipiPendXchg0 c t s
  | .fiqReadCause c k => Sys2Proof.Machine.execFiqReadCause c k s
  | .fiqWriteArm c k v => Sys2Proof.Machine.execFiqWriteArm c k v s
  | .fenceW c => Sys2Proof.Machine.execFenceW c s
  | .fenceR c => Sys2Proof.Machine.execFenceR c s
  | .hwDisable c j => Sys2Proof.Machine.execHwDisable c j s
  | .hwEnable c j => Sys2Proof.Machine.execHwEnable c j s
  | .hwEoi c j => Sys2Proof.Machine.execHwEoi c j s
  | .hwSetAffinity c j m => Sys2Proof.Machine.execHwSetAffinity c j m s
  | .hwDispatch c j => Sys2Proof.Machine.execHwDispatch c j s
  | .fiqMask c d => Sys2Proof.Machine.execFiqMask c d s
  | .fiqUnmask c d => Sys2Proof.Machine.execFiqUnmask c d s
  | .fiqEoi c d => Sys2Proof.Machine.execFiqEoi c d s
  | .fiqPoll c => Sys2Proof.Machine.execFiqPoll c s
  | .silence c k => Sys2Proof.Machine.execSilence c k s
  | .fiqDispatch c d => Sys2Proof.Machine.execFiqDispatch c d s
  | .vipiSend c v dests => Sys2Proof.Machine.execVipiSend c v dests s
  | .vipiReceive c => Sys2Proof.Machine.execVipiReceive c s
  | .vipiMask c v => Sys2Proof.Machine.execVipiMask c v s
  | .vipiUnmask c v => Sys2Proof.Machine.execVipiUnmask c v s
  | .trap c => Sys2Proof.Machine.execTrap c s
  | .drain c => Sys2Proof.Machine.execDrain c s
  | .classify c e => Sys2Proof.Machine.execClassify c e s
  | .resolve c kind index flags => Sys2Proof.Machine.execResolve c kind index flags s
  | .bind c d idx h => Sys2Proof.Machine.execBind c d idx h s
  | .init c => Sys2Proof.Machine.execInit c s
  | .cpuOnline c => Sys2Proof.Machine.execCpuOnline c s

end Sys2Proof.Machine
end

