-- ==== Sys2Proof/Machine/Sequence.lean ====
section
/-!
DEFINITION. The steps of a composite operation (spec/10_state.md R47, R66): what core c does when it
performs the next step of `seq[c]`, and handler invocation and return (00_scope.md R6, R15).
-/

namespace Sys2Proof.Machine

open Sys2Proof

/-- `Handler(dom, idx)` begins: the bound handler runs, and the core's software acts until it returns. -/
def State.invoke (s : State) (c : Nat) (dom : Dom) (idx : Nat) : State :=
  match s.bound dom idx with
  | none => s
  | some h => (s.note (.handler c dom idx h)).call c [.running dom idx h]

/-- Core c performs the step m, which is off `seq[c]` already. -/
def seqStep (c : Nat) (m : SeqStep) (s : State) : Out :=
  match m with
  | .op i => exec i s
  | .ret r => .next (s.reply c r)
  | .setHwDisabled i v => .next (s.setHwDisabled c i v)
  | .hwEoiRead i => .next (s.hwEoiRead c i)
  | .hwEoiTest i => s.hwEoiTest c i
  | .affLock i m => .next (s.affLockStep c i m)
  | .affChoose i m => .next (s.affChooseStep c i m)
  | .affUnlock => .next (s.affUnlockStep c)
  | .invoke dom idx => .next (s.invoke c dom idx)
  | .running _ _ _ => .next (s.note (.handlerEnd c))
  | .setFiqDisabled d v => .next (s.setFiqDisabledStep c d v)
  | .fiqEoiRead d => .next (s.fiqEoiRead c d)
  | .fiqEoiTest d => s.fiqEoiTest c d
  | .pollTest k => .next (s.pollTest c k)
  | .diag code info => .next (s.addDiag c code info)
  | .sendNext v rest kick => .next (s.sendNext c v rest kick)
  | .sendTest v t rest kick => .next (s.sendTest c v t rest kick)
  | .sendKick kick => s.sendKick c kick
  | .recvTake => .next (s.recvTake c)
  | .recvBit b => .next (s.recvBit c b)
  | .vipiMaskTest => s.vipiMaskTest c
  | .drainTest => .next (s.drainTest c)
  | .trapExit => .next (s.trapReturn c)
  | .initLoops => .next (s.initLoops c)
  | .setArmed => .next (s.setArmed c)
  | .onlineTest => .next (s.onlineTest c)

/-- Core c performs the next step of its composite operation; the step `running` is the return of the
handler. A core with no operation has no such step (log 8). -/
def advance (c : Nat) (s : State) : Out :=
  match (s.core c).seq with
  | [] => .next s
  | m :: rest => seqStep c m (s.setSeq c rest)

end Sys2Proof.Machine
end

