-- ==== Sys2Proof/Machine/Moves.lean ====
section
/-!
DEFINITION. What each agent does when it moves (spec/10_state.md R60 to R62, R66): a core goes on with
its composite operation, takes an interrupt, or performs what its software asks for next; the
environment changes an input. A move that the spec says does not exist changes nothing (log 8).
-/

namespace Sys2Proof.Machine

open Sys2Proof

/-- Core c requests the operation of a packet. The two refused kinds of access that decoding finds set
the mark (20_memory R81, R82, 30_encoding R126); a packet that is no operation has no meaning (log 1). -/
def runPacket (c : Nat) (p : Packet) (s : State) : Out :=
  match decode s.cfg c p with
  | .ok i => exec i s
  | .reject .unmappedOffset => .next (s.refuse .unmappedOffset)
  | .reject .badWidthOrAlignment => .next (s.refuse .badWidthOrAlignment)
  | .reject e => .refused (.undecodable e)

/-- Core c performs the request r of its software. -/
def request (c : Nat) (r : Request) (s : State) : Out :=
  match r with
  | .packet p => runPacket c p s
  | .memRead addr => .next (s.memRead c addr)
  | .memWrite addr v => .next (s.memWrite (.core c) addr v)
  | .handlerReturn => advance c s

/-- Core c takes the next request of its software; with none left, a running handler returns, and an
idle core does nothing (log 16). -/
def fetch (c : Nat) (s : State) : Out :=
  match (s.core c).queue with
  | [] => advance c s
  | r :: rest => request c r (s.setQueue c rest)

/-- Core c moves: an idle core takes the interrupt that is due (log 14) or its software's next request;
a core in a handler performs its software's next request; any other core goes on with its composite
operation. -/
def coreMove (c : Nat) (s : State) : Out :=
  if c < s.cfg.maxCores then
    match (s.core c).seq with
    | [] => if s.trapDue c then .next (s.takeTrap c) else fetch c s
    | .running _ _ _ :: _ => fetch c s
    | _ => advance c s
  else .next s

/-- LEVEL(i, v) (10_state R60). -/
def State.levelInput (s : State) (i : Nat) (v : Bool) : State :=
  if i < s.cfg.nrHw then
    (s.note (.input (.level i v))).updLine i (fun l => { l with level := v })
  else s

/-- COND(c, k, v) (10_state R61). -/
def State.condInput (s : State) (c k : Nat) (v : Bool) : State :=
  if c < s.cfg.maxCores ∧ k < s.cfg.causes.length then
    (s.note (.input (.cond c k v))).updCore c (fun st => { st with cond := st.cond.set k v })
  else s

/-- ARM(c, k, v), for a SOURCE cause; for an ENABLE_BIT cause the step does not exist (10_state R62). -/
def State.armInput (s : State) (c k : Nat) (v : Bool) : State :=
  if c < s.cfg.maxCores ∧ k < s.cfg.causes.length ∧ (s.cfg.cause k).mkind = .source then
    (s.note (.input (.arm c k v))).setArm c k v
  else s

/-- core_accepts(c) becomes v (45_frontend_config R395). -/
def State.acceptInput (s : State) (c : Nat) (v : Bool) : State :=
  if c < s.cfg.maxCores then
    (s.note (.input (.accept c v))).updCore c (fun st => { st with accepts := v })
  else s

/-- The mover m moves. -/
def move (m : Mover) (s : State) : Out :=
  match m with
  | .core c => coreMove c s
  | .level i v => .next (s.levelInput i v)
  | .cond c k v => .next (s.condInput c k v)
  | .arm c k v => .next (s.armInput c k v)
  | .accept c v => .next (s.acceptInput c v)
  | .devWrite i addr v => if i < s.cfg.nrHw then .next (s.memWrite (.device i) addr v) else .next s

/-- Core c is able to take a request of its software. -/
def State.receptive (s : State) (c : Nat) : Bool :=
  match (s.core c).seq with
  | [] => true
  | .running _ _ _ :: _ => true
  | _ => false

/-- s, where the very next move is core c's and performs the request r. -/
def State.withRequest (s : State) (c : Nat) (r : Request) : State :=
  { (s.updCore c (fun k =>
      { k with
        queue := r :: k.queue, accepts := false, seq := if s.receptive c then k.seq else [] })) with
    refused := none
    sched := .core c :: s.sched }

end Sys2Proof.Machine
end

