-- ==== Sys2Proof/Machine/Step.lean ====
section
/-!
DEFINITION. One step of the machine (spec/10_state.md R66): one agent moves. Which one is the next of
the input `sched`, and where that is empty a free value (log 7).
-/

namespace Sys2Proof.Machine

open Sys2Proof

/-- One step. A state whose `refused` mark is set has no successor (10_state R59). -/
def step (s : State) : Host.Outcome State Fault Refusal :=
  match s.refused with
  | some r => .fault (.runRefused r)
  | none =>
    match s.sched with
    | m :: rest => move m (s.withSched rest)
    | [] => move (Config.freeMover s.draws) (s.withDraws (s.draws + 1))

/-- s with the operation whose packet is the number w of nbits bits as the boot core's next request,
and the boot core as the next to move (log 2). -/
def State.withFetchWord (s : State) (nbits w : Nat) : State :=
  s.withRequest s.cfg.bootCore (.packet (packetOfNat (w % 2 ^ nbits)))

end Sys2Proof.Machine
end

