-- ==== Sys2Proof/Safety.lean ====
section
/-!
DEFINITION. The terms in which claims are stated: a core's operation performed alone, the invariants
of the state, the frame of a step, and the fairness assumption of spec/45_frontend_config.md R395.
-/

namespace Sys2Proof

/-- k is the number of the descriptor of FIQ_CAUSES whose dom is d. -/
def Config.IsCauseOf (cfg : Config) (k d : Nat) : Prop :=
  k < cfg.causes.length ∧ (cfg.cause k).dom = some d

end Sys2Proof

namespace Sys2Proof.Machine

open Sys2Proof

/-- Core c performs n steps of its composite operation and no other agent moves between them. -/
def alone (c : Nat) : Nat → State → Out
  | 0, s => .next s
  | n + 1, s =>
    match advance c s with
    | .next t => alone c n t
    | .fault r => .fault r
    | .refused r => .refused r

/-- The operation i is performed and ends, no other agent moving meanwhile, in a state of which P holds:
its meaning answers a next state, and so do the n steps it leaves its core to perform. -/
def Completes (i : Instr) (n : Nat) (s : State) (P : State → Prop) : Prop :=
  ∃ t₀, exec i s = .next t₀ ∧ ∃ t, alone i.core n t₀ = .next t ∧ P t

/-- Core c is the next to move and r is the next request of its software; s' is s with both taken off
their lists. -/
def State.AboutTo (s : State) (c : Nat) (r : Request) (s' : State) : Prop :=
  s.refused = none ∧ c < s.cfg.maxCores ∧ s.receptive c = true ∧ s.trapDue c = false ∧
  ∃ movers rest, s.sched = .core c :: movers ∧ (s.core c).queue = r :: rest ∧
    s' = ({ s with sched := movers }).updCore c (fun k => { k with queue := rest })

/-- The lists of core k have the sizes the parameters give. -/
abbrev CoreState.Shaped (cfg : Config) (k : CoreState) : Prop :=
  k.cond.length = cfg.causes.length ∧ k.arm.length = cfg.causes.length ∧
  k.fiqDisabled.length = cfg.nrFiq

/-- The parameters meet their constraints, and there is one entry for every line, core, cause and index
they give (10_state R32 to R45). -/
abbrev State.Shaped (s : State) : Prop :=
  s.cfg.Wf ∧ s.lines.length = s.cfg.nrHw ∧ s.cores.length = s.cfg.maxCores ∧
  s.boundHw.length = s.cfg.nrHw ∧ s.boundFiq.length = s.cfg.nrFiq ∧
  s.boundVipi.length = s.cfg.nrVipi ∧ s.flags.hw.length = s.cfg.nrHw ∧
  s.flags.fiq.length = s.cfg.nrFiq ∧ s.flags.ipi.length = s.cfg.nrVipi ∧ ∀ k ∈ s.cores, k.Shaped s.cfg

/-- The step stands between the taking and the freeing of `aff_lock` (41_hw_lines R258). -/
def SeqStep.inAffinityRegion : SeqStep → Bool
  | .affChoose _ _ | .affUnlock => true
  | _ => false

/-- Core c is between the taking and the freeing of `aff_lock`. -/
def State.inAffinityRegion (s : State) (c : Nat) : Bool :=
  (s.core c).seq.any SeqStep.inAffinityRegion

/-- `aff_lock` is held by the one core that is in the region, once, and free when none is. -/
def State.LockHeldByRegion (s : State) : Prop :=
  ∀ c, (s.core c).seq.countP SeqStep.inAffinityRegion = if s.affLock = some c then 1 else 0

/-- The step is the end of the front-end's run for a trap. -/
def SeqStep.isTrapExit : SeqStep → Bool
  | .trapExit => true
  | _ => false

/-- A core is in state Draining exactly while it runs one TRAP, and no core is while the front-end is
not armed (45_frontend_config R390, R394, R395). -/
def State.DrainingIsOneTrap (s : State) : Prop :=
  (∀ c, (s.core c).seq.countP SeqStep.isTrapExit = if (s.core c).fe = .draining then 1 else 0) ∧
  (s.armed = false → ∀ c, (s.core c).fe = .idle)

/-- Bits b ≥ NR_VIPI of every `pending` are 0 (10_state R41). -/
def State.PendingInRange (s : State) : Prop :=
  ∀ c b, s.cfg.nrVipi ≤ b → (s.core c).pending.getLsbD b = false

/-- The total order grew by entries none of which writes ordinary memory: whatever a read of a byte
could return, it could return before, but for what the entries make visible. -/
def State.Extends (s t : State) : Prop :=
  ∃ es, t.trace = s.trace ++ es ∧ ∀ e ∈ es, ∀ who addr v, e ≠ .memWrite who addr v

/-- Outside the lines and the cores nothing is changed but the model's own records: the total order,
in which no ordinary memory is written, and the count of draws. -/
def State.SameRest (s t : State) : Prop :=
  s.Extends t ∧ t.lines.length = s.lines.length ∧ t.cores.length = s.cores.length ∧
  t = { s with lines := t.lines, cores := t.cores, trace := t.trace, draws := t.draws }

/-- Every core but c is as it was. -/
def State.OtherCores (s t : State) (c : Nat) : Prop := ∀ d, d ≠ c → t.core d = s.core d

/-- Every line but i is as it was. -/
def State.OtherLines (s t : State) (i : Nat) : Prop := ∀ j, j ≠ i → t.line j = s.line j

/-- Of the cores and lines only core c is changed, and it is `k` now. -/
def State.CoreBecomes (s t : State) (c : Nat) (k : CoreState) : Prop :=
  s.SameRest t ∧ t.lines = s.lines ∧ s.OtherCores t c ∧ t.core c = k

/-- The operation answers r to core c, and nothing else is changed. -/
def State.Answers (s t : State) (c : Nat) (r : Result) : Prop :=
  s.CoreBecomes t c { s.core c with ret := r }

/-- Of the cores and lines only line i is changed, and it is `l` now. -/
def State.LineBecomes (s t : State) (i : Nat) (l : Line) : Prop :=
  s.SameRest t ∧ t.cores = s.cores ∧ s.OtherLines t i ∧ t.line i = l

/-- Line i is `l` now, core c has the answer r, and no other line or core is changed. -/
def State.LineBecomesWith (s t : State) (i : Nat) (l : Line) (c : Nat) (r : Result) : Prop :=
  s.SameRest t ∧ s.OtherLines t i ∧ t.line i = l ∧ s.OtherCores t c ∧
  t.core c = { s.core c with ret := r }

/-- Line i is acted on by the data v of bank n: it is the line 32·n + b of a set bit b
(41_hw_lines R243). -/
def actedOn (n : Nat) (v : Word) (i : Nat) : Prop :=
  ∃ b, b < 32 ∧ v.getLsbD b = true ∧ i = 32 * n + b

/-- The data v of the bank register n changes the lines by f: each line of a set bit, no other line. -/
def State.BankChanged (s t : State) (n : Nat) (v : Word) (f : Line → Line) : Prop :=
  s.SameRest t ∧ t.cores = s.cores ∧
  ∀ i, i < s.cfg.nrHw →
    (actedOn n v i → t.line i = f (s.line i)) ∧ (¬ actedOn n v i → t.line i = s.line i)

/-- A run of the machine: each state is what the step before answers. -/
def IsRun (run : Nat → State) : Prop := ∀ n, step (run n) = .next (run (n + 1))

/-- Weak fairness of trap entry (45_frontend_config R395), a property of a run: if from some point on
an output to core c stays raised and core c accepts interrupts, core c enters a trap later. DESIGN CHOICE
(log 27): also where TRAP is never admitted from that point on, so that such a run is not fair. -/
def TrapFair (run : Nat → State) (c : Nat) : Prop :=
  ∀ n, (∀ m, n ≤ m →
      ((run m).irqOut c || (run m).fiqOut c) = true ∧ ((run m).core c).accepts = true) →
    ∃ m, n ≤ m ∧ (run (m + 1)).trace = (run m).trace ++ [.trapEntry c]

end Sys2Proof.Machine
end

