-- ==== Sys2Proof/Certificates/Slice0/Obligations.lean ====
section
/-!
DEFINITION. The statements for the provers, in the order of OBLIGATIONS.json. Each is stated of every
state and every choice of the parameters; of a free value none says what it is. A composite operation is stated
of its uninterrupted performance (`Completes`); what other agents may do between its steps is in the
whole-machine statements at the end.
-/

open Sys2Proof Sys2Proof.Machine

/-! ## Status-mux, identity and information registers -/

/-- 40_status_mux R211, R213; 30_encoding R114. -/
def Obligations.IdentityReads : Prop :=
  ∀ (s : State) (c : Nat) (k : AccessKind), s.Shaped → c < s.cfg.maxCores →
    (∃ t, exec (.readInfo c k) s = .next t ∧ s.Answers t c (.word s.cfg.info)) ∧
    (∃ t, exec (.readWhoami c k) s = .next t ∧ s.Answers t c (.word (s.cfg.hwidOf c))) ∧
    lineCount s.cfg.info = s.cfg.nrHw ∧ s.cfg.info.extractLsb' 16 16 = s.cfg.infoHigh

/-- 40_status_mux R210, R212, R214. -/
def Obligations.ReadOnlyWritesRefused : Prop :=
  ∀ (s : State) (c : Nat) (k : AccessKind) (v : Word),
    ∀ i ∈ [Instr.writeInfo c k v, .writeWhoami c k v, .writeEvent c k v],
      exec i s = .next { s with refused := some .writeReadOnly }

/-- 40_status_mux R204. -/
def Obligations.EmptyEventRead : Prop :=
  ∀ (s : State) (c : Nat) (k : AccessKind), s.Shaped → c < s.cfg.maxCores → s.events c = [] →
    ∃ t, exec (.readEvent c k) s = .next t ∧ s.Answers t c (.word 0)

/-- 40_status_mux R203, R205, R206; 30_encoding R115, R116. -/
def Obligations.EventReadReportsAndMasks : Prop :=
  ∀ (s : State) (c : Nat) (k : AccessKind), s.Shaped → c < s.cfg.maxCores → s.events c ≠ [] →
    ∃ t e w, exec (.readEvent c k) s = .next t ∧ e ∈ s.events c ∧ s.SameRest t ∧ s.OtherCores t c ∧
      match e with
      | .hw i =>
        (eventType w = s.cfg.evTypeHw ∧ (eventIndex w).toNat = i) ∧
        s.OtherLines t i ∧ t.line i = { s.line i with mask := true } ∧
        t.core c = { s.core c with ret := .word w }
      | .ipi .other =>
        (eventType w = s.cfg.evTypeIpi ∧ eventIndex w = s.cfg.evIpiOther) ∧ t.lines = s.lines ∧
        t.core c = { s.core c with
          ret := .word w, ipiMask := { (s.core c).ipiMask with other := true } }
      | .ipi .self =>
        (eventType w = s.cfg.evTypeIpi ∧ eventIndex w = s.cfg.evIpiSelf) ∧ t.lines = s.lines ∧
        t.core c = { s.core c with
          ret := .word w, ipiMask := { (s.core c).ipiMask with self := true } }

/-- 40_status_mux R200, R202; 10_state R50 to R52. -/
def Obligations.WaitingEventsAreTheEligibleOnes : Prop :=
  ∀ (s : State) (c : Nat),
    (∀ i, EventKind.hw i ∈ s.events c ↔
      i < s.cfg.nrHw ∧ c < s.cfg.maxCores ∧ ((s.line i).level = true ∨ (s.line i).sw = true) ∧
        (s.line i).mask = false ∧ (s.line i).target.getLsbD c = true) ∧
    (EventKind.ipi .other ∈ s.events c ↔
      (s.core c).ipiPend.other = true ∧ (s.core c).ipiMask.other = false) ∧
    (EventKind.ipi .self ∈ s.events c ↔
      (s.core c).ipiPend.self = true ∧ (s.core c).ipiMask.self = false)

/-- 40_status_mux R201, R216; 10_state R54. -/
def Obligations.OutputsFollowTheirCauses : Prop :=
  ∀ (s : State) (c : Nat),
    (s.irqOut c = true ↔ s.events c ≠ []) ∧
    ((∀ i, i < s.cfg.nrHw → (s.line i).mask = true ∨ (s.line i).target.getLsbD c = false) →
      (∀ sel, (s.core c).ipiMask.get sel = true ∨ (s.core c).ipiPend.get sel = false) →
      s.irqOut c = false) ∧
    (s.fiqOut c = true ↔
      ∃ k, k < s.cfg.causes.length ∧ s.cond c k = true ∧ s.arm c k = true)

/-- 40_status_mux R208 (and 20_memory R85): two EVENT reads in a row never report the same event. -/
def Obligations.NoDuplicateReport : Prop :=
  ∀ (s t u : State) (c : Nat) (k k' : AccessKind) (w : Word), s.Shaped → c < s.cfg.maxCores →
    exec (.readEvent c k) s = .next t → (t.core c).ret = .word w → w ≠ 0 →
    exec (.readEvent c k') t = .next u → (u.core c).ret ≠ .word w

/-- 30_encoding R127; 41_hw_lines R247; 42_physical_ipi R287. The answer is the next draw, a free value
(log 6). -/
def Obligations.WriteActionReadsAreDraws : Prop :=
  ∀ (s : State) (c n : Nat) (k : AccessKind), s.Shaped → c < s.cfg.maxCores →
    (∀ i ∈ [Instr.readIpiSend c k, .readIpiAck c k, .readIpiMaskSet c k, .readIpiMaskClr c k],
      ∃ t, exec i s = .next t ∧ s.Answers t c (.word (Config.freeWord s.draws)) ∧
        t.draws = s.draws + 1) ∧
    (n < s.cfg.nBank →
      ∀ i ∈ [Instr.readSwSet c k n, .readSwClr c k n, .readMaskSet c k n, .readMaskClr c k n],
        ∃ t, exec i s = .next t ∧ s.Answers t c (.word (Config.freeWord s.draws)) ∧
          t.draws = s.draws + 1)

/-! ## Hardware lines -/

/-- 41_hw_lines R243, R244. -/
def Obligations.MaskBankWrites : Prop :=
  ∀ (s : State) (c n : Nat) (k : AccessKind) (v : Word), s.Shaped → c < s.cfg.maxCores →
    n < s.cfg.nBank →
    (∃ t, exec (.writeMaskSet c k n v) s = .next t ∧
      s.BankChanged t n v (fun l => { l with mask := true })) ∧
    (∃ t, exec (.writeMaskClr c k n v) s = .next t ∧
      s.BankChanged t n v (fun l => { l with mask := false }))

/-- 41_hw_lines R245, R246. -/
def Obligations.SoftwareTriggerBankWrites : Prop :=
  ∀ (s : State) (c n : Nat) (k : AccessKind) (v : Word), s.Shaped → c < s.cfg.maxCores →
    n < s.cfg.nBank →
    (∃ t, exec (.writeSwSet c k n v) s = .next t ∧
      s.BankChanged t n v (fun l => { l with sw := true })) ∧
    (∃ t, exec (.writeSwClr c k n v) s = .next t ∧
      s.BankChanged t n v (fun l => { l with sw := false }))

/-- 41_hw_lines R248, R249. -/
def Obligations.TargetRegister : Prop :=
  ∀ (s : State) (c i : Nat) (k : AccessKind) (v : Word), s.Shaped → c < s.cfg.maxCores →
    i < s.cfg.nrHw →
    (∃ t, exec (.readTarget c k i) s = .next t ∧ s.Answers t c (.word (s.line i).target)) ∧
    (∃ t, exec (.writeTarget c k i v) s = .next t ∧ s.LineBecomes t i { s.line i with target := v })

/-- 41_hw_lines R255, R256. -/
def Obligations.HwDisableAndEnable : Prop :=
  ∀ (s : State) (c i : Nat), s.Shaped → c < s.cfg.maxCores → i < s.cfg.nrHw →
    Completes (.hwDisable c i) 3 s (fun t =>
      s.LineBecomesWith t i { s.line i with mask := true, hwDisabled := true } c .ok) ∧
    Completes (.hwEnable c i) 3 s (fun t =>
      s.LineBecomesWith t i { s.line i with mask := false, hwDisabled := false } c .ok)

/-- 41_hw_lines R257. -/
def Obligations.HwEoiRestoresTheLine : Prop :=
  ∀ (s : State) (c i : Nat), s.Shaped → c < s.cfg.maxCores → i < s.cfg.nrHw →
    Completes (.hwEoi c i) 3 s (fun t =>
      s.LineBecomesWith t i
        (if (s.line i).hwDisabled = true then s.line i else { s.line i with mask := false }) c .ok)

/-- 41_hw_lines R258: with `aff_lock` free the operation completes; while the lock is held the core
waits at the operation's first step (a move that is not enabled is a stutter, log 8). -/
def Obligations.HwSetAffinity : Prop :=
  ∀ (s : State) (c i : Nat) (m : Word), s.Shaped → c < s.cfg.maxCores → i < s.cfg.nrHw →
    (s.affLock = none → (∃ τ, τ < s.cfg.maxCores ∧ m.getLsbD τ = true ∧ s.cfg.online.getLsbD τ = true) →
      ∃ τ, τ < s.cfg.maxCores ∧ m.getLsbD τ = true ∧ s.cfg.online.getLsbD τ = true ∧
        Completes (.hwSetAffinity c i m) 5 s (fun t =>
          s.LineBecomesWith t i { s.line i with target := BitVec.ofNat 32 (2 ^ τ) } c (.core τ))) ∧
    (s.affLock = none →
      (∀ τ, τ < s.cfg.maxCores → m.getLsbD τ = true → s.cfg.online.getLsbD τ = false) →
      Completes (.hwSetAffinity c i m) 4 s (fun t => s.Answers t c (.err .affinity))) ∧
    ∀ d n, s.affLock = some d →
      Completes (.hwSetAffinity c i m) n s (fun t =>
        s.CoreBecomes t c { s.core c with seq := .affLock i m :: (s.core c).seq })

/-- 41_hw_lines R259. -/
def Obligations.HwDispatch : Prop :=
  ∀ (s : State) (c i : Nat), s.Shaped → c < s.cfg.maxCores → i < s.cfg.nrHw →
    (s.core c).fe = .draining →
    (s.bound .hw i = none →
      Completes (.hwDispatch c i) 1 s (fun t =>
        s.Extends t ∧ t = { s with
          diag := s.diag ++ [⟨c, .unboundLine, .line .hw i⟩], trace := t.trace })) ∧
    (∀ h, s.bound .hw i = some h →
      Completes (.hwDispatch c i) 1 s (fun t =>
        (∃ es, t.trace = s.trace ++ es ++ [.handler c .hw i h]) ∧
        s.CoreBecomes t c { s.core c with
          seq := .running .hw i h :: .op (.hwEoi c i) :: (s.core c).seq }))

/-- 60_exceptions R452: an index out of range is answered ERR_RANGE with no state change. -/
def Obligations.OutOfRangeIsErrRange : Prop :=
  ∀ (s : State) (c x : Nat) (m : Word), s.Shaped → c < s.cfg.maxCores →
    (s.cfg.nrHw ≤ x →
      ∀ i ∈ [Instr.hwDisable c x, .hwEnable c x, .hwEoi c x, .hwSetAffinity c x m],
        ∃ t, exec i s = .next t ∧ s.Answers t c (.err .range)) ∧
    (s.cfg.nrFiq ≤ x →
      ∀ i ∈ [Instr.fiqMask c x, .fiqUnmask c x, .fiqEoi c x],
        ∃ t, exec i s = .next t ∧ s.Answers t c (.err .range)) ∧
    (s.cfg.nrVipi ≤ x →
      ∀ i ∈ [Instr.vipiMask c x, .vipiUnmask c x],
        ∃ t, exec i s = .next t ∧ s.Answers t c (.err .range))

/-! ## Physical IPI unit -/

/-- 42_physical_ipi R281, R282. -/
def Obligations.IpiSend : Prop :=
  ∀ (s : State) (c : Nat) (k : AccessKind) (v : Word), s.Shaped → c < s.cfg.maxCores →
    ((∀ b, v.getLsbD b = true → b < s.cfg.maxCores) →
      ∃ t, exec (.writeIpiSend c k v) s = .next t ∧ s.SameRest t ∧ t.lines = s.lines ∧
        ∀ d, d < s.cfg.maxCores →
          t.core d = { s.core d with ipiPend :=
            { (s.core d).ipiPend with other := (s.core d).ipiPend.other || v.getLsbD d } }) ∧
    ((∃ b, v.getLsbD b = true ∧ s.cfg.maxCores ≤ b) →
      exec (.writeIpiSend c k v) s = .next { s with refused := some .reservedBit })

/-- 42_physical_ipi R283 to R286. -/
def Obligations.IpiSelectorWrites : Prop :=
  ∀ (s : State) (c : Nat) (k : AccessKind) (v : Word), s.Shaped → c < s.cfg.maxCores →
    ((∀ b, v.getLsbD b = true → b = s.cfg.ipiOtherBit ∨ b = s.cfg.ipiSelfBit) →
      (∃ t, exec (.writeIpiAck c k v) s = .next t ∧
        s.CoreBecomes t c { s.core c with ipiPend :=
          ⟨(s.core c).ipiPend.other && !v.getLsbD s.cfg.ipiOtherBit,
            (s.core c).ipiPend.self && !v.getLsbD s.cfg.ipiSelfBit⟩ }) ∧
      (∃ t, exec (.writeIpiMaskSet c k v) s = .next t ∧
        s.CoreBecomes t c { s.core c with ipiMask :=
          ⟨(s.core c).ipiMask.other || v.getLsbD s.cfg.ipiOtherBit,
            (s.core c).ipiMask.self || v.getLsbD s.cfg.ipiSelfBit⟩ }) ∧
      (∃ t, exec (.writeIpiMaskClr c k v) s = .next t ∧
        s.CoreBecomes t c { s.core c with ipiMask :=
          ⟨(s.core c).ipiMask.other && !v.getLsbD s.cfg.ipiOtherBit,
            (s.core c).ipiMask.self && !v.getLsbD s.cfg.ipiSelfBit⟩ })) ∧
    ((∃ b, v.getLsbD b = true ∧ b ≠ s.cfg.ipiOtherBit ∧ b ≠ s.cfg.ipiSelfBit) →
      ∀ i ∈ [Instr.writeIpiAck c k v, .writeIpiMaskSet c k v, .writeIpiMaskClr c k v],
        exec i s = .next { s with refused := some .reservedBit })

/-! ## FIQ cause mux -/

/-- 43_fiq R312, R313. -/
def Obligations.FiqCauseAccesses : Prop :=
  ∀ (s : State) (c k : Nat) (v : Bool), s.Shaped → c < s.cfg.maxCores → k < s.cfg.causes.length →
    (∃ t, exec (.fiqReadCause c k) s = .next t ∧
      s.Answers t c (.causeState (s.cond c k) (s.arm c k))) ∧
    (∃ t, exec (.fiqWriteArm c k v) s = .next t ∧
      s.CoreBecomes t c { s.core c with arm := (s.core c).arm.set k v } ∧ t.arm c k = v)

/-- 43_fiq R314, R315, R316. -/
def Obligations.FiqMaskUnmaskEoi : Prop :=
  ∀ (s : State) (c d k : Nat), s.Shaped → c < s.cfg.maxCores → d < s.cfg.nrFiq →
    s.cfg.IsCauseOf k d →
    Completes (.fiqMask c d) 3 s (fun t => s.CoreBecomes t c { s.core c with
      fiqDisabled := (s.core c).fiqDisabled.set d true, arm := (s.core c).arm.set k false
      ret := .ok }) ∧
    Completes (.fiqUnmask c d) 3 s (fun t => s.CoreBecomes t c { s.core c with
      fiqDisabled := (s.core c).fiqDisabled.set d false, arm := (s.core c).arm.set k true
      ret := .ok }) ∧
    Completes (.fiqEoi c d) 3 s (fun t => s.CoreBecomes t c { s.core c with
      arm := if s.fiqDisabled c d = true then (s.core c).arm else (s.core c).arm.set k true
      ret := .ok })

/-- 43_fiq R318. -/
def Obligations.SilenceDisarmsWithDiagnostic : Prop :=
  ∀ (s : State) (c k : Nat), s.Shaped → c < s.cfg.maxCores → k < s.cfg.causes.length →
    Completes (.silence c k) 2 s (fun t =>
      s.Extends t ∧ t = { s with
        cores := t.cores, trace := t.trace
        diag := s.diag ++ [⟨c, .unsupportedFiq, .cause (s.cfg.cause k).name⟩] } ∧
      s.OtherCores t c ∧ t.core c = { s.core c with arm := (s.core c).arm.set k false })

/-- 43_fiq R319: the cause is disarmed, the handler runs, FIQ_EOI follows it, also where the cause has not
fired (log 33). -/
def Obligations.FiqDispatch : Prop :=
  ∀ (s : State) (c d k h : Nat), s.Shaped → c < s.cfg.maxCores → d < s.cfg.nrFiq →
    s.cfg.IsCauseOf k d → s.bound .fiq d = some h →
    Completes (.fiqDispatch c d) 2 s (fun t =>
      (∃ es, t.trace = s.trace ++ es ++ [.handler c .fiq d h]) ∧
      s.CoreBecomes t c { s.core c with
        arm := (s.core c).arm.set k false
        seq := .running .fiq d h :: .op (.fiqEoi c d) :: (s.core c).seq })

/-- 43_fiq R317 (on a core in Draining, log 20): a poll with nothing firing does nothing; the causes are
read in list order, and what is done with each. -/
def Obligations.FiqPollTakesCausesInOrder : Prop :=
  ∀ (s : State) (c : Nat), s.Shaped → c < s.cfg.maxCores →
    ((s.core c).fe = .draining → (∀ k, k < s.cfg.causes.length → s.fire c k = false) →
      Completes (.fiqPoll c) (2 * s.cfg.causes.length) s (fun t => ∃ r, s.Answers t c r)) ∧
    ((s.core c).fe = .draining →
      ∃ t, exec (.fiqPoll c) s = .next t ∧ s.CoreBecomes t c { s.core c with
        seq := (List.range s.cfg.causes.length).flatMap
          (fun k => [SeqStep.op (.fiqReadCause c k), .pollTest k]) ++ (s.core c).seq }) ∧
    ∀ k rest, k < s.cfg.causes.length →
      (s.core c).seq = .op (.fiqReadCause c k) :: .pollTest k :: rest →
      ∃ t, alone c 2 s = .next t ∧ s.CoreBecomes t c { s.core c with
        ret := .causeState (s.cond c k) (s.arm c k)
        seq :=
          if (s.cond c k && s.arm c k) = true then
            (if (s.cfg.cause k).dom.any (fun d => (s.bound .fiq d).isSome) = true then
              SeqStep.op (.fiqDispatch c ((s.cfg.cause k).dom.getD 0))
            else .op (.silence c k)) :: rest
          else rest }

/-! ## vIPI arbiter -/

/-- 44_vipi_arbiter R352 to R356. That VIPI_PEND_OR leaves the bits of `pending` at or above NR_VIPI, which
10_state R41 says are always 0, whatever m has there is the model's deduction (log 19); a mask of vIPI
lines is ored whole. -/
def Obligations.VipiPorts : Prop :=
  ∀ (s : State) (c d : Nat) (m : Word), s.Shaped → c < s.cfg.maxCores → d < s.cfg.maxCores →
    (∃ t, exec (.vipiEnRead c d) s = .next t ∧ s.Answers t c (.word (s.core d).enabled)) ∧
    (∃ t, exec (.vipiEnOr c d m) s = .next t ∧
      s.CoreBecomes t d { s.core d with enabled := (s.core d).enabled ||| m }) ∧
    (∃ t, exec (.vipiEnAndn c d m) s = .next t ∧ s.SameRest t ∧ t.lines = s.lines ∧
      ∀ x, x < s.cfg.maxCores → t.core x = { s.core x with
        enabled := if x = d then (s.core d).enabled &&& ~~~m else (s.core x).enabled
        ret := if x = c then .word ((s.core d).enabled &&& ~~~m) else (s.core x).ret }) ∧
    (∃ t, exec (.vipiPendOr c d m) s = .next t ∧
      s.CoreBecomes t d { s.core d with
        pending := (s.core d).pending ||| BitVec.ofNat 32 (m.toNat % 2 ^ s.cfg.nrVipi) }) ∧
    ((∀ b, m.getLsbD b = true → b < s.cfg.nrVipi) →
      ∃ t, exec (.vipiPendOr c d m) s = .next t ∧
        s.CoreBecomes t d { s.core d with pending := (s.core d).pending ||| m }) ∧
    (∃ t, exec (.vipiPendXchg0 c d) s = .next t ∧ s.SameRest t ∧ t.lines = s.lines ∧
      ∀ x, x < s.cfg.maxCores → t.core x = { s.core x with
        pending := if x = d then 0 else (s.core x).pending
        ret := if x = c then .word (s.core d).pending else (s.core x).ret })

/-- 20_memory R90. -/
def Obligations.FencesAreRecordedOnly : Prop :=
  ∀ (s : State) (c : Nat),
    exec (.fenceW c) s = .next { s with trace := s.trace ++ [.fence c .w] } ∧
    exec (.fenceR c) s = .next { s with trace := s.trace ++ [.fence c .r] }

/-- 44_vipi_arbiter R360, R372: a send performed alone signals and kicks exactly the destinations that
accept the line, in whatever order it visits them; an index out of range is refused. -/
def Obligations.VipiSend : Prop :=
  ∀ (s : State) (c v : Nat) (dests : Word), s.Shaped → c < s.cfg.maxCores →
    (v < s.cfg.nrVipi → (∀ b, dests.getLsbD b = true → b < s.cfg.maxCores) →
      ∃ n, Completes (.vipiSend c v dests) n s (fun t =>
        s.SameRest t ∧ t.lines = s.lines ∧
        ∀ d, d < s.cfg.maxCores →
          (d ≠ c → (t.core d).ret = (s.core d).ret) ∧
          t.core d = { s.core d with
            ret := (t.core d).ret
            pending := if (dests.getLsbD d && (s.core d).enabled.getLsbD v) = true
              then (s.core d).pending ||| BitVec.ofNat 32 (2 ^ v) else (s.core d).pending
            ipiPend := { (s.core d).ipiPend with
              other := (s.core d).ipiPend.other ||
                (dests.getLsbD d && (s.core d).enabled.getLsbD v) } })) ∧
    (s.cfg.nrVipi ≤ v →
      exec (.vipiSend c v dests) s = .next { s with refused := some .badVipiIndex })

/-- 44_vipi_arbiter R362: the receive acknowledges, takes the whole pending mask and goes through its
bits in ascending order, the re-arm last; a bit is dispatched or recorded; with no bit set the receive
ends with the line re-armed. -/
def Obligations.VipiReceive : Prop :=
  ∀ (s : State) (c : Nat), s.Shaped → c < s.cfg.maxCores → (s.core c).fe = .draining →
    Completes (.vipiReceive c) 5 s (fun t => s.CoreBecomes t c { s.core c with
      ipiPend := { (s.core c).ipiPend with other := false }
      pending := 0
      ret := .word (s.core c).pending
      seq := ((List.range 32).filter (fun b => (s.core c).pending.getLsbD b)).map SeqStep.recvBit ++
        .op (.writeIpiMaskClr c .relaxed (BitVec.ofNat 32 (2 ^ s.cfg.ipiOtherBit))) ::
          (s.core c).seq }) ∧
    ((s.core c).pending = 0 →
      Completes (.vipiReceive c) 6 s (fun t => s.CoreBecomes t c { s.core c with
        ipiPend := { (s.core c).ipiPend with other := false }
        ipiMask := { (s.core c).ipiMask with other := false }
        ret := .word 0 }))

/-- 44_vipi_arbiter R362 step 5. -/
def Obligations.VipiBitDispatch : Prop :=
  ∀ (s : State) (c b : Nat) (rest : List SeqStep), s.Shaped → c < s.cfg.maxCores →
    (s.core c).seq = .recvBit b :: rest →
    (∀ h, s.bound .ipi b = some h →
      ∃ t, alone c 2 s = .next t ∧ (∃ es, t.trace = s.trace ++ es ++ [.handler c .ipi b h]) ∧
        s.CoreBecomes t c { s.core c with seq := .running .ipi b h :: rest }) ∧
    (s.bound .ipi b = none →
      ∃ t, alone c 2 s = .next t ∧ s.Extends t ∧ s.OtherCores t c ∧
        t.core c = { s.core c with seq := rest } ∧
        t = { s with
          cores := t.cores, trace := t.trace
          diag := s.diag ++ [⟨c, .unboundLine, .line .ipi b⟩] })

/-- 44_vipi_arbiter R364, R366. -/
def Obligations.VipiMaskAndUnmask : Prop :=
  ∀ (s : State) (c v : Nat), s.Shaped → c < s.cfg.maxCores → v < s.cfg.nrVipi →
    Completes (.vipiMask c v) 3 s (fun t => s.CoreBecomes t c { s.core c with
      enabled := (s.core c).enabled &&& ~~~(BitVec.ofNat 32 (2 ^ v))
      ipiMask := { (s.core c).ipiMask with
        other := (s.core c).ipiMask.other ||
          decide ((s.core c).enabled &&& ~~~(BitVec.ofNat 32 (2 ^ v)) = 0) }
      ret := .ok }) ∧
    Completes (.vipiUnmask c v) 3 s (fun t => s.CoreBecomes t c { s.core c with
      enabled := (s.core c).enabled ||| BitVec.ofNat 32 (2 ^ v)
      ipiMask := { (s.core c).ipiMask with other := false }
      ret := .ok })

/-! ## Front-end and configuration -/

/-- 45_frontend_config R390, R394, R395. Where TRAP may not start nothing changes (log 8). -/
def Obligations.TrapEntry : Prop :=
  ∀ (s : State) (c : Nat), s.Shaped → c < s.cfg.maxCores →
    ((s.core c).fe = .idle → s.armed = true → (s.core c).seq = [] →
      ∃ t order, exec (.trap c) s = .next t ∧
        (order = [SeqStep.op (.drain c), .op (.fiqPoll c)] ∨
          order = [.op (.fiqPoll c), .op (.drain c)]) ∧
        s.CoreBecomes t c { s.core c with fe := .draining, seq := order ++ [.trapExit] }) ∧
    (¬((s.core c).fe = .idle ∧ s.armed = true ∧ (s.core c).seq = []) →
      exec (.trap c) s = .next s)

/-- 60_exceptions R458: an interrupt that is raised and accepted is taken when the core moves, before
its software's next request (when that is, is log 14). -/
def Obligations.DueTrapIsTaken : Prop :=
  ∀ (s : State) (c : Nat) (movers : List Mover), s.Shaped → c < s.cfg.maxCores →
    s.refused = none → s.sched = .core c :: movers → (s.core c).fe = .idle → s.armed = true →
    (s.core c).seq = [] → (s.core c).accepts = true → (s.irqOut c = true ∨ s.fiqOut c = true) →
    ∃ t, step s = .next t ∧ exec (.trap c) { s with sched := movers } = .next t ∧
      (t.core c).fe = .draining ∧ (t.core c).queue = (s.core c).queue

/-- 60_exceptions R459; 45_frontend_config R390: the end of TRAP. -/
def Obligations.TrapReturn : Prop :=
  ∀ (s : State) (c : Nat) (rest : List SeqStep), s.Shaped → c < s.cfg.maxCores →
    (s.core c).seq = .trapExit :: rest →
    ∃ t, advance c s = .next t ∧ s.CoreBecomes t c { s.core c with fe := .idle, seq := rest }

/-- 45_frontend_config R391. -/
def Obligations.DrainReadsUntilEmpty : Prop :=
  ∀ (s : State) (c : Nat), s.Shaped → c < s.cfg.maxCores → (s.core c).fe = .draining →
    (s.events c = [] → Completes (.drain c) 2 s (fun t => s.Answers t c (.word 0))) ∧
    (s.events c ≠ [] → Completes (.drain c) 2 s (fun t =>
      ∃ ev e, ev ∈ s.events c ∧ e = s.cfg.eventWord ev ∧ e ≠ 0 ∧ s.SameRest t ∧ s.OtherCores t c ∧
        (∀ i, ev ≠ .hw i → t.line i = s.line i) ∧
        t.core c = { s.core c with
          ret := .word e
          ipiMask := (t.core c).ipiMask
          seq := .op (.classify c e) :: .op (.readEvent c .ordered) :: .drainTest :: (s.core c).seq }))

/-- 45_frontend_config R392. -/
def Obligations.ClassifyRoutes : Prop :=
  ∀ (s : State) (c : Nat) (e : Word), s.Shaped → c < s.cfg.maxCores → e ≠ 0 →
    (eventType e = s.cfg.evTypeHw → (eventIndex e).toNat < s.cfg.nrHw →
      ∃ t, exec (.classify c e) s = .next t ∧ s.CoreBecomes t c { s.core c with
        seq := .op (.hwDispatch c (eventIndex e).toNat) :: (s.core c).seq }) ∧
    (eventType e = s.cfg.evTypeIpi → eventIndex e = s.cfg.evIpiOther →
      ∃ t, exec (.classify c e) s = .next t ∧ s.CoreBecomes t c { s.core c with
        seq := .op (.vipiReceive c) :: (s.core c).seq }) ∧
    (¬(eventType e = s.cfg.evTypeHw ∧ (eventIndex e).toNat < s.cfg.nrHw) →
      ¬(eventType e = s.cfg.evTypeIpi ∧ eventIndex e = s.cfg.evIpiOther) →
      Completes (.classify c e) 1 s (fun t =>
        s.Extends t ∧ t = { s with
          diag := s.diag ++ [⟨c, .unknownEvent, .event e⟩], trace := t.trace }))

/-- 45_frontend_config R400; 30_encoding R122. Where the flags are stored is the model's choice (log 28). -/
def Obligations.ResolveDescriptor : Prop :=
  ∀ (s : State) (c index : Nat) (flags : Word), s.Shaped → c < s.cfg.maxCores →
    (∀ x ∈ [(s.cfg.kindCode.hw, Dom.hw, s.cfg.nrHw), (s.cfg.kindCode.fiq, .fiq, s.cfg.nrFiq),
        (s.cfg.kindCode.ipi, .ipi, s.cfg.nrVipi)],
      (index < x.2.2 →
        ∃ t, exec (.resolve c x.1 index flags) s = .next t ∧ s.Extends t ∧
          t = { s with cores := t.cores, flags := t.flags, trace := t.trace } ∧
          t.cores.length = s.cores.length ∧ s.OtherCores t c ∧
          t.core c = { s.core c with ret := .line x.2.1 index } ∧
          t.flagsOf x.2.1 index = some flags ∧
          ∀ dom idx, ¬(dom = x.2.1 ∧ idx = index) → t.flagsOf dom idx = s.flagsOf dom idx) ∧
      (x.2.2 ≤ index →
        ∃ t, exec (.resolve c x.1 index flags) s = .next t ∧ s.Answers t c (.err .config))) ∧
    ∀ kind, kind ≠ s.cfg.kindCode.hw → kind ≠ s.cfg.kindCode.fiq → kind ≠ s.cfg.kindCode.ipi →
      ∃ t, exec (.resolve c kind index flags) s = .next t ∧ s.Answers t c (.err .config)

/-- 45_frontend_config R405. -/
def Obligations.BindSetsOneHandler : Prop :=
  ∀ (s : State) (c idx h : Nat) (dom : Dom), s.Shaped → c < s.cfg.maxCores →
    idx < s.cfg.domSize dom →
    ∃ t, exec (.bind c dom idx h) s = .next t ∧ t.bound dom idx = some h ∧
      (∀ dom' idx', ¬(dom' = dom ∧ idx' = idx) → t.bound dom' idx' = s.bound dom' idx') ∧
      s.Extends t ∧ t = { s with
        boundHw := t.boundHw, boundFiq := t.boundFiq, boundVipi := t.boundVipi, trace := t.trace }

/-! ## Initialisation, bring-up, reset, environment -/

/-- 70_reset_and_hazards R503; 60_exceptions R461: whichever core performs it (log 21). -/
def Obligations.InitMasksEverything : Prop :=
  ∀ (s : State) (c : Nat), s.Shaped → c < s.cfg.maxCores →
    (s.cfg.windowPresent = true →
      ∃ n, Completes (.init c) n s (fun t =>
        s.Extends t ∧ t = { s with
          lines := t.lines, cores := t.cores, trace := t.trace, armed := true } ∧
        t.lines.length = s.lines.length ∧ s.OtherCores t c ∧
        t.core c = { s.core c with ret := .ok } ∧
        ∀ i, i < s.cfg.nrHw → t.line i =
          { level := (s.line i).level, sw := false, mask := true, target := s.cfg.defaultTarget
            hwDisabled := true })) ∧
    (s.cfg.windowPresent = false →
      ∃ t, exec (.init c) s = .next t ∧ s.Answers t c (.err .config))

/-- 70_reset_and_hazards R505. -/
def Obligations.CpuOnlineMasksTheCore : Prop :=
  ∀ (s : State) (c : Nat), s.Shaped → c < s.cfg.maxCores →
    ∃ n, Completes (.cpuOnline c) n s (fun t =>
      s.Extends t ∧ t = { s with
        cores := t.cores, trace := t.trace
        diag := s.diag ++
          if (s.cfg.hwidOf c).toNat = c then [] else [⟨c, .topology, .ids c (s.cfg.hwidOf c)⟩] } ∧
      s.OtherCores t c ∧
      t.core c = { s.core c with
        arm := List.replicate s.cfg.causes.length false
        fiqDisabled := List.replicate s.cfg.nrFiq true
        ipiMask := ⟨true, true⟩
        ret := .ok })

/-- 10_state R67: what the table gives at power-on, for every choice of the parameters (INFO and WHOAMI
are two of them) and of the drawn values. The acceptance of interrupts is log 5, that no flags are
stored log 28. -/
def Obligations.PowerOnValues : Prop :=
  ∀ (cfg : Config) (d : PowerOn), (State.powerOn cfg d).cfg = cfg ∧
    (∀ i, i < cfg.nrHw → (State.powerOn cfg d).line i =
      { level := d.level i, sw := d.sw i, mask := d.mask i, target := d.target i
        hwDisabled := true }) ∧
    (∀ c, c < cfg.maxCores →
      ((State.powerOn cfg d).core c).pending = 0 ∧ ((State.powerOn cfg d).core c).enabled = 0 ∧
      ((State.powerOn cfg d).core c).fe = .idle ∧ ((State.powerOn cfg d).core c).seq = [] ∧
      ((State.powerOn cfg d).core c).ipiPend = d.ipiPend c ∧
      ((State.powerOn cfg d).core c).ipiMask = d.ipiMask c ∧
      ((State.powerOn cfg d).core c).accepts = d.accepts c ∧
      (∀ k, k < cfg.causes.length →
        (State.powerOn cfg d).arm c k = d.arm c k ∧ (State.powerOn cfg d).cond c k = d.cond c k) ∧
      ∀ f, f < cfg.nrFiq → (State.powerOn cfg d).fiqDisabled c f = true) ∧
    (∀ dom idx, (State.powerOn cfg d).bound dom idx = none ∧
      (State.powerOn cfg d).flagsOf dom idx = none) ∧
    (State.powerOn cfg d).affLock = none ∧ (State.powerOn cfg d).armed = false ∧
    (State.powerOn cfg d).diag = [] ∧ (State.powerOn cfg d).refused = none

/-- 10_state R60 to R62, 45_frontend_config R395: the environment steps. A step of a line, core or cause
that is not there, and ARM of an ENABLE_BIT cause, is a stutter (log 8). That a device writes one byte of
ordinary memory (log 23) in a step of the environment that the total order records (log 26), by the
device of one line (log 37), is the model's choice. -/
def Obligations.EnvironmentSteps : Prop :=
  ∀ (s : State) (c k i addr : Nat) (v : Bool) (b : Byte), s.Shaped →
    (i < s.cfg.nrHw →
      (∃ t, move (.level i v) s = .next t ∧ s.LineBecomes t i { s.line i with level := v }) ∧
      move (.devWrite i addr b) s =
        .next { s with trace := s.trace ++ [.memWrite (.device i) addr b] }) ∧
    (s.cfg.nrHw ≤ i →
      move (.level i v) s = .next s ∧ move (.devWrite i addr b) s = .next s) ∧
    (c < s.cfg.maxCores →
      (∃ t, move (.accept c v) s = .next t ∧ s.CoreBecomes t c { s.core c with accepts := v }) ∧
      (k < s.cfg.causes.length →
        (∃ t, move (.cond c k v) s = .next t ∧
          s.CoreBecomes t c { s.core c with cond := (s.core c).cond.set k v }) ∧
        ((s.cfg.cause k).mkind = .source →
          ∃ t, move (.arm c k v) s = .next t ∧
            s.CoreBecomes t c { s.core c with arm := (s.core c).arm.set k v }) ∧
        ((s.cfg.cause k).mkind = .enableBit → move (.arm c k v) s = .next s))) ∧
    (s.cfg.maxCores ≤ c → move (.accept c v) s = .next s ∧ move (.core c) s = .next s) ∧
    (s.cfg.maxCores ≤ c ∨ s.cfg.causes.length ≤ k →
      move (.cond c k v) s = .next s ∧ move (.arm c k v) s = .next s)

/-! ## Encoding, and which operation a step performs -/

/-- 30_encoding R110, R111, R124, R125 (the packet layout is log 1). -/
def Obligations.DecodeOfEncode : Prop :=
  ∀ (cfg : Config) (i : Instr), cfg.Wf → i.Wf cfg → decode cfg i.core (encode cfg i) = .ok i

/-- 30_encoding R111, R128 (the packet layout is log 1): each operation has one packet. -/
def Obligations.EncodeOfDecode : Prop :=
  ∀ (cfg : Config) (c : Nat) (p : Packet) (i : Instr), cfg.Wf → decode cfg c p = .ok i →
    encode cfg i = p ∧ i.core = c ∧ i.Wf cfg

/-- 30_encoding R110, R124: transactions at the suggested offsets, with 896 lines. -/
def Obligations.SampleTransactionsDecode : Prop :=
  decode { Config.default with nrHw := 896 } 2 ⟨0x00000402, 0x4184, 0x4, 0⟩
    = .ok (.writeMaskClr 2 .relaxed 1 0x4) ∧
  decode { Config.default with nrHw := 896 } 1 ⟨0x00010401, 0x2004, 0, 0⟩
    = .ok (.readEvent 1 .ordered) ∧
  decode { Config.default with nrHw := 896 } 0 ⟨0x00000402, 0x3014, 0x4, 0⟩
    = .ok (.writeTarget 0 .relaxed 5 0x4) ∧
  decode Config.default 3 ⟨0x00000401, 0x2000, 0, 0⟩ = .ok (.readWhoami 3 .relaxed) ∧
  decode Config.default 0 ⟨0x00000402, 0x4104, 0x1, 0⟩ = .reject .unmappedOffset

/-- 10_state R47, R66; 00_scope R6: the next mover moves; a core that may take a request performs the
operation its packet decodes to, or accesses ordinary memory; a core inside a composite operation
performs that operation's next step; a handler returns, at the request for it or with no request left,
and its core has the rest of its operation to perform; an idle core with no request and no trap to take
does nothing. The model's choices: the next mover is the head of the input `sched` (log 7), requests are
an input (log 2), when a handler returns (log 16), an access to ordinary memory is one byte (log 23) and
stands in the total order (log 26), and the stutter (log 8). -/
def Obligations.StepPerformsTheDecodedOperation : Prop :=
  (∀ (s : State) (m : Mover) (movers : List Mover), s.refused = none → s.sched = m :: movers →
    step s = move m { s with sched := movers }) ∧
  (∀ (s s' : State) (c : Nat) (p : Packet) (i : Instr),
    s.AboutTo c (.packet p) s' → decode s.cfg c p = .ok i → step s = exec i s') ∧
  (∀ (s s' : State) (c addr : Nat), s.AboutTo c (.memRead addr) s' →
    step s = .next (s'.memRead c addr)) ∧
  (∀ (s s' : State) (c addr : Nat) (v : Byte), s.AboutTo c (.memWrite addr v) s' →
    step s = .next { s' with trace := s'.trace ++ [.memWrite (.core c) addr v] }) ∧
  (∀ (s : State) (c : Nat) (m : SeqStep) (rest : List SeqStep) (movers : List Mover),
    s.refused = none → s.sched = .core c :: movers → c < s.cfg.maxCores →
    (s.core c).seq = m :: rest → (∀ dom idx h, m ≠ .running dom idx h) →
    step s =
      seqStep c m (({ s with sched := movers }).updCore c (fun k => { k with seq := rest }))) ∧
  (∀ (s : State) (c : Nat) (dom : Dom) (idx h : Nat) (rest : List SeqStep) (movers : List Mover),
    s.refused = none → s.sched = .core c :: movers → c < s.cfg.maxCores →
    (s.core c).seq = .running dom idx h :: rest →
    ((s.core c).queue = [] ∨ (s.core c).queue.head? = some .handlerReturn) →
    step s = .next (({ s with sched := movers, trace := s.trace ++ [Event.handlerEnd c] } : State).updCore c
      (fun k => { k with seq := rest, queue := k.queue.tail }))) ∧
  ∀ (s : State) (c : Nat) (movers : List Mover), s.refused = none → s.sched = .core c :: movers →
    (s.core c).seq = [] → s.trapDue c = false →
    ((s.core c).queue = [] → step s = .next { s with sched := movers }) ∧
    (∀ s', s.AboutTo c .handlerReturn s' → step s = .next s')

/-- 20_memory R81, R82; 30_encoding R126: a register transaction that is not an aligned 32-bit access, or
at an offset of no register, sets the mark and has no other effect (which reason is recorded where both
hold is log 31). -/
def Obligations.BadAccessesAreRefused : Prop :=
  ∀ (s s' : State) (c : Nat) (p : Packet), s.Shaped → s.AboutTo c (.packet p) s' →
    ((p.code = 1 ∧ p.b = 0) ∨ p.code = 2) → p.d = 0 → p.kindBits ≤ 1 →
    (p.width ≠ 4 ∨ p.a.toNat % 4 ≠ 0 →
      step s = .next { s' with refused := some .badWidthOrAlignment }) ∧
    (p.width = 4 → p.a.toNat % 4 = 0 →
      (∀ r ∈ s.cfg.ranges, ¬(r.1 ≤ p.a.toNat ∧ p.a.toNat < r.1 + 4 * r.2)) →
      step s = .next { s' with refused := some .unmappedOffset })

/-- 10_state R59 (how the model stops is log 10). -/
def Obligations.RefusedStateHasNoSuccessor : Prop :=
  ∀ (s : State) (r : RefuseReason), s.refused = some r → step s = .fault (.runRefused r)

/-! ## Ordinary memory -/

/-- 20_memory R93: the pairing rule (what a read may return is log 12). The write X and the read that
observes it are any entries of the model's total order: that storing a descriptor's flags (log 28), writing
and reading `arm` (log 39) and the auto-mask of an EVENT read as a write of its core (log 40) stand in it,
are the model's choices, and so is what else of it is a write or a read (log 29, log 30, log 34 to log 36). -/
def Obligations.PairedFencesMakeWritesVisible : Prop :=
  ∀ (s : State) (a c addr w f x r g : Nat) (v : Byte), s.Shaped → c < s.cfg.maxCores →
    s.trace[w]? = some (.memWrite (.core a) addr v) → w < f → s.trace[f]? = some (.fence a .w) →
    f < x → entryAt s.trace x (Event.writtenBy a) = true → x < r →
    entryAt s.trace r (Event.readBy c) = true → observes s.trace x r = true → r < g →
    s.trace[g]? = some (.fence c .r) →
    ∃ n who b, w ≤ n ∧ s.trace[n]? = some (.memWrite who addr b) ∧
      (s.memRead c addr).trace = s.trace ++ [.memRead c addr (some n)] ∧
      ((s.memRead c addr).core c).ret = .byte b

/-- 20_memory R94: device-write visibility (what a read may return is log 12). That every recorded
LEVEL(i, 1) is the device raising its line is the model's choice (log 32), and so is that each line has
its own device (log 37). -/
def Obligations.OrderedEventReadShowsDeviceWrites : Prop :=
  ∀ (s : State) (c i addr w l r h : Nat) (v : Byte) (rest : List SeqStep), s.Shaped →
    c < s.cfg.maxCores → s.trace[w]? = some (.memWrite (.device i) addr v) → w < l →
    s.trace[l]? = some (.input (.level i true)) → l < r →
    s.trace[r]? = some (.report c .ordered (.hw i)) →
    (s.core c).seq = .running .hw i h :: rest →
    ∃ n who b, w ≤ n ∧ s.trace[n]? = some (.memWrite who addr b) ∧
      (s.memRead c addr).trace = s.trace ++ [.memRead c addr (some n)] ∧
      ((s.memRead c addr).core c).ret = .byte b

/-- 44_vipi_arbiter R373; 20_memory R93: after an accepted VIPI_SEND and the receive that takes its bit, what
the sender wrote before is visible to the receiver (log 12). -/
def Obligations.VipiSendPublishesMemory : Prop :=
  ∀ (s : State) (a c v w addr : Nat) (b : Byte) (line : Option Nat), s.Shaped →
    a < s.cfg.maxCores → c < s.cfg.maxCores → v < s.cfg.nrVipi →
    (s.core c).enabled.getLsbD v = true → (s.core c).fe = .draining →
    s.trace[w]? = some (.memWrite (.core a) addr b) →
    Completes (.vipiSend a v (BitVec.ofNat 32 (2 ^ c))) 8 s (fun t =>
      Completes (.vipiReceive c) 5 t (fun u => mustSee u.trace c line w = true))

/-- 20_memory R95: no operation of the block, and no step of one, writes ordinary memory. -/
def Obligations.BlockWritesNoOrdinaryMemory : Prop :=
  ∀ (s t : State),
    (∀ i, exec i s = .next t → s.Extends t) ∧ (∀ c m, seqStep c m s = .next t → s.Extends t)

/-! ## Whole-machine rules -/

/-- 20_memory R85: a second write of the same value changes nothing further. -/
def Obligations.RegisterWritesAreIdempotent : Prop :=
  ∀ (s t : State) (c n i : Nat) (k : AccessKind) (v : Word),
    ∀ op ∈ [Instr.writeInfo c k v, .writeWhoami c k v, .writeEvent c k v, .writeIpiSend c k v,
        .writeIpiAck c k v, .writeIpiMaskSet c k v, .writeIpiMaskClr c k v, .writeTarget c k i v,
        .writeSwSet c k n v, .writeSwClr c k n v, .writeMaskSet c k n v, .writeMaskClr c k n v],
      exec op s = .next t → ∃ u, exec op t = .next u ∧ u = { t with trace := u.trace }

/-- 10_state R32, R39, R60, R61: when a core moves, no level and no condition changes, nor any core's
acceptance of interrupts, an input of the environment (45_frontend_config R395, 60_exceptions R458;
log 5, log 14). -/
def Obligations.OnlyTheEnvironmentChangesInputs : Prop :=
  ∀ (s t : State) (c : Nat) (movers : List Mover), s.sched = .core c :: movers → step s = .next t →
    (∀ i, (t.line i).level = (s.line i).level) ∧
    ∀ d, (t.core d).cond = (s.core d).cond ∧ (t.core d).accepts = (s.core d).accepts

/-- 10_state R45, R58: no step removes a diagnostic or a handler, rewrites the total order, or changes a
parameter. -/
def Obligations.RecordsOnlyGrow : Prop :=
  ∀ (s t : State), step s = .next t →
    t.cfg = s.cfg ∧ (∃ l, t.diag = s.diag ++ l) ∧ (∃ l, t.trace = s.trace ++ l) ∧
    ∀ dom idx, s.bound dom idx ≠ none → t.bound dom idx ≠ none

/-- 43_fiq R310: an operation leaves the FIQ state of every core but its own as it is, and so does a
control step. -/
def Obligations.FiqStateIsCoreLocal : Prop :=
  ∀ (s t : State) (d : Nat),
    (∀ i, exec i s = .next t → d ≠ i.core →
      (t.core d).cond = (s.core d).cond ∧ (t.core d).arm = (s.core d).arm ∧
      (t.core d).fiqDisabled = (s.core d).fiqDisabled) ∧
    ∀ c m, (∀ i, m ≠ .op i) → seqStep c m s = .next t → d ≠ c →
      (t.core d).cond = (s.core d).cond ∧ (t.core d).arm = (s.core d).arm ∧
      (t.core d).fiqDisabled = (s.core d).fiqDisabled

/-- 44_vipi_arbiter R350, R357: no operation but VIPI_PEND_OR sets a bit of a `pending`, none but
VIPI_EN_OR a bit of an `enabled`, and no control step of an operation does either. Every step keeps the
pending bits at or above NR_VIPI 0 (10_state R41; that VIPI_PEND_OR does so for every mask is log 19). -/
def Obligations.OnlyPortsSetVipiBits : Prop :=
  ∀ (s t : State),
    (∀ i d b, exec i s = .next t →
      ((∀ c e m, i ≠ .vipiPendOr c e m) → (t.core d).pending.getLsbD b = true →
        (s.core d).pending.getLsbD b = true) ∧
      ((∀ c e m, i ≠ .vipiEnOr c e m) → (t.core d).enabled.getLsbD b = true →
        (s.core d).enabled.getLsbD b = true)) ∧
    (∀ c m d b, (∀ i, m ≠ .op i) → seqStep c m s = .next t →
      ((t.core d).pending.getLsbD b = true → (s.core d).pending.getLsbD b = true) ∧
      ((t.core d).enabled.getLsbD b = true → (s.core d).enabled.getLsbD b = true)) ∧
    (s.PendingInRange → step s = .next t → t.PendingInRange)

/-- 10_state R32 to R45, R67: the invariants hold at power-on, for every well-formed choice of the
parameters and every drawn value. Every step keeps each of them: StepKeepsShape,
StepKeepsAffinityExclusion, StepKeepsOneTrapPerDrain, OnlyPortsSetVipiBits (pending bits: R41),
StepKeepsMemoryHistory (the canonical form of the memory history: log 26). -/
def Obligations.InvariantsHoldAtPowerOn : Prop :=
  ∀ (cfg : Config) (d : PowerOn), cfg.Wf →
    (State.powerOn cfg d).Shaped ∧ (State.powerOn cfg d).LockHeldByRegion ∧
    (State.powerOn cfg d).DrainingIsOneTrap ∧ (State.powerOn cfg d).PendingInRange ∧
    Memory.wf (State.powerOn cfg d).trace = true

/-- 00_scope R7 to R12; 10_state R32 to R45: every step keeps the parameters in their constraints and one
entry for every line, core, cause and index. -/
def Obligations.StepKeepsShape : Prop :=
  ∀ (s t : State), s.Shaped → step s = .next t → t.Shaped

/-- 10_state R48; 70_reset_and_hazards R518: `aff_lock` is a mutual exclusion: every step keeps it held by
exactly the core that is in the region. -/
def Obligations.StepKeepsAffinityExclusion : Prop :=
  ∀ (s t : State), s.LockHeldByRegion → step s = .next t → t.LockHeldByRegion

/-- 45_frontend_config R394, R395: every step keeps a core in Draining exactly while it runs one TRAP, and
every core Idle before the front-end is armed. -/
def Obligations.StepKeepsOneTrapPerDrain : Prop :=
  ∀ (s t : State), s.DrainingIsOneTrap → step s = .next t → t.DrainingIsOneTrap

/-- Every step keeps the memory history in its canonical form (log 26, the model's choice: 20_memory R95
leaves the model of ordinary memory to the reader): a recorded read returned an earlier write to its
address or the initial value (R93). -/
def Obligations.StepKeepsMemoryHistory : Prop :=
  ∀ (s t : State), Memory.wf s.trace = true → step s = .next t → Memory.wf t.trace = true
end

