-- ==== Sys2Proof/Laws/Encoding.lean ====
section
/-!
SUPPORT. The register map read both ways, and the words of a packet: what decoding and encoding share.
-/

namespace Sys2Proof

/-- The registers that exist under the parameters (30_encoding R110, R111). -/
def Reg.Valid (cfg : Config) : Reg → Prop
  | .target i => i < cfg.nrHw
  | .swSet n | .swClr n | .maskSet n | .maskClr n => n < cfg.nBank
  | .info | .whoami | .event | .ipiSend | .ipiAck | .ipiMaskSet | .ipiMaskClr => True

/-- Two ranges of the register map, by their places in the table. -/
theorem ranges_disjoint {cfg : Config} (h : cfg.RegmapWf) (j k : Nat) {p q : Nat × Nat}
    (hj : cfg.ranges[j]? = some p) (hk : cfg.ranges[k]? = some q) (hjk : j < k) :
    disjointRanges p q := by
  obtain ⟨h1, rfl⟩ := List.getElem?_eq_some_iff.1 hj
  obtain ⟨h2, rfl⟩ := List.getElem?_eq_some_iff.1 hk
  exact List.pairwise_iff_getElem.1 h.2 j k h1 h2 hjk

/-- Every offset of a register is a multiple of 4 and one word. -/
theorem offsetOf_bounds {cfg : Config} (h : cfg.RegmapWf) {r : Reg} (hr : r.Valid cfg) :
    offsetOf cfg r % 4 = 0 ∧ offsetOf cfg r < 2 ^ 32 := by
  have hb := h.1
  simp only [Config.ranges, List.mem_cons, List.not_mem_nil, or_false, forall_eq_or_imp,
    forall_eq] at hb
  cases r <;> simp only [offsetOf, Reg.Valid] at hr ⊢ <;> omega

/-- An offset inside one range is not the offset of a single register elsewhere. -/
theorem out_one {a b n i : Nat} (h : disjointRanges (a, 1) (b, n)) (hi : i < n) : ¬ b + 4 * i = a := by
  simp only [disjointRanges] at h
  omega

/-- An offset inside one range is in no other. -/
theorem out_range {a m b n i : Nat} (h : disjointRanges (a, m) (b, n)) (hi : i < n) :
    ¬ inRange a m (b + 4 * i) := by
  simp only [disjointRanges, inRange] at h ⊢
  omega

/-- The register at the offset of a register is that register. -/
theorem regAt_offsetOf {cfg : Config} (h : cfg.RegmapWf) {r : Reg} (hr : r.Valid cfg) :
    regAt cfg (offsetOf cfg r) = some r := by
  have one := fun j k {a b n} (hj : cfg.ranges[j]? = some (a, 1)) (hk : cfg.ranges[k]? = some (b, n))
    (hjk : j < k) {i} (hi : i < n) => out_one (i := i) (ranges_disjoint h j k hj hk hjk) hi
  have range := fun j k {a m b n} (hj : cfg.ranges[j]? = some (a, m))
    (hk : cfg.ranges[k]? = some (b, n)) (hjk : j < k) {i} (hi : i < n) =>
    out_range (i := i) (ranges_disjoint h j k hj hk hjk) hi
  have in0 : ∀ b n i, i < n → inRange b n (b + 4 * i) := fun b n i hi => ⟨by omega, by omega⟩
  cases r with
  | info => simp [regAt, offsetOf]
  | whoami =>
    exact (if_neg (one 0 1 rfl rfl (by decide) (i := 0) Nat.one_pos)).trans (if_pos rfl)
  | event =>
    exact (if_neg (one 0 2 rfl rfl (by decide) (i := 0) Nat.one_pos)).trans
      ((if_neg (one 1 2 rfl rfl (by decide) (i := 0) Nat.one_pos)).trans (if_pos rfl))
  | ipiSend =>
    exact (if_neg (one 0 3 rfl rfl (by decide) (i := 0) Nat.one_pos)).trans
      ((if_neg (one 1 3 rfl rfl (by decide) (i := 0) Nat.one_pos)).trans
      ((if_neg (one 2 3 rfl rfl (by decide) (i := 0) Nat.one_pos)).trans (if_pos rfl)))
  | ipiAck =>
    exact (if_neg (one 0 4 rfl rfl (by decide) (i := 0) Nat.one_pos)).trans
      ((if_neg (one 1 4 rfl rfl (by decide) (i := 0) Nat.one_pos)).trans
      ((if_neg (one 2 4 rfl rfl (by decide) (i := 0) Nat.one_pos)).trans
      ((if_neg (one 3 4 rfl rfl (by decide) (i := 0) Nat.one_pos)).trans (if_pos rfl))))
  | ipiMaskSet =>
    exact (if_neg (one 0 5 rfl rfl (by decide) (i := 0) Nat.one_pos)).trans
      ((if_neg (one 1 5 rfl rfl (by decide) (i := 0) Nat.one_pos)).trans
      ((if_neg (one 2 5 rfl rfl (by decide) (i := 0) Nat.one_pos)).trans
      ((if_neg (one 3 5 rfl rfl (by decide) (i := 0) Nat.one_pos)).trans
      ((if_neg (one 4 5 rfl rfl (by decide) (i := 0) Nat.one_pos)).trans (if_pos rfl)))))
  | ipiMaskClr =>
    exact (if_neg (one 0 6 rfl rfl (by decide) (i := 0) Nat.one_pos)).trans
      ((if_neg (one 1 6 rfl rfl (by decide) (i := 0) Nat.one_pos)).trans
      ((if_neg (one 2 6 rfl rfl (by decide) (i := 0) Nat.one_pos)).trans
      ((if_neg (one 3 6 rfl rfl (by decide) (i := 0) Nat.one_pos)).trans
      ((if_neg (one 4 6 rfl rfl (by decide) (i := 0) Nat.one_pos)).trans
      ((if_neg (one 5 6 rfl rfl (by decide) (i := 0) Nat.one_pos)).trans (if_pos rfl))))))
  | target i =>
    have hv : some (Reg.target ((cfg.regmap.target + 4 * i - cfg.regmap.target) / 4)) = some (Reg.target i) := by
      simp
    exact (if_neg (one 0 7 rfl rfl (by decide) hr)).trans
      ((if_neg (one 1 7 rfl rfl (by decide) hr)).trans
      ((if_neg (one 2 7 rfl rfl (by decide) hr)).trans
      ((if_neg (one 3 7 rfl rfl (by decide) hr)).trans
      ((if_neg (one 4 7 rfl rfl (by decide) hr)).trans
      ((if_neg (one 5 7 rfl rfl (by decide) hr)).trans
      ((if_neg (one 6 7 rfl rfl (by decide) hr)).trans
      ((if_pos (in0 _ _ _ hr)).trans hv)))))))
  | swSet n =>
    have hv : some (Reg.swSet ((cfg.regmap.swSet + 4 * n - cfg.regmap.swSet) / 4)) = some (Reg.swSet n) := by
      simp
    exact (if_neg (one 0 8 rfl rfl (by decide) hr)).trans
      ((if_neg (one 1 8 rfl rfl (by decide) hr)).trans
      ((if_neg (one 2 8 rfl rfl (by decide) hr)).trans
      ((if_neg (one 3 8 rfl rfl (by decide) hr)).trans
      ((if_neg (one 4 8 rfl rfl (by decide) hr)).trans
      ((if_neg (one 5 8 rfl rfl (by decide) hr)).trans
      ((if_neg (one 6 8 rfl rfl (by decide) hr)).trans
      ((if_neg (range 7 8 rfl rfl (by decide) hr)).trans
      ((if_pos (in0 _ _ _ hr)).trans hv))))))))
  | swClr n =>
    have hv : some (Reg.swClr ((cfg.regmap.swClr + 4 * n - cfg.regmap.swClr) / 4)) = some (Reg.swClr n) := by
      simp
    exact (if_neg (one 0 9 rfl rfl (by decide) hr)).trans
      ((if_neg (one 1 9 rfl rfl (by decide) hr)).trans
      ((if_neg (one 2 9 rfl rfl (by decide) hr)).trans
      ((if_neg (one 3 9 rfl rfl (by decide) hr)).trans
      ((if_neg (one 4 9 rfl rfl (by decide) hr)).trans
      ((if_neg (one 5 9 rfl rfl (by decide) hr)).trans
      ((if_neg (one 6 9 rfl rfl (by decide) hr)).trans
      ((if_neg (range 7 9 rfl rfl (by decide) hr)).trans
      ((if_neg (range 8 9 rfl rfl (by decide) hr)).trans
      ((if_pos (in0 _ _ _ hr)).trans hv)))))))))
  | maskSet n =>
    have hv : some (Reg.maskSet ((cfg.regmap.maskSet + 4 * n - cfg.regmap.maskSet) / 4)) = some (Reg.maskSet n) := by
      simp
    exact (if_neg (one 0 10 rfl rfl (by decide) hr)).trans
      ((if_neg (one 1 10 rfl rfl (by decide) hr)).trans
      ((if_neg (one 2 10 rfl rfl (by decide) hr)).trans
      ((if_neg (one 3 10 rfl rfl (by decide) hr)).trans
      ((if_neg (one 4 10 rfl rfl (by decide) hr)).trans
      ((if_neg (one 5 10 rfl rfl (by decide) hr)).trans
      ((if_neg (one 6 10 rfl rfl (by decide) hr)).trans
      ((if_neg (range 7 10 rfl rfl (by decide) hr)).trans
      ((if_neg (range 8 10 rfl rfl (by decide) hr)).trans
      ((if_neg (range 9 10 rfl rfl (by decide) hr)).trans
      ((if_pos (in0 _ _ _ hr)).trans hv))))))))))
  | maskClr n =>
    have hv : some (Reg.maskClr ((cfg.regmap.maskClr + 4 * n - cfg.regmap.maskClr) / 4)) = some (Reg.maskClr n) := by
      simp
    exact (if_neg (one 0 11 rfl rfl (by decide) hr)).trans
      ((if_neg (one 1 11 rfl rfl (by decide) hr)).trans
      ((if_neg (one 2 11 rfl rfl (by decide) hr)).trans
      ((if_neg (one 3 11 rfl rfl (by decide) hr)).trans
      ((if_neg (one 4 11 rfl rfl (by decide) hr)).trans
      ((if_neg (one 5 11 rfl rfl (by decide) hr)).trans
      ((if_neg (one 6 11 rfl rfl (by decide) hr)).trans
      ((if_neg (range 7 11 rfl rfl (by decide) hr)).trans
      ((if_neg (range 8 11 rfl rfl (by decide) hr)).trans
      ((if_neg (range 9 11 rfl rfl (by decide) hr)).trans
      ((if_neg (range 10 11 rfl rfl (by decide) hr)).trans
      ((if_pos (in0 _ _ _ hr)).trans hv)))))))))))

/-- A register found at a multiple of 4 exists, and that is its offset. -/
theorem offsetOf_regAt {cfg : Config} (h : cfg.RegmapWf) {off : Nat} {r : Reg} (hoff : off % 4 = 0)
    (hr : regAt cfg off = some r) : r.Valid cfg ∧ offsetOf cfg r = off := by
  have hb := h.1
  simp only [Config.ranges, List.mem_cons, List.not_mem_nil, or_false, forall_eq_or_imp,
    forall_eq] at hb
  have fin : ∀ {r' : Reg}, some r' = some r → r'.Valid cfg ∧ offsetOf cfg r' = off →
      r.Valid cfg ∧ offsetOf cfg r = off := by
    rintro r' ⟨⟩ h'; exact h'
  unfold regAt at hr
  dsimp only at hr
  by_cases h0 : off = cfg.regmap.info
  · rw [if_pos h0] at hr; exact fin hr ⟨trivial, h0.symm⟩
  rw [if_neg h0] at hr
  by_cases h1 : off = cfg.regmap.whoami
  · rw [if_pos h1] at hr; exact fin hr ⟨trivial, h1.symm⟩
  rw [if_neg h1] at hr
  by_cases h2 : off = cfg.regmap.event
  · rw [if_pos h2] at hr; exact fin hr ⟨trivial, h2.symm⟩
  rw [if_neg h2] at hr
  by_cases h3 : off = cfg.regmap.ipiSend
  · rw [if_pos h3] at hr; exact fin hr ⟨trivial, h3.symm⟩
  rw [if_neg h3] at hr
  by_cases h4 : off = cfg.regmap.ipiAck
  · rw [if_pos h4] at hr; exact fin hr ⟨trivial, h4.symm⟩
  rw [if_neg h4] at hr
  by_cases h5 : off = cfg.regmap.ipiMaskSet
  · rw [if_pos h5] at hr; exact fin hr ⟨trivial, h5.symm⟩
  rw [if_neg h5] at hr
  by_cases h6 : off = cfg.regmap.ipiMaskClr
  · rw [if_pos h6] at hr; exact fin hr ⟨trivial, h6.symm⟩
  rw [if_neg h6] at hr
  clear h0 h1 h2 h3 h4 h5 h6
  by_cases h7 : inRange cfg.regmap.target cfg.nrHw off
  · rw [if_pos h7] at hr; exact fin hr ⟨h7.2, by simp only [offsetOf]; omega⟩
  rw [if_neg h7] at hr
  by_cases h8 : inRange cfg.regmap.swSet cfg.nBank off
  · rw [if_pos h8] at hr; exact fin hr ⟨h8.2, by simp only [offsetOf]; omega⟩
  rw [if_neg h8] at hr
  by_cases h9 : inRange cfg.regmap.swClr cfg.nBank off
  · rw [if_pos h9] at hr; exact fin hr ⟨h9.2, by simp only [offsetOf]; omega⟩
  rw [if_neg h9] at hr
  by_cases h10 : inRange cfg.regmap.maskSet cfg.nBank off
  · rw [if_pos h10] at hr; exact fin hr ⟨h10.2, by simp only [offsetOf]; omega⟩
  rw [if_neg h10] at hr
  by_cases h11 : inRange cfg.regmap.maskClr cfg.nBank off
  · rw [if_pos h11] at hr; exact fin hr ⟨h11.2, by simp only [offsetOf]; omega⟩
  rw [if_neg h11] at hr
  cases hr

/-! The words of a packet. -/

theorem kindOfBits_kindCodeBit (k : AccessKind) : kindOfBits (kindCodeBit k) = some k := by
  cases k <;> rfl

theorem kindCodeBit_of {n : Nat} {k : AccessKind} (h : kindOfBits n = some k) : kindCodeBit k = n := by
  match n with
  | 0 => cases h; rfl
  | 1 => cases h; rfl
  | n + 2 => cases h

theorem busPacket_fields (cfg : Config) {code : Nat} (k : AccessKind) (r : Reg) (v : Word)
    (h : code < 256) :
    (busPacket cfg code k r v).code = code ∧ (busPacket cfg code k r v).width = 4 ∧
    (busPacket cfg code k r v).kindBits = kindCodeBit k := by
  cases k <;> simp only [busPacket, Packet.code, Packet.width, Packet.kindBits, kindCodeBit,
    BitVec.toNat_ofNat] <;> omega

theorem plainPacket_code {code : Nat} (a b d : Word) (h : code < 256) :
    (plainPacket code a b d).code = code ∧ (plainPacket code a b d).header.toNat / 256 = 0 := by
  simp only [plainPacket, Packet.code, BitVec.toNat_ofNat]; omega

/-- Decoding a register transaction's packet finds the register (30_encoding R111, R124). -/
theorem decodeBus_busPacket {cfg : Config} (h : cfg.RegmapWf) {code : Nat} {k : AccessKind} {r : Reg}
    (v : Word) (make : AccessKind → Reg → Instr) (hc : code < 256) (hr : r.Valid cfg) :
    decodeBus cfg (busPacket cfg code k r v) make = .ok (make k r) := by
  obtain ⟨-, hw, hk⟩ := busPacket_fields cfg k r v hc
  obtain ⟨h4, hlt⟩ := offsetOf_bounds h hr
  have ha : (busPacket cfg code k r v).a.toNat = offsetOf cfg r := by
    simp only [busPacket, BitVec.toNat_ofNat]; exact Nat.mod_eq_of_lt hlt
  simp [decodeBus, hk, kindOfBits_kindCodeBit, hw, ha, h4, regAt_offsetOf h hr]

/-- What decoding a register transaction answers, it read from the packet of that register. -/
theorem busPacket_decodeBus {cfg : Config} (h : cfg.RegmapWf) {p : Packet} {i : Instr}
    {make : AccessKind → Reg → Instr} (hd : decodeBus cfg p make = .ok i) :
    ∃ k r, r.Valid cfg ∧ i = make k r ∧ p.d = p.d ∧
      p = { busPacket cfg p.code k r p.b with d := p.d } := by
  simp only [decodeBus] at hd
  split at hd
  · cases hd
  · rename_i k hk
    split at hd
    · cases hd
    · rename_i hw
      split at hd
      · cases hd
      · rename_i r hr
        cases hd
        have hw4 : p.width = 4 := by omega
        have ha4 : p.a.toNat % 4 = 0 := by omega
        obtain ⟨hv, ho⟩ := offsetOf_regAt h ha4 hr
        refine ⟨k, r, hv, rfl, rfl, ?_⟩
        have hkb := kindCodeBit_of hk
        have hh : p.header = BitVec.ofNat 32 (p.code + 256 * 4 + 65536 * kindCodeBit k) := by
          apply BitVec.eq_of_toNat_eq
          have := p.header.isLt
          simp only [Packet.code, Packet.width, Packet.kindBits] at *
          simp only [BitVec.toNat_ofNat]
          omega
        have ha : p.a = BitVec.ofNat 32 (offsetOf cfg r) := by rw [ho]; simp
        cases p
        simp only [busPacket] at *
        simp only [← hh, ← ha]

/-- Decoding a packet of the operation's code with no bit beyond the operands it uses. -/
theorem decodePlain_ok {p : Packet} {used : Nat} {i : Instr} (hh : p.header.toNat / 256 = 0)
    (ha : p.a = 0 ∨ 1 ≤ used) (hb : p.b = 0 ∨ 2 ≤ used) (hd : p.d = 0 ∨ 3 ≤ used) :
    decodePlain p used i = .ok i := if_pos ⟨hh, ha, hb, hd⟩

/-- What such a packet is, when it decodes. -/
theorem decodePlain_eq {p : Packet} {used : Nat} {i j : Instr} (h : decodePlain p used i = .ok j) :
    j = i ∧ p.header = BitVec.ofNat 32 p.code ∧ (p.a = 0 ∨ 1 ≤ used) ∧ (p.b = 0 ∨ 2 ≤ used) ∧
      (p.d = 0 ∨ 3 ≤ used) := by
  simp only [decodePlain] at h
  split at h
  · rename_i hc
    cases h
    refine ⟨rfl, ?_, hc.2⟩
    apply BitVec.eq_of_toNat_eq
    have := hc.1
    simp only [Packet.code, BitVec.toNat_ofNat]
    omega
  · cases h

end Sys2Proof
end

