-- ==== Sys2Proof/Laws/State.lean ====
section
/-!
SUPPORT. One lemma per field of the state and per update of Machine/Ops.lean, and what each update makes
of one line, one core, one bound entry.
-/

namespace Sys2Proof.Machine

open Sys2Proof

variable (s : State)

@[simp] theorem State.updLine_cfg (i : Nat) (f : Line → Line) : (s.updLine i f).cfg = s.cfg := (rfl)
@[simp] theorem State.updLine_lines (i : Nat) (f : Line → Line) : (s.updLine i f).lines = s.lines.modify i f := (rfl)
@[simp] theorem State.updLine_cores (i : Nat) (f : Line → Line) : (s.updLine i f).cores = s.cores := (rfl)
@[simp] theorem State.updLine_boundHw (i : Nat) (f : Line → Line) : (s.updLine i f).boundHw = s.boundHw := (rfl)
@[simp] theorem State.updLine_boundFiq (i : Nat) (f : Line → Line) : (s.updLine i f).boundFiq = s.boundFiq := (rfl)
@[simp] theorem State.updLine_boundVipi (i : Nat) (f : Line → Line) : (s.updLine i f).boundVipi = s.boundVipi := (rfl)
@[simp] theorem State.updLine_flags (i : Nat) (f : Line → Line) : (s.updLine i f).flags = s.flags := (rfl)
@[simp] theorem State.updLine_affLock (i : Nat) (f : Line → Line) : (s.updLine i f).affLock = s.affLock := (rfl)
@[simp] theorem State.updLine_armed (i : Nat) (f : Line → Line) : (s.updLine i f).armed = s.armed := (rfl)
@[simp] theorem State.updLine_diag (i : Nat) (f : Line → Line) : (s.updLine i f).diag = s.diag := (rfl)
@[simp] theorem State.updLine_refused (i : Nat) (f : Line → Line) : (s.updLine i f).refused = s.refused := (rfl)
@[simp] theorem State.updLine_trace (i : Nat) (f : Line → Line) : (s.updLine i f).trace = s.trace := (rfl)
@[simp] theorem State.updLine_draws (i : Nat) (f : Line → Line) : (s.updLine i f).draws = s.draws := (rfl)
@[simp] theorem State.updLine_sched (i : Nat) (f : Line → Line) : (s.updLine i f).sched = s.sched := (rfl)

@[simp] theorem State.updCore_cfg (c : Nat) (f : CoreState → CoreState) : (s.updCore c f).cfg = s.cfg := (rfl)
@[simp] theorem State.updCore_lines (c : Nat) (f : CoreState → CoreState) : (s.updCore c f).lines = s.lines := (rfl)
@[simp] theorem State.updCore_cores (c : Nat) (f : CoreState → CoreState) : (s.updCore c f).cores = s.cores.modify c f := (rfl)
@[simp] theorem State.updCore_boundHw (c : Nat) (f : CoreState → CoreState) : (s.updCore c f).boundHw = s.boundHw := (rfl)
@[simp] theorem State.updCore_boundFiq (c : Nat) (f : CoreState → CoreState) : (s.updCore c f).boundFiq = s.boundFiq := (rfl)
@[simp] theorem State.updCore_boundVipi (c : Nat) (f : CoreState → CoreState) : (s.updCore c f).boundVipi = s.boundVipi := (rfl)
@[simp] theorem State.updCore_flags (c : Nat) (f : CoreState → CoreState) : (s.updCore c f).flags = s.flags := (rfl)
@[simp] theorem State.updCore_affLock (c : Nat) (f : CoreState → CoreState) : (s.updCore c f).affLock = s.affLock := (rfl)
@[simp] theorem State.updCore_armed (c : Nat) (f : CoreState → CoreState) : (s.updCore c f).armed = s.armed := (rfl)
@[simp] theorem State.updCore_diag (c : Nat) (f : CoreState → CoreState) : (s.updCore c f).diag = s.diag := (rfl)
@[simp] theorem State.updCore_refused (c : Nat) (f : CoreState → CoreState) : (s.updCore c f).refused = s.refused := (rfl)
@[simp] theorem State.updCore_trace (c : Nat) (f : CoreState → CoreState) : (s.updCore c f).trace = s.trace := (rfl)
@[simp] theorem State.updCore_draws (c : Nat) (f : CoreState → CoreState) : (s.updCore c f).draws = s.draws := (rfl)
@[simp] theorem State.updCore_sched (c : Nat) (f : CoreState → CoreState) : (s.updCore c f).sched = s.sched := (rfl)

@[simp] theorem State.updBank_cfg (n : Nat) (v : Word) (f : Line → Line) : (s.updBank n v f).cfg = s.cfg := (rfl)
@[simp] theorem State.updBank_lines (n : Nat) (v : Word) (f : Line → Line) : (s.updBank n v f).lines = mapFrom (fun i l => if inBank n v i then f l else l) 0 s.lines := (rfl)
@[simp] theorem State.updBank_cores (n : Nat) (v : Word) (f : Line → Line) : (s.updBank n v f).cores = s.cores := (rfl)
@[simp] theorem State.updBank_boundHw (n : Nat) (v : Word) (f : Line → Line) : (s.updBank n v f).boundHw = s.boundHw := (rfl)
@[simp] theorem State.updBank_boundFiq (n : Nat) (v : Word) (f : Line → Line) : (s.updBank n v f).boundFiq = s.boundFiq := (rfl)
@[simp] theorem State.updBank_boundVipi (n : Nat) (v : Word) (f : Line → Line) : (s.updBank n v f).boundVipi = s.boundVipi := (rfl)
@[simp] theorem State.updBank_flags (n : Nat) (v : Word) (f : Line → Line) : (s.updBank n v f).flags = s.flags := (rfl)
@[simp] theorem State.updBank_affLock (n : Nat) (v : Word) (f : Line → Line) : (s.updBank n v f).affLock = s.affLock := (rfl)
@[simp] theorem State.updBank_armed (n : Nat) (v : Word) (f : Line → Line) : (s.updBank n v f).armed = s.armed := (rfl)
@[simp] theorem State.updBank_diag (n : Nat) (v : Word) (f : Line → Line) : (s.updBank n v f).diag = s.diag := (rfl)
@[simp] theorem State.updBank_refused (n : Nat) (v : Word) (f : Line → Line) : (s.updBank n v f).refused = s.refused := (rfl)
@[simp] theorem State.updBank_trace (n : Nat) (v : Word) (f : Line → Line) : (s.updBank n v f).trace = s.trace := (rfl)
@[simp] theorem State.updBank_draws (n : Nat) (v : Word) (f : Line → Line) : (s.updBank n v f).draws = s.draws := (rfl)
@[simp] theorem State.updBank_sched (n : Nat) (v : Word) (f : Line → Line) : (s.updBank n v f).sched = s.sched := (rfl)

@[simp] theorem State.note_cfg (e : Event) : (s.note e).cfg = s.cfg := (rfl)
@[simp] theorem State.note_lines (e : Event) : (s.note e).lines = s.lines := (rfl)
@[simp] theorem State.note_cores (e : Event) : (s.note e).cores = s.cores := (rfl)
@[simp] theorem State.note_boundHw (e : Event) : (s.note e).boundHw = s.boundHw := (rfl)
@[simp] theorem State.note_boundFiq (e : Event) : (s.note e).boundFiq = s.boundFiq := (rfl)
@[simp] theorem State.note_boundVipi (e : Event) : (s.note e).boundVipi = s.boundVipi := (rfl)
@[simp] theorem State.note_flags (e : Event) : (s.note e).flags = s.flags := (rfl)
@[simp] theorem State.note_affLock (e : Event) : (s.note e).affLock = s.affLock := (rfl)
@[simp] theorem State.note_armed (e : Event) : (s.note e).armed = s.armed := (rfl)
@[simp] theorem State.note_diag (e : Event) : (s.note e).diag = s.diag := (rfl)
@[simp] theorem State.note_refused (e : Event) : (s.note e).refused = s.refused := (rfl)
@[simp] theorem State.note_trace (e : Event) : (s.note e).trace = s.trace ++ [e] := (rfl)
@[simp] theorem State.note_draws (e : Event) : (s.note e).draws = s.draws := (rfl)
@[simp] theorem State.note_sched (e : Event) : (s.note e).sched = s.sched := (rfl)

@[simp] theorem State.access_cfg (c : Nat) (k : Option AccessKind) (rs ws : List Loc) : (s.access c k rs ws).cfg = s.cfg := (rfl)
@[simp] theorem State.access_lines (c : Nat) (k : Option AccessKind) (rs ws : List Loc) : (s.access c k rs ws).lines = s.lines := (rfl)
@[simp] theorem State.access_cores (c : Nat) (k : Option AccessKind) (rs ws : List Loc) : (s.access c k rs ws).cores = s.cores := (rfl)
@[simp] theorem State.access_boundHw (c : Nat) (k : Option AccessKind) (rs ws : List Loc) : (s.access c k rs ws).boundHw = s.boundHw := (rfl)
@[simp] theorem State.access_boundFiq (c : Nat) (k : Option AccessKind) (rs ws : List Loc) : (s.access c k rs ws).boundFiq = s.boundFiq := (rfl)
@[simp] theorem State.access_boundVipi (c : Nat) (k : Option AccessKind) (rs ws : List Loc) : (s.access c k rs ws).boundVipi = s.boundVipi := (rfl)
@[simp] theorem State.access_flags (c : Nat) (k : Option AccessKind) (rs ws : List Loc) : (s.access c k rs ws).flags = s.flags := (rfl)
@[simp] theorem State.access_affLock (c : Nat) (k : Option AccessKind) (rs ws : List Loc) : (s.access c k rs ws).affLock = s.affLock := (rfl)
@[simp] theorem State.access_armed (c : Nat) (k : Option AccessKind) (rs ws : List Loc) : (s.access c k rs ws).armed = s.armed := (rfl)
@[simp] theorem State.access_diag (c : Nat) (k : Option AccessKind) (rs ws : List Loc) : (s.access c k rs ws).diag = s.diag := (rfl)
@[simp] theorem State.access_refused (c : Nat) (k : Option AccessKind) (rs ws : List Loc) : (s.access c k rs ws).refused = s.refused := (rfl)
@[simp] theorem State.access_trace (c : Nat) (k : Option AccessKind) (rs ws : List Loc) : (s.access c k rs ws).trace = s.trace ++ [.access c k rs ws] := (rfl)
@[simp] theorem State.access_draws (c : Nat) (k : Option AccessKind) (rs ws : List Loc) : (s.access c k rs ws).draws = s.draws := (rfl)
@[simp] theorem State.access_sched (c : Nat) (k : Option AccessKind) (rs ws : List Loc) : (s.access c k rs ws).sched = s.sched := (rfl)

@[simp] theorem State.reply_cfg (c : Nat) (r : Result) : (s.reply c r).cfg = s.cfg := (rfl)
@[simp] theorem State.reply_lines (c : Nat) (r : Result) : (s.reply c r).lines = s.lines := (rfl)
@[simp] theorem State.reply_cores (c : Nat) (r : Result) : (s.reply c r).cores = s.cores.modify c (fun k => { k with ret := r }) := (rfl)
@[simp] theorem State.reply_boundHw (c : Nat) (r : Result) : (s.reply c r).boundHw = s.boundHw := (rfl)
@[simp] theorem State.reply_boundFiq (c : Nat) (r : Result) : (s.reply c r).boundFiq = s.boundFiq := (rfl)
@[simp] theorem State.reply_boundVipi (c : Nat) (r : Result) : (s.reply c r).boundVipi = s.boundVipi := (rfl)
@[simp] theorem State.reply_flags (c : Nat) (r : Result) : (s.reply c r).flags = s.flags := (rfl)
@[simp] theorem State.reply_affLock (c : Nat) (r : Result) : (s.reply c r).affLock = s.affLock := (rfl)
@[simp] theorem State.reply_armed (c : Nat) (r : Result) : (s.reply c r).armed = s.armed := (rfl)
@[simp] theorem State.reply_diag (c : Nat) (r : Result) : (s.reply c r).diag = s.diag := (rfl)
@[simp] theorem State.reply_refused (c : Nat) (r : Result) : (s.reply c r).refused = s.refused := (rfl)
@[simp] theorem State.reply_trace (c : Nat) (r : Result) : (s.reply c r).trace = s.trace := (rfl)
@[simp] theorem State.reply_draws (c : Nat) (r : Result) : (s.reply c r).draws = s.draws := (rfl)
@[simp] theorem State.reply_sched (c : Nat) (r : Result) : (s.reply c r).sched = s.sched := (rfl)

@[simp] theorem State.call_cfg (c : Nat) (l : List SeqStep) : (s.call c l).cfg = s.cfg := (rfl)
@[simp] theorem State.call_lines (c : Nat) (l : List SeqStep) : (s.call c l).lines = s.lines := (rfl)
@[simp] theorem State.call_cores (c : Nat) (l : List SeqStep) : (s.call c l).cores = s.cores.modify c (fun k => { k with seq := l ++ k.seq }) := (rfl)
@[simp] theorem State.call_boundHw (c : Nat) (l : List SeqStep) : (s.call c l).boundHw = s.boundHw := (rfl)
@[simp] theorem State.call_boundFiq (c : Nat) (l : List SeqStep) : (s.call c l).boundFiq = s.boundFiq := (rfl)
@[simp] theorem State.call_boundVipi (c : Nat) (l : List SeqStep) : (s.call c l).boundVipi = s.boundVipi := (rfl)
@[simp] theorem State.call_flags (c : Nat) (l : List SeqStep) : (s.call c l).flags = s.flags := (rfl)
@[simp] theorem State.call_affLock (c : Nat) (l : List SeqStep) : (s.call c l).affLock = s.affLock := (rfl)
@[simp] theorem State.call_armed (c : Nat) (l : List SeqStep) : (s.call c l).armed = s.armed := (rfl)
@[simp] theorem State.call_diag (c : Nat) (l : List SeqStep) : (s.call c l).diag = s.diag := (rfl)
@[simp] theorem State.call_refused (c : Nat) (l : List SeqStep) : (s.call c l).refused = s.refused := (rfl)
@[simp] theorem State.call_trace (c : Nat) (l : List SeqStep) : (s.call c l).trace = s.trace := (rfl)
@[simp] theorem State.call_draws (c : Nat) (l : List SeqStep) : (s.call c l).draws = s.draws := (rfl)
@[simp] theorem State.call_sched (c : Nat) (l : List SeqStep) : (s.call c l).sched = s.sched := (rfl)

@[simp] theorem State.refuse_cfg (r : RefuseReason) : (s.refuse r).cfg = s.cfg := (rfl)
@[simp] theorem State.refuse_lines (r : RefuseReason) : (s.refuse r).lines = s.lines := (rfl)
@[simp] theorem State.refuse_cores (r : RefuseReason) : (s.refuse r).cores = s.cores := (rfl)
@[simp] theorem State.refuse_boundHw (r : RefuseReason) : (s.refuse r).boundHw = s.boundHw := (rfl)
@[simp] theorem State.refuse_boundFiq (r : RefuseReason) : (s.refuse r).boundFiq = s.boundFiq := (rfl)
@[simp] theorem State.refuse_boundVipi (r : RefuseReason) : (s.refuse r).boundVipi = s.boundVipi := (rfl)
@[simp] theorem State.refuse_flags (r : RefuseReason) : (s.refuse r).flags = s.flags := (rfl)
@[simp] theorem State.refuse_affLock (r : RefuseReason) : (s.refuse r).affLock = s.affLock := (rfl)
@[simp] theorem State.refuse_armed (r : RefuseReason) : (s.refuse r).armed = s.armed := (rfl)
@[simp] theorem State.refuse_diag (r : RefuseReason) : (s.refuse r).diag = s.diag := (rfl)
@[simp] theorem State.refuse_refused (r : RefuseReason) : (s.refuse r).refused = some r := (rfl)
@[simp] theorem State.refuse_trace (r : RefuseReason) : (s.refuse r).trace = s.trace := (rfl)
@[simp] theorem State.refuse_draws (r : RefuseReason) : (s.refuse r).draws = s.draws := (rfl)
@[simp] theorem State.refuse_sched (r : RefuseReason) : (s.refuse r).sched = s.sched := (rfl)

@[simp] theorem State.addDiag_cfg (c : Nat) (code : DiagCode) (info : DiagInfo) : (s.addDiag c code info).cfg = s.cfg := (rfl)
@[simp] theorem State.addDiag_lines (c : Nat) (code : DiagCode) (info : DiagInfo) : (s.addDiag c code info).lines = s.lines := (rfl)
@[simp] theorem State.addDiag_cores (c : Nat) (code : DiagCode) (info : DiagInfo) : (s.addDiag c code info).cores = s.cores := (rfl)
@[simp] theorem State.addDiag_boundHw (c : Nat) (code : DiagCode) (info : DiagInfo) : (s.addDiag c code info).boundHw = s.boundHw := (rfl)
@[simp] theorem State.addDiag_boundFiq (c : Nat) (code : DiagCode) (info : DiagInfo) : (s.addDiag c code info).boundFiq = s.boundFiq := (rfl)
@[simp] theorem State.addDiag_boundVipi (c : Nat) (code : DiagCode) (info : DiagInfo) : (s.addDiag c code info).boundVipi = s.boundVipi := (rfl)
@[simp] theorem State.addDiag_flags (c : Nat) (code : DiagCode) (info : DiagInfo) : (s.addDiag c code info).flags = s.flags := (rfl)
@[simp] theorem State.addDiag_affLock (c : Nat) (code : DiagCode) (info : DiagInfo) : (s.addDiag c code info).affLock = s.affLock := (rfl)
@[simp] theorem State.addDiag_armed (c : Nat) (code : DiagCode) (info : DiagInfo) : (s.addDiag c code info).armed = s.armed := (rfl)
@[simp] theorem State.addDiag_diag (c : Nat) (code : DiagCode) (info : DiagInfo) : (s.addDiag c code info).diag = s.diag ++ [⟨c, code, info⟩] := (rfl)
@[simp] theorem State.addDiag_refused (c : Nat) (code : DiagCode) (info : DiagInfo) : (s.addDiag c code info).refused = s.refused := (rfl)
@[simp] theorem State.addDiag_trace (c : Nat) (code : DiagCode) (info : DiagInfo) : (s.addDiag c code info).trace = s.trace ++ [.access c none [] [.diag]] := (rfl)
@[simp] theorem State.addDiag_draws (c : Nat) (code : DiagCode) (info : DiagInfo) : (s.addDiag c code info).draws = s.draws := (rfl)
@[simp] theorem State.addDiag_sched (c : Nat) (code : DiagCode) (info : DiagInfo) : (s.addDiag c code info).sched = s.sched := (rfl)

@[simp] theorem State.setArm_cfg (c k : Nat) (v : Bool) : (s.setArm c k v).cfg = s.cfg := (rfl)
@[simp] theorem State.setArm_lines (c k : Nat) (v : Bool) : (s.setArm c k v).lines = s.lines := (rfl)
@[simp] theorem State.setArm_cores (c k : Nat) (v : Bool) : (s.setArm c k v).cores = s.cores.modify c (fun st => { st with arm := st.arm.set k v }) := (rfl)
@[simp] theorem State.setArm_boundHw (c k : Nat) (v : Bool) : (s.setArm c k v).boundHw = s.boundHw := (rfl)
@[simp] theorem State.setArm_boundFiq (c k : Nat) (v : Bool) : (s.setArm c k v).boundFiq = s.boundFiq := (rfl)
@[simp] theorem State.setArm_boundVipi (c k : Nat) (v : Bool) : (s.setArm c k v).boundVipi = s.boundVipi := (rfl)
@[simp] theorem State.setArm_flags (c k : Nat) (v : Bool) : (s.setArm c k v).flags = s.flags := (rfl)
@[simp] theorem State.setArm_affLock (c k : Nat) (v : Bool) : (s.setArm c k v).affLock = s.affLock := (rfl)
@[simp] theorem State.setArm_armed (c k : Nat) (v : Bool) : (s.setArm c k v).armed = s.armed := (rfl)
@[simp] theorem State.setArm_diag (c k : Nat) (v : Bool) : (s.setArm c k v).diag = s.diag := (rfl)
@[simp] theorem State.setArm_refused (c k : Nat) (v : Bool) : (s.setArm c k v).refused = s.refused := (rfl)
@[simp] theorem State.setArm_trace (c k : Nat) (v : Bool) : (s.setArm c k v).trace = s.trace := (rfl)
@[simp] theorem State.setArm_draws (c k : Nat) (v : Bool) : (s.setArm c k v).draws = s.draws := (rfl)
@[simp] theorem State.setArm_sched (c k : Nat) (v : Bool) : (s.setArm c k v).sched = s.sched := (rfl)

@[simp] theorem State.updCores_cfg (f : Nat → CoreState → CoreState) : (s.updCores f).cfg = s.cfg := (rfl)
@[simp] theorem State.updCores_lines (f : Nat → CoreState → CoreState) : (s.updCores f).lines = s.lines := (rfl)
@[simp] theorem State.updCores_cores (f : Nat → CoreState → CoreState) : (s.updCores f).cores = mapFrom f 0 s.cores := (rfl)
@[simp] theorem State.updCores_boundHw (f : Nat → CoreState → CoreState) : (s.updCores f).boundHw = s.boundHw := (rfl)
@[simp] theorem State.updCores_boundFiq (f : Nat → CoreState → CoreState) : (s.updCores f).boundFiq = s.boundFiq := (rfl)
@[simp] theorem State.updCores_boundVipi (f : Nat → CoreState → CoreState) : (s.updCores f).boundVipi = s.boundVipi := (rfl)
@[simp] theorem State.updCores_flags (f : Nat → CoreState → CoreState) : (s.updCores f).flags = s.flags := (rfl)
@[simp] theorem State.updCores_affLock (f : Nat → CoreState → CoreState) : (s.updCores f).affLock = s.affLock := (rfl)
@[simp] theorem State.updCores_armed (f : Nat → CoreState → CoreState) : (s.updCores f).armed = s.armed := (rfl)
@[simp] theorem State.updCores_diag (f : Nat → CoreState → CoreState) : (s.updCores f).diag = s.diag := (rfl)
@[simp] theorem State.updCores_refused (f : Nat → CoreState → CoreState) : (s.updCores f).refused = s.refused := (rfl)
@[simp] theorem State.updCores_trace (f : Nat → CoreState → CoreState) : (s.updCores f).trace = s.trace := (rfl)
@[simp] theorem State.updCores_draws (f : Nat → CoreState → CoreState) : (s.updCores f).draws = s.draws := (rfl)
@[simp] theorem State.updCores_sched (f : Nat → CoreState → CoreState) : (s.updCores f).sched = s.sched := (rfl)

@[simp] theorem State.withDraws_cfg (n : Nat) : (s.withDraws n).cfg = s.cfg := (rfl)
@[simp] theorem State.withDraws_lines (n : Nat) : (s.withDraws n).lines = s.lines := (rfl)
@[simp] theorem State.withDraws_cores (n : Nat) : (s.withDraws n).cores = s.cores := (rfl)
@[simp] theorem State.withDraws_boundHw (n : Nat) : (s.withDraws n).boundHw = s.boundHw := (rfl)
@[simp] theorem State.withDraws_boundFiq (n : Nat) : (s.withDraws n).boundFiq = s.boundFiq := (rfl)
@[simp] theorem State.withDraws_boundVipi (n : Nat) : (s.withDraws n).boundVipi = s.boundVipi := (rfl)
@[simp] theorem State.withDraws_flags (n : Nat) : (s.withDraws n).flags = s.flags := (rfl)
@[simp] theorem State.withDraws_affLock (n : Nat) : (s.withDraws n).affLock = s.affLock := (rfl)
@[simp] theorem State.withDraws_armed (n : Nat) : (s.withDraws n).armed = s.armed := (rfl)
@[simp] theorem State.withDraws_diag (n : Nat) : (s.withDraws n).diag = s.diag := (rfl)
@[simp] theorem State.withDraws_refused (n : Nat) : (s.withDraws n).refused = s.refused := (rfl)
@[simp] theorem State.withDraws_trace (n : Nat) : (s.withDraws n).trace = s.trace := (rfl)
@[simp] theorem State.withDraws_draws (n : Nat) : (s.withDraws n).draws = n := (rfl)
@[simp] theorem State.withDraws_sched (n : Nat) : (s.withDraws n).sched = s.sched := (rfl)

@[simp] theorem State.withSched_cfg (l : List Mover) : (s.withSched l).cfg = s.cfg := (rfl)
@[simp] theorem State.withSched_lines (l : List Mover) : (s.withSched l).lines = s.lines := (rfl)
@[simp] theorem State.withSched_cores (l : List Mover) : (s.withSched l).cores = s.cores := (rfl)
@[simp] theorem State.withSched_boundHw (l : List Mover) : (s.withSched l).boundHw = s.boundHw := (rfl)
@[simp] theorem State.withSched_boundFiq (l : List Mover) : (s.withSched l).boundFiq = s.boundFiq := (rfl)
@[simp] theorem State.withSched_boundVipi (l : List Mover) : (s.withSched l).boundVipi = s.boundVipi := (rfl)
@[simp] theorem State.withSched_flags (l : List Mover) : (s.withSched l).flags = s.flags := (rfl)
@[simp] theorem State.withSched_affLock (l : List Mover) : (s.withSched l).affLock = s.affLock := (rfl)
@[simp] theorem State.withSched_armed (l : List Mover) : (s.withSched l).armed = s.armed := (rfl)
@[simp] theorem State.withSched_diag (l : List Mover) : (s.withSched l).diag = s.diag := (rfl)
@[simp] theorem State.withSched_refused (l : List Mover) : (s.withSched l).refused = s.refused := (rfl)
@[simp] theorem State.withSched_trace (l : List Mover) : (s.withSched l).trace = s.trace := (rfl)
@[simp] theorem State.withSched_draws (l : List Mover) : (s.withSched l).draws = s.draws := (rfl)
@[simp] theorem State.withSched_sched (l : List Mover) : (s.withSched l).sched = l := (rfl)

@[simp] theorem State.withAffLock_cfg (o : Option Nat) : (s.withAffLock o).cfg = s.cfg := (rfl)
@[simp] theorem State.withAffLock_lines (o : Option Nat) : (s.withAffLock o).lines = s.lines := (rfl)
@[simp] theorem State.withAffLock_cores (o : Option Nat) : (s.withAffLock o).cores = s.cores := (rfl)
@[simp] theorem State.withAffLock_boundHw (o : Option Nat) : (s.withAffLock o).boundHw = s.boundHw := (rfl)
@[simp] theorem State.withAffLock_boundFiq (o : Option Nat) : (s.withAffLock o).boundFiq = s.boundFiq := (rfl)
@[simp] theorem State.withAffLock_boundVipi (o : Option Nat) : (s.withAffLock o).boundVipi = s.boundVipi := (rfl)
@[simp] theorem State.withAffLock_flags (o : Option Nat) : (s.withAffLock o).flags = s.flags := (rfl)
@[simp] theorem State.withAffLock_affLock (o : Option Nat) : (s.withAffLock o).affLock = o := (rfl)
@[simp] theorem State.withAffLock_armed (o : Option Nat) : (s.withAffLock o).armed = s.armed := (rfl)
@[simp] theorem State.withAffLock_diag (o : Option Nat) : (s.withAffLock o).diag = s.diag := (rfl)
@[simp] theorem State.withAffLock_refused (o : Option Nat) : (s.withAffLock o).refused = s.refused := (rfl)
@[simp] theorem State.withAffLock_trace (o : Option Nat) : (s.withAffLock o).trace = s.trace := (rfl)
@[simp] theorem State.withAffLock_draws (o : Option Nat) : (s.withAffLock o).draws = s.draws := (rfl)
@[simp] theorem State.withAffLock_sched (o : Option Nat) : (s.withAffLock o).sched = s.sched := (rfl)

@[simp] theorem State.withArmed_cfg : (s.withArmed).cfg = s.cfg := (rfl)
@[simp] theorem State.withArmed_lines : (s.withArmed).lines = s.lines := (rfl)
@[simp] theorem State.withArmed_cores : (s.withArmed).cores = s.cores := (rfl)
@[simp] theorem State.withArmed_boundHw : (s.withArmed).boundHw = s.boundHw := (rfl)
@[simp] theorem State.withArmed_boundFiq : (s.withArmed).boundFiq = s.boundFiq := (rfl)
@[simp] theorem State.withArmed_boundVipi : (s.withArmed).boundVipi = s.boundVipi := (rfl)
@[simp] theorem State.withArmed_flags : (s.withArmed).flags = s.flags := (rfl)
@[simp] theorem State.withArmed_affLock : (s.withArmed).affLock = s.affLock := (rfl)
@[simp] theorem State.withArmed_armed : (s.withArmed).armed = true := (rfl)
@[simp] theorem State.withArmed_diag : (s.withArmed).diag = s.diag := (rfl)
@[simp] theorem State.withArmed_refused : (s.withArmed).refused = s.refused := (rfl)
@[simp] theorem State.withArmed_trace : (s.withArmed).trace = s.trace := (rfl)
@[simp] theorem State.withArmed_draws : (s.withArmed).draws = s.draws := (rfl)
@[simp] theorem State.withArmed_sched : (s.withArmed).sched = s.sched := (rfl)

@[simp] theorem State.setSeq_cfg (c : Nat) (l : List SeqStep) : (s.setSeq c l).cfg = s.cfg := (rfl)
@[simp] theorem State.setSeq_lines (c : Nat) (l : List SeqStep) : (s.setSeq c l).lines = s.lines := (rfl)
@[simp] theorem State.setSeq_cores (c : Nat) (l : List SeqStep) : (s.setSeq c l).cores = s.cores.modify c (fun k => { k with seq := l }) := (rfl)
@[simp] theorem State.setSeq_boundHw (c : Nat) (l : List SeqStep) : (s.setSeq c l).boundHw = s.boundHw := (rfl)
@[simp] theorem State.setSeq_boundFiq (c : Nat) (l : List SeqStep) : (s.setSeq c l).boundFiq = s.boundFiq := (rfl)
@[simp] theorem State.setSeq_boundVipi (c : Nat) (l : List SeqStep) : (s.setSeq c l).boundVipi = s.boundVipi := (rfl)
@[simp] theorem State.setSeq_flags (c : Nat) (l : List SeqStep) : (s.setSeq c l).flags = s.flags := (rfl)
@[simp] theorem State.setSeq_affLock (c : Nat) (l : List SeqStep) : (s.setSeq c l).affLock = s.affLock := (rfl)
@[simp] theorem State.setSeq_armed (c : Nat) (l : List SeqStep) : (s.setSeq c l).armed = s.armed := (rfl)
@[simp] theorem State.setSeq_diag (c : Nat) (l : List SeqStep) : (s.setSeq c l).diag = s.diag := (rfl)
@[simp] theorem State.setSeq_refused (c : Nat) (l : List SeqStep) : (s.setSeq c l).refused = s.refused := (rfl)
@[simp] theorem State.setSeq_trace (c : Nat) (l : List SeqStep) : (s.setSeq c l).trace = s.trace := (rfl)
@[simp] theorem State.setSeq_draws (c : Nat) (l : List SeqStep) : (s.setSeq c l).draws = s.draws := (rfl)
@[simp] theorem State.setSeq_sched (c : Nat) (l : List SeqStep) : (s.setSeq c l).sched = s.sched := (rfl)

@[simp] theorem State.setQueue_cfg (c : Nat) (l : List Request) : (s.setQueue c l).cfg = s.cfg := (rfl)
@[simp] theorem State.setQueue_lines (c : Nat) (l : List Request) : (s.setQueue c l).lines = s.lines := (rfl)
@[simp] theorem State.setQueue_cores (c : Nat) (l : List Request) : (s.setQueue c l).cores = s.cores.modify c (fun k => { k with queue := l }) := (rfl)
@[simp] theorem State.setQueue_boundHw (c : Nat) (l : List Request) : (s.setQueue c l).boundHw = s.boundHw := (rfl)
@[simp] theorem State.setQueue_boundFiq (c : Nat) (l : List Request) : (s.setQueue c l).boundFiq = s.boundFiq := (rfl)
@[simp] theorem State.setQueue_boundVipi (c : Nat) (l : List Request) : (s.setQueue c l).boundVipi = s.boundVipi := (rfl)
@[simp] theorem State.setQueue_flags (c : Nat) (l : List Request) : (s.setQueue c l).flags = s.flags := (rfl)
@[simp] theorem State.setQueue_affLock (c : Nat) (l : List Request) : (s.setQueue c l).affLock = s.affLock := (rfl)
@[simp] theorem State.setQueue_armed (c : Nat) (l : List Request) : (s.setQueue c l).armed = s.armed := (rfl)
@[simp] theorem State.setQueue_diag (c : Nat) (l : List Request) : (s.setQueue c l).diag = s.diag := (rfl)
@[simp] theorem State.setQueue_refused (c : Nat) (l : List Request) : (s.setQueue c l).refused = s.refused := (rfl)
@[simp] theorem State.setQueue_trace (c : Nat) (l : List Request) : (s.setQueue c l).trace = s.trace := (rfl)
@[simp] theorem State.setQueue_draws (c : Nat) (l : List Request) : (s.setQueue c l).draws = s.draws := (rfl)
@[simp] theorem State.setQueue_sched (c : Nat) (l : List Request) : (s.setQueue c l).sched = s.sched := (rfl)

@[simp] theorem State.setFe_cfg (c : Nat) (f : FrontEnd) : (s.setFe c f).cfg = s.cfg := (rfl)
@[simp] theorem State.setFe_lines (c : Nat) (f : FrontEnd) : (s.setFe c f).lines = s.lines := (rfl)
@[simp] theorem State.setFe_cores (c : Nat) (f : FrontEnd) : (s.setFe c f).cores = s.cores.modify c (fun k => { k with fe := f }) := (rfl)
@[simp] theorem State.setFe_boundHw (c : Nat) (f : FrontEnd) : (s.setFe c f).boundHw = s.boundHw := (rfl)
@[simp] theorem State.setFe_boundFiq (c : Nat) (f : FrontEnd) : (s.setFe c f).boundFiq = s.boundFiq := (rfl)
@[simp] theorem State.setFe_boundVipi (c : Nat) (f : FrontEnd) : (s.setFe c f).boundVipi = s.boundVipi := (rfl)
@[simp] theorem State.setFe_flags (c : Nat) (f : FrontEnd) : (s.setFe c f).flags = s.flags := (rfl)
@[simp] theorem State.setFe_affLock (c : Nat) (f : FrontEnd) : (s.setFe c f).affLock = s.affLock := (rfl)
@[simp] theorem State.setFe_armed (c : Nat) (f : FrontEnd) : (s.setFe c f).armed = s.armed := (rfl)
@[simp] theorem State.setFe_diag (c : Nat) (f : FrontEnd) : (s.setFe c f).diag = s.diag := (rfl)
@[simp] theorem State.setFe_refused (c : Nat) (f : FrontEnd) : (s.setFe c f).refused = s.refused := (rfl)
@[simp] theorem State.setFe_trace (c : Nat) (f : FrontEnd) : (s.setFe c f).trace = s.trace := (rfl)
@[simp] theorem State.setFe_draws (c : Nat) (f : FrontEnd) : (s.setFe c f).draws = s.draws := (rfl)
@[simp] theorem State.setFe_sched (c : Nat) (f : FrontEnd) : (s.setFe c f).sched = s.sched := (rfl)

@[simp] theorem State.setPending_cfg (c : Nat) (v : Word) : (s.setPending c v).cfg = s.cfg := (rfl)
@[simp] theorem State.setPending_lines (c : Nat) (v : Word) : (s.setPending c v).lines = s.lines := (rfl)
@[simp] theorem State.setPending_cores (c : Nat) (v : Word) : (s.setPending c v).cores = s.cores.modify c (fun k => { k with pending := v }) := (rfl)
@[simp] theorem State.setPending_boundHw (c : Nat) (v : Word) : (s.setPending c v).boundHw = s.boundHw := (rfl)
@[simp] theorem State.setPending_boundFiq (c : Nat) (v : Word) : (s.setPending c v).boundFiq = s.boundFiq := (rfl)
@[simp] theorem State.setPending_boundVipi (c : Nat) (v : Word) : (s.setPending c v).boundVipi = s.boundVipi := (rfl)
@[simp] theorem State.setPending_flags (c : Nat) (v : Word) : (s.setPending c v).flags = s.flags := (rfl)
@[simp] theorem State.setPending_affLock (c : Nat) (v : Word) : (s.setPending c v).affLock = s.affLock := (rfl)
@[simp] theorem State.setPending_armed (c : Nat) (v : Word) : (s.setPending c v).armed = s.armed := (rfl)
@[simp] theorem State.setPending_diag (c : Nat) (v : Word) : (s.setPending c v).diag = s.diag := (rfl)
@[simp] theorem State.setPending_refused (c : Nat) (v : Word) : (s.setPending c v).refused = s.refused := (rfl)
@[simp] theorem State.setPending_trace (c : Nat) (v : Word) : (s.setPending c v).trace = s.trace := (rfl)
@[simp] theorem State.setPending_draws (c : Nat) (v : Word) : (s.setPending c v).draws = s.draws := (rfl)
@[simp] theorem State.setPending_sched (c : Nat) (v : Word) : (s.setPending c v).sched = s.sched := (rfl)

@[simp] theorem State.setEnabled_cfg (c : Nat) (v : Word) : (s.setEnabled c v).cfg = s.cfg := (rfl)
@[simp] theorem State.setEnabled_lines (c : Nat) (v : Word) : (s.setEnabled c v).lines = s.lines := (rfl)
@[simp] theorem State.setEnabled_cores (c : Nat) (v : Word) : (s.setEnabled c v).cores = s.cores.modify c (fun k => { k with enabled := v }) := (rfl)
@[simp] theorem State.setEnabled_boundHw (c : Nat) (v : Word) : (s.setEnabled c v).boundHw = s.boundHw := (rfl)
@[simp] theorem State.setEnabled_boundFiq (c : Nat) (v : Word) : (s.setEnabled c v).boundFiq = s.boundFiq := (rfl)
@[simp] theorem State.setEnabled_boundVipi (c : Nat) (v : Word) : (s.setEnabled c v).boundVipi = s.boundVipi := (rfl)
@[simp] theorem State.setEnabled_flags (c : Nat) (v : Word) : (s.setEnabled c v).flags = s.flags := (rfl)
@[simp] theorem State.setEnabled_affLock (c : Nat) (v : Word) : (s.setEnabled c v).affLock = s.affLock := (rfl)
@[simp] theorem State.setEnabled_armed (c : Nat) (v : Word) : (s.setEnabled c v).armed = s.armed := (rfl)
@[simp] theorem State.setEnabled_diag (c : Nat) (v : Word) : (s.setEnabled c v).diag = s.diag := (rfl)
@[simp] theorem State.setEnabled_refused (c : Nat) (v : Word) : (s.setEnabled c v).refused = s.refused := (rfl)
@[simp] theorem State.setEnabled_trace (c : Nat) (v : Word) : (s.setEnabled c v).trace = s.trace := (rfl)
@[simp] theorem State.setEnabled_draws (c : Nat) (v : Word) : (s.setEnabled c v).draws = s.draws := (rfl)
@[simp] theorem State.setEnabled_sched (c : Nat) (v : Word) : (s.setEnabled c v).sched = s.sched := (rfl)

@[simp] theorem State.setIpiPend_cfg (c : Nat) (b : IpiBits) : (s.setIpiPend c b).cfg = s.cfg := (rfl)
@[simp] theorem State.setIpiPend_lines (c : Nat) (b : IpiBits) : (s.setIpiPend c b).lines = s.lines := (rfl)
@[simp] theorem State.setIpiPend_cores (c : Nat) (b : IpiBits) : (s.setIpiPend c b).cores = s.cores.modify c (fun k => { k with ipiPend := b }) := (rfl)
@[simp] theorem State.setIpiPend_boundHw (c : Nat) (b : IpiBits) : (s.setIpiPend c b).boundHw = s.boundHw := (rfl)
@[simp] theorem State.setIpiPend_boundFiq (c : Nat) (b : IpiBits) : (s.setIpiPend c b).boundFiq = s.boundFiq := (rfl)
@[simp] theorem State.setIpiPend_boundVipi (c : Nat) (b : IpiBits) : (s.setIpiPend c b).boundVipi = s.boundVipi := (rfl)
@[simp] theorem State.setIpiPend_flags (c : Nat) (b : IpiBits) : (s.setIpiPend c b).flags = s.flags := (rfl)
@[simp] theorem State.setIpiPend_affLock (c : Nat) (b : IpiBits) : (s.setIpiPend c b).affLock = s.affLock := (rfl)
@[simp] theorem State.setIpiPend_armed (c : Nat) (b : IpiBits) : (s.setIpiPend c b).armed = s.armed := (rfl)
@[simp] theorem State.setIpiPend_diag (c : Nat) (b : IpiBits) : (s.setIpiPend c b).diag = s.diag := (rfl)
@[simp] theorem State.setIpiPend_refused (c : Nat) (b : IpiBits) : (s.setIpiPend c b).refused = s.refused := (rfl)
@[simp] theorem State.setIpiPend_trace (c : Nat) (b : IpiBits) : (s.setIpiPend c b).trace = s.trace := (rfl)
@[simp] theorem State.setIpiPend_draws (c : Nat) (b : IpiBits) : (s.setIpiPend c b).draws = s.draws := (rfl)
@[simp] theorem State.setIpiPend_sched (c : Nat) (b : IpiBits) : (s.setIpiPend c b).sched = s.sched := (rfl)

@[simp] theorem State.setIpiMask_cfg (c : Nat) (b : IpiBits) : (s.setIpiMask c b).cfg = s.cfg := (rfl)
@[simp] theorem State.setIpiMask_lines (c : Nat) (b : IpiBits) : (s.setIpiMask c b).lines = s.lines := (rfl)
@[simp] theorem State.setIpiMask_cores (c : Nat) (b : IpiBits) : (s.setIpiMask c b).cores = s.cores.modify c (fun k => { k with ipiMask := b }) := (rfl)
@[simp] theorem State.setIpiMask_boundHw (c : Nat) (b : IpiBits) : (s.setIpiMask c b).boundHw = s.boundHw := (rfl)
@[simp] theorem State.setIpiMask_boundFiq (c : Nat) (b : IpiBits) : (s.setIpiMask c b).boundFiq = s.boundFiq := (rfl)
@[simp] theorem State.setIpiMask_boundVipi (c : Nat) (b : IpiBits) : (s.setIpiMask c b).boundVipi = s.boundVipi := (rfl)
@[simp] theorem State.setIpiMask_flags (c : Nat) (b : IpiBits) : (s.setIpiMask c b).flags = s.flags := (rfl)
@[simp] theorem State.setIpiMask_affLock (c : Nat) (b : IpiBits) : (s.setIpiMask c b).affLock = s.affLock := (rfl)
@[simp] theorem State.setIpiMask_armed (c : Nat) (b : IpiBits) : (s.setIpiMask c b).armed = s.armed := (rfl)
@[simp] theorem State.setIpiMask_diag (c : Nat) (b : IpiBits) : (s.setIpiMask c b).diag = s.diag := (rfl)
@[simp] theorem State.setIpiMask_refused (c : Nat) (b : IpiBits) : (s.setIpiMask c b).refused = s.refused := (rfl)
@[simp] theorem State.setIpiMask_trace (c : Nat) (b : IpiBits) : (s.setIpiMask c b).trace = s.trace := (rfl)
@[simp] theorem State.setIpiMask_draws (c : Nat) (b : IpiBits) : (s.setIpiMask c b).draws = s.draws := (rfl)
@[simp] theorem State.setIpiMask_sched (c : Nat) (b : IpiBits) : (s.setIpiMask c b).sched = s.sched := (rfl)

@[simp] theorem State.setFiqDisabled_cfg (c d : Nat) (v : Bool) : (s.setFiqDisabled c d v).cfg = s.cfg := (rfl)
@[simp] theorem State.setFiqDisabled_lines (c d : Nat) (v : Bool) : (s.setFiqDisabled c d v).lines = s.lines := (rfl)
@[simp] theorem State.setFiqDisabled_cores (c d : Nat) (v : Bool) : (s.setFiqDisabled c d v).cores = s.cores.modify c (fun st => { st with fiqDisabled := st.fiqDisabled.set d v }) := (rfl)
@[simp] theorem State.setFiqDisabled_boundHw (c d : Nat) (v : Bool) : (s.setFiqDisabled c d v).boundHw = s.boundHw := (rfl)
@[simp] theorem State.setFiqDisabled_boundFiq (c d : Nat) (v : Bool) : (s.setFiqDisabled c d v).boundFiq = s.boundFiq := (rfl)
@[simp] theorem State.setFiqDisabled_boundVipi (c d : Nat) (v : Bool) : (s.setFiqDisabled c d v).boundVipi = s.boundVipi := (rfl)
@[simp] theorem State.setFiqDisabled_flags (c d : Nat) (v : Bool) : (s.setFiqDisabled c d v).flags = s.flags := (rfl)
@[simp] theorem State.setFiqDisabled_affLock (c d : Nat) (v : Bool) : (s.setFiqDisabled c d v).affLock = s.affLock := (rfl)
@[simp] theorem State.setFiqDisabled_armed (c d : Nat) (v : Bool) : (s.setFiqDisabled c d v).armed = s.armed := (rfl)
@[simp] theorem State.setFiqDisabled_diag (c d : Nat) (v : Bool) : (s.setFiqDisabled c d v).diag = s.diag := (rfl)
@[simp] theorem State.setFiqDisabled_refused (c d : Nat) (v : Bool) : (s.setFiqDisabled c d v).refused = s.refused := (rfl)
@[simp] theorem State.setFiqDisabled_trace (c d : Nat) (v : Bool) : (s.setFiqDisabled c d v).trace = s.trace := (rfl)
@[simp] theorem State.setFiqDisabled_draws (c d : Nat) (v : Bool) : (s.setFiqDisabled c d v).draws = s.draws := (rfl)
@[simp] theorem State.setFiqDisabled_sched (c d : Nat) (v : Bool) : (s.setFiqDisabled c d v).sched = s.sched := (rfl)

@[simp] theorem State.setBound_cfg (dom : Dom) (idx h : Nat) : (s.setBound dom idx h).cfg = s.cfg := by
  cases dom <;> rfl
@[simp] theorem State.setBound_lines (dom : Dom) (idx h : Nat) : (s.setBound dom idx h).lines = s.lines := by
  cases dom <;> rfl
@[simp] theorem State.setBound_cores (dom : Dom) (idx h : Nat) : (s.setBound dom idx h).cores = s.cores := by
  cases dom <;> rfl
@[simp] theorem State.setBound_flags (dom : Dom) (idx h : Nat) : (s.setBound dom idx h).flags = s.flags := by
  cases dom <;> rfl
@[simp] theorem State.setBound_affLock (dom : Dom) (idx h : Nat) : (s.setBound dom idx h).affLock = s.affLock := by
  cases dom <;> rfl
@[simp] theorem State.setBound_armed (dom : Dom) (idx h : Nat) : (s.setBound dom idx h).armed = s.armed := by
  cases dom <;> rfl
@[simp] theorem State.setBound_diag (dom : Dom) (idx h : Nat) : (s.setBound dom idx h).diag = s.diag := by
  cases dom <;> rfl
@[simp] theorem State.setBound_refused (dom : Dom) (idx h : Nat) : (s.setBound dom idx h).refused = s.refused := by
  cases dom <;> rfl
@[simp] theorem State.setBound_trace (dom : Dom) (idx h : Nat) : (s.setBound dom idx h).trace = s.trace := by
  cases dom <;> rfl
@[simp] theorem State.setBound_draws (dom : Dom) (idx h : Nat) : (s.setBound dom idx h).draws = s.draws := by
  cases dom <;> rfl
@[simp] theorem State.setBound_sched (dom : Dom) (idx h : Nat) : (s.setBound dom idx h).sched = s.sched := by
  cases dom <;> rfl
@[simp] theorem State.setFlags_cfg (dom : Dom) (idx : Nat) (v : Word) :
    (s.setFlags dom idx v).cfg = s.cfg := by cases dom <;> rfl
@[simp] theorem State.setFlags_lines (dom : Dom) (idx : Nat) (v : Word) :
    (s.setFlags dom idx v).lines = s.lines := by cases dom <;> rfl
@[simp] theorem State.setFlags_cores (dom : Dom) (idx : Nat) (v : Word) :
    (s.setFlags dom idx v).cores = s.cores := by cases dom <;> rfl
@[simp] theorem State.setFlags_boundHw (dom : Dom) (idx : Nat) (v : Word) :
    (s.setFlags dom idx v).boundHw = s.boundHw := by cases dom <;> rfl
@[simp] theorem State.setFlags_boundFiq (dom : Dom) (idx : Nat) (v : Word) :
    (s.setFlags dom idx v).boundFiq = s.boundFiq := by cases dom <;> rfl
@[simp] theorem State.setFlags_boundVipi (dom : Dom) (idx : Nat) (v : Word) :
    (s.setFlags dom idx v).boundVipi = s.boundVipi := by cases dom <;> rfl
@[simp] theorem State.setFlags_affLock (dom : Dom) (idx : Nat) (v : Word) :
    (s.setFlags dom idx v).affLock = s.affLock := by cases dom <;> rfl
@[simp] theorem State.setFlags_armed (dom : Dom) (idx : Nat) (v : Word) :
    (s.setFlags dom idx v).armed = s.armed := by cases dom <;> rfl
@[simp] theorem State.setFlags_diag (dom : Dom) (idx : Nat) (v : Word) :
    (s.setFlags dom idx v).diag = s.diag := by cases dom <;> rfl
@[simp] theorem State.setFlags_refused (dom : Dom) (idx : Nat) (v : Word) :
    (s.setFlags dom idx v).refused = s.refused := by cases dom <;> rfl
@[simp] theorem State.setFlags_trace (dom : Dom) (idx : Nat) (v : Word) :
    (s.setFlags dom idx v).trace = s.trace := by cases dom <;> rfl
@[simp] theorem State.setFlags_draws (dom : Dom) (idx : Nat) (v : Word) :
    (s.setFlags dom idx v).draws = s.draws := by cases dom <;> rfl
@[simp] theorem State.setFlags_sched (dom : Dom) (idx : Nat) (v : Word) :
    (s.setFlags dom idx v).sched = s.sched := by cases dom <;> rfl

/-! One element of a list with every element changed by its index. -/

theorem getElem?_mapFrom {α : Type} (f : Nat → α → α) (l : List α) (n i : Nat) :
    (mapFrom f n l)[i]? = l[i]?.map (f (n + i)) := by
  induction l generalizing n i with
  | nil => simp [mapFrom]
  | cons x l ih =>
    cases i with
    | zero => simp [mapFrom]
    | succ i => simp [mapFrom, ih, Nat.add_assoc, Nat.add_comm 1 i]

@[simp] theorem length_mapFrom {α : Type} (f : Nat → α → α) (n : Nat) (l : List α) :
    (mapFrom f n l).length = l.length := by
  induction l generalizing n with
  | nil => rfl
  | cons x l ih => simp [mapFrom, ih]

theorem getD_mapFrom {α : Type} (f : Nat → α → α) (l : List α) (i : Nat) (d : α) :
    (mapFrom f 0 l).getD i d = if i < l.length then f i (l.getD i d) else l.getD i d := by
  simp only [List.getD_eq_getElem?_getD, getElem?_mapFrom, Nat.zero_add]
  by_cases h : i < l.length <;> simp [h]

theorem getD_modify {α : Type} (f : α → α) (l : List α) (i j : Nat) (d : α) :
    (l.modify i f).getD j d = if i = j ∧ j < l.length then f (l.getD j d) else l.getD j d := by
  simp only [List.getD_eq_getElem?_getD, List.getElem?_modify]
  by_cases h : j < l.length
  · by_cases hij : i = j <;> simp [h, hij]
  · simp [h]

/-! One line, one core. -/

theorem State.line_def (i : Nat) : s.line i = s.lines.getD i default := rfl

theorem State.core_def (c : Nat) : s.core c = s.cores.getD c default := rfl

theorem State.updCore_core (c d : Nat) (f : CoreState → CoreState) :
    (s.updCore c f).core d = if c = d ∧ d < s.cores.length then f (s.core d) else s.core d :=
  getD_modify f s.cores c d default

theorem State.updCore_core_self (c : Nat) (f : CoreState → CoreState) (h : c < s.cores.length) :
    (s.updCore c f).core c = f (s.core c) := by simp [State.updCore_core, h]

theorem State.updCore_core_other {c d : Nat} (f : CoreState → CoreState) (h : d ≠ c) :
    (s.updCore c f).core d = s.core d := by simp [State.updCore_core, Ne.symm h]

theorem State.updLine_line (i j : Nat) (f : Line → Line) :
    (s.updLine i f).line j = if i = j ∧ j < s.lines.length then f (s.line j) else s.line j :=
  getD_modify f s.lines i j default

theorem State.updLine_line_self (i : Nat) (f : Line → Line) (h : i < s.lines.length) :
    (s.updLine i f).line i = f (s.line i) := by simp [State.updLine_line, h]

theorem State.updLine_line_other {i j : Nat} (f : Line → Line) (h : j ≠ i) :
    (s.updLine i f).line j = s.line j := by simp [State.updLine_line, Ne.symm h]

theorem State.updBank_line (n : Nat) (v : Word) (f : Line → Line) (i : Nat) :
    (s.updBank n v f).line i =
      if i < s.lines.length ∧ inBank n v i = true then f (s.line i) else s.line i := by
  refine (getD_mapFrom (fun i l => if inBank n v i then f l else l) s.lines i default).trans ?_
  by_cases hi : i < s.lines.length
  · rw [if_pos hi]
    by_cases hb : inBank n v i = true
    · rw [if_pos hb, if_pos ⟨hi, hb⟩]; rfl
    · rw [if_neg hb, if_neg (fun h => hb h.2)]; rfl
  · rw [if_neg hi, if_neg (fun h => hi h.1)]; rfl

@[simp] theorem State.updLine_core (i : Nat) (f : Line → Line) (x : Nat) : (s.updLine i f).core x = s.core x := (rfl)
@[simp] theorem State.updLine_bound (i : Nat) (f : Line → Line) (dom : Dom) (idx : Nat) :
    (s.updLine i f).bound dom idx = s.bound dom idx := (rfl)
@[simp] theorem State.updLine_flagsOf (i : Nat) (f : Line → Line) (dom : Dom) (idx : Nat) :
    (s.updLine i f).flagsOf dom idx = s.flagsOf dom idx := (rfl)

@[simp] theorem State.updCore_line (c : Nat) (f : CoreState → CoreState) (j : Nat) : (s.updCore c f).line j = s.line j := (rfl)
@[simp] theorem State.updCore_bound (c : Nat) (f : CoreState → CoreState) (dom : Dom) (idx : Nat) :
    (s.updCore c f).bound dom idx = s.bound dom idx := (rfl)
@[simp] theorem State.updCore_flagsOf (c : Nat) (f : CoreState → CoreState) (dom : Dom) (idx : Nat) :
    (s.updCore c f).flagsOf dom idx = s.flagsOf dom idx := (rfl)

@[simp] theorem State.updBank_core (n : Nat) (v : Word) (f : Line → Line) (x : Nat) : (s.updBank n v f).core x = s.core x := (rfl)
@[simp] theorem State.updBank_bound (n : Nat) (v : Word) (f : Line → Line) (dom : Dom) (idx : Nat) :
    (s.updBank n v f).bound dom idx = s.bound dom idx := (rfl)
@[simp] theorem State.updBank_flagsOf (n : Nat) (v : Word) (f : Line → Line) (dom : Dom) (idx : Nat) :
    (s.updBank n v f).flagsOf dom idx = s.flagsOf dom idx := (rfl)

@[simp] theorem State.note_line (e : Event) (j : Nat) : (s.note e).line j = s.line j := (rfl)
@[simp] theorem State.note_core (e : Event) (x : Nat) : (s.note e).core x = s.core x := (rfl)
@[simp] theorem State.note_bound (e : Event) (dom : Dom) (idx : Nat) :
    (s.note e).bound dom idx = s.bound dom idx := (rfl)
@[simp] theorem State.note_flagsOf (e : Event) (dom : Dom) (idx : Nat) :
    (s.note e).flagsOf dom idx = s.flagsOf dom idx := (rfl)

@[simp] theorem State.access_line (c : Nat) (k : Option AccessKind) (rs ws : List Loc) (j : Nat) : (s.access c k rs ws).line j = s.line j := (rfl)
@[simp] theorem State.access_core (c : Nat) (k : Option AccessKind) (rs ws : List Loc) (x : Nat) : (s.access c k rs ws).core x = s.core x := (rfl)
@[simp] theorem State.access_bound (c : Nat) (k : Option AccessKind) (rs ws : List Loc) (dom : Dom) (idx : Nat) :
    (s.access c k rs ws).bound dom idx = s.bound dom idx := (rfl)
@[simp] theorem State.access_flagsOf (c : Nat) (k : Option AccessKind) (rs ws : List Loc) (dom : Dom) (idx : Nat) :
    (s.access c k rs ws).flagsOf dom idx = s.flagsOf dom idx := (rfl)

@[simp] theorem State.reply_line (c : Nat) (r : Result) (j : Nat) : (s.reply c r).line j = s.line j := (rfl)
@[simp] theorem State.reply_bound (c : Nat) (r : Result) (dom : Dom) (idx : Nat) :
    (s.reply c r).bound dom idx = s.bound dom idx := (rfl)
@[simp] theorem State.reply_flagsOf (c : Nat) (r : Result) (dom : Dom) (idx : Nat) :
    (s.reply c r).flagsOf dom idx = s.flagsOf dom idx := (rfl)
theorem State.reply_core (c d : Nat) (r : Result) :
    (s.reply c r).core d = if c = d ∧ d < s.cores.length then { s.core d with ret := r } else s.core d :=
  s.updCore_core c d _

@[simp] theorem State.call_line (c : Nat) (l : List SeqStep) (j : Nat) : (s.call c l).line j = s.line j := (rfl)
@[simp] theorem State.call_bound (c : Nat) (l : List SeqStep) (dom : Dom) (idx : Nat) :
    (s.call c l).bound dom idx = s.bound dom idx := (rfl)
@[simp] theorem State.call_flagsOf (c : Nat) (l : List SeqStep) (dom : Dom) (idx : Nat) :
    (s.call c l).flagsOf dom idx = s.flagsOf dom idx := (rfl)
theorem State.call_core (c d : Nat) (l : List SeqStep) :
    (s.call c l).core d = if c = d ∧ d < s.cores.length then { s.core d with seq := l ++ (s.core d).seq } else s.core d :=
  s.updCore_core c d _

@[simp] theorem State.refuse_line (r : RefuseReason) (j : Nat) : (s.refuse r).line j = s.line j := (rfl)
@[simp] theorem State.refuse_core (r : RefuseReason) (x : Nat) : (s.refuse r).core x = s.core x := (rfl)
@[simp] theorem State.refuse_bound (r : RefuseReason) (dom : Dom) (idx : Nat) :
    (s.refuse r).bound dom idx = s.bound dom idx := (rfl)
@[simp] theorem State.refuse_flagsOf (r : RefuseReason) (dom : Dom) (idx : Nat) :
    (s.refuse r).flagsOf dom idx = s.flagsOf dom idx := (rfl)

@[simp] theorem State.addDiag_line (c : Nat) (code : DiagCode) (info : DiagInfo) (j : Nat) : (s.addDiag c code info).line j = s.line j := (rfl)
@[simp] theorem State.addDiag_core (c : Nat) (code : DiagCode) (info : DiagInfo) (x : Nat) : (s.addDiag c code info).core x = s.core x := (rfl)
@[simp] theorem State.addDiag_bound (c : Nat) (code : DiagCode) (info : DiagInfo) (dom : Dom) (idx : Nat) :
    (s.addDiag c code info).bound dom idx = s.bound dom idx := (rfl)
@[simp] theorem State.addDiag_flagsOf (c : Nat) (code : DiagCode) (info : DiagInfo) (dom : Dom) (idx : Nat) :
    (s.addDiag c code info).flagsOf dom idx = s.flagsOf dom idx := (rfl)

@[simp] theorem State.setArm_line (c k : Nat) (v : Bool) (j : Nat) : (s.setArm c k v).line j = s.line j := (rfl)
@[simp] theorem State.setArm_bound (c k : Nat) (v : Bool) (dom : Dom) (idx : Nat) :
    (s.setArm c k v).bound dom idx = s.bound dom idx := (rfl)
@[simp] theorem State.setArm_flagsOf (c k : Nat) (v : Bool) (dom : Dom) (idx : Nat) :
    (s.setArm c k v).flagsOf dom idx = s.flagsOf dom idx := (rfl)
theorem State.setArm_core (c d k : Nat) (v : Bool) :
    (s.setArm c k v).core d = if c = d ∧ d < s.cores.length then { s.core d with arm := (s.core d).arm.set k v } else s.core d :=
  s.updCore_core c d _

@[simp] theorem State.updCores_line (f : Nat → CoreState → CoreState) (j : Nat) : (s.updCores f).line j = s.line j := (rfl)
@[simp] theorem State.updCores_bound (f : Nat → CoreState → CoreState) (dom : Dom) (idx : Nat) :
    (s.updCores f).bound dom idx = s.bound dom idx := (rfl)
@[simp] theorem State.updCores_flagsOf (f : Nat → CoreState → CoreState) (dom : Dom) (idx : Nat) :
    (s.updCores f).flagsOf dom idx = s.flagsOf dom idx := (rfl)

@[simp] theorem State.withDraws_line (n : Nat) (j : Nat) : (s.withDraws n).line j = s.line j := (rfl)
@[simp] theorem State.withDraws_core (n : Nat) (x : Nat) : (s.withDraws n).core x = s.core x := (rfl)
@[simp] theorem State.withDraws_bound (n : Nat) (dom : Dom) (idx : Nat) :
    (s.withDraws n).bound dom idx = s.bound dom idx := (rfl)
@[simp] theorem State.withDraws_flagsOf (n : Nat) (dom : Dom) (idx : Nat) :
    (s.withDraws n).flagsOf dom idx = s.flagsOf dom idx := (rfl)

@[simp] theorem State.withSched_line (l : List Mover) (j : Nat) : (s.withSched l).line j = s.line j := (rfl)
@[simp] theorem State.withSched_core (l : List Mover) (x : Nat) : (s.withSched l).core x = s.core x := (rfl)
@[simp] theorem State.withSched_bound (l : List Mover) (dom : Dom) (idx : Nat) :
    (s.withSched l).bound dom idx = s.bound dom idx := (rfl)
@[simp] theorem State.withSched_flagsOf (l : List Mover) (dom : Dom) (idx : Nat) :
    (s.withSched l).flagsOf dom idx = s.flagsOf dom idx := (rfl)

@[simp] theorem State.withAffLock_line (o : Option Nat) (j : Nat) : (s.withAffLock o).line j = s.line j := (rfl)
@[simp] theorem State.withAffLock_core (o : Option Nat) (x : Nat) : (s.withAffLock o).core x = s.core x := (rfl)
@[simp] theorem State.withAffLock_bound (o : Option Nat) (dom : Dom) (idx : Nat) :
    (s.withAffLock o).bound dom idx = s.bound dom idx := (rfl)
@[simp] theorem State.withAffLock_flagsOf (o : Option Nat) (dom : Dom) (idx : Nat) :
    (s.withAffLock o).flagsOf dom idx = s.flagsOf dom idx := (rfl)

@[simp] theorem State.withArmed_line (j : Nat) : (s.withArmed).line j = s.line j := (rfl)
@[simp] theorem State.withArmed_core (x : Nat) : (s.withArmed).core x = s.core x := (rfl)
@[simp] theorem State.withArmed_bound (dom : Dom) (idx : Nat) :
    (s.withArmed).bound dom idx = s.bound dom idx := (rfl)
@[simp] theorem State.withArmed_flagsOf (dom : Dom) (idx : Nat) :
    (s.withArmed).flagsOf dom idx = s.flagsOf dom idx := (rfl)

@[simp] theorem State.setSeq_line (c : Nat) (l : List SeqStep) (j : Nat) : (s.setSeq c l).line j = s.line j := (rfl)
@[simp] theorem State.setSeq_bound (c : Nat) (l : List SeqStep) (dom : Dom) (idx : Nat) :
    (s.setSeq c l).bound dom idx = s.bound dom idx := (rfl)
@[simp] theorem State.setSeq_flagsOf (c : Nat) (l : List SeqStep) (dom : Dom) (idx : Nat) :
    (s.setSeq c l).flagsOf dom idx = s.flagsOf dom idx := (rfl)
theorem State.setSeq_core (c d : Nat) (l : List SeqStep) :
    (s.setSeq c l).core d = if c = d ∧ d < s.cores.length then { s.core d with seq := l } else s.core d :=
  s.updCore_core c d _

@[simp] theorem State.setQueue_line (c : Nat) (l : List Request) (j : Nat) : (s.setQueue c l).line j = s.line j := (rfl)
@[simp] theorem State.setQueue_bound (c : Nat) (l : List Request) (dom : Dom) (idx : Nat) :
    (s.setQueue c l).bound dom idx = s.bound dom idx := (rfl)
@[simp] theorem State.setQueue_flagsOf (c : Nat) (l : List Request) (dom : Dom) (idx : Nat) :
    (s.setQueue c l).flagsOf dom idx = s.flagsOf dom idx := (rfl)
theorem State.setQueue_core (c d : Nat) (l : List Request) :
    (s.setQueue c l).core d = if c = d ∧ d < s.cores.length then { s.core d with queue := l } else s.core d :=
  s.updCore_core c d _

@[simp] theorem State.setFe_line (c : Nat) (f : FrontEnd) (j : Nat) : (s.setFe c f).line j = s.line j := (rfl)
@[simp] theorem State.setFe_bound (c : Nat) (f : FrontEnd) (dom : Dom) (idx : Nat) :
    (s.setFe c f).bound dom idx = s.bound dom idx := (rfl)
@[simp] theorem State.setFe_flagsOf (c : Nat) (f : FrontEnd) (dom : Dom) (idx : Nat) :
    (s.setFe c f).flagsOf dom idx = s.flagsOf dom idx := (rfl)
theorem State.setFe_core (c d : Nat) (f : FrontEnd) :
    (s.setFe c f).core d = if c = d ∧ d < s.cores.length then { s.core d with fe := f } else s.core d :=
  s.updCore_core c d _

@[simp] theorem State.setPending_line (c : Nat) (v : Word) (j : Nat) : (s.setPending c v).line j = s.line j := (rfl)
@[simp] theorem State.setPending_bound (c : Nat) (v : Word) (dom : Dom) (idx : Nat) :
    (s.setPending c v).bound dom idx = s.bound dom idx := (rfl)
@[simp] theorem State.setPending_flagsOf (c : Nat) (v : Word) (dom : Dom) (idx : Nat) :
    (s.setPending c v).flagsOf dom idx = s.flagsOf dom idx := (rfl)
theorem State.setPending_core (c d : Nat) (v : Word) :
    (s.setPending c v).core d = if c = d ∧ d < s.cores.length then { s.core d with pending := v } else s.core d :=
  s.updCore_core c d _

@[simp] theorem State.setEnabled_line (c : Nat) (v : Word) (j : Nat) : (s.setEnabled c v).line j = s.line j := (rfl)
@[simp] theorem State.setEnabled_bound (c : Nat) (v : Word) (dom : Dom) (idx : Nat) :
    (s.setEnabled c v).bound dom idx = s.bound dom idx := (rfl)
@[simp] theorem State.setEnabled_flagsOf (c : Nat) (v : Word) (dom : Dom) (idx : Nat) :
    (s.setEnabled c v).flagsOf dom idx = s.flagsOf dom idx := (rfl)
theorem State.setEnabled_core (c d : Nat) (v : Word) :
    (s.setEnabled c v).core d = if c = d ∧ d < s.cores.length then { s.core d with enabled := v } else s.core d :=
  s.updCore_core c d _

@[simp] theorem State.setIpiPend_line (c : Nat) (b : IpiBits) (j : Nat) : (s.setIpiPend c b).line j = s.line j := (rfl)
@[simp] theorem State.setIpiPend_bound (c : Nat) (b : IpiBits) (dom : Dom) (idx : Nat) :
    (s.setIpiPend c b).bound dom idx = s.bound dom idx := (rfl)
@[simp] theorem State.setIpiPend_flagsOf (c : Nat) (b : IpiBits) (dom : Dom) (idx : Nat) :
    (s.setIpiPend c b).flagsOf dom idx = s.flagsOf dom idx := (rfl)
theorem State.setIpiPend_core (c d : Nat) (b : IpiBits) :
    (s.setIpiPend c b).core d = if c = d ∧ d < s.cores.length then { s.core d with ipiPend := b } else s.core d :=
  s.updCore_core c d _

@[simp] theorem State.setIpiMask_line (c : Nat) (b : IpiBits) (j : Nat) : (s.setIpiMask c b).line j = s.line j := (rfl)
@[simp] theorem State.setIpiMask_bound (c : Nat) (b : IpiBits) (dom : Dom) (idx : Nat) :
    (s.setIpiMask c b).bound dom idx = s.bound dom idx := (rfl)
@[simp] theorem State.setIpiMask_flagsOf (c : Nat) (b : IpiBits) (dom : Dom) (idx : Nat) :
    (s.setIpiMask c b).flagsOf dom idx = s.flagsOf dom idx := (rfl)
theorem State.setIpiMask_core (c d : Nat) (b : IpiBits) :
    (s.setIpiMask c b).core d = if c = d ∧ d < s.cores.length then { s.core d with ipiMask := b } else s.core d :=
  s.updCore_core c d _

@[simp] theorem State.setFiqDisabled_line (c d : Nat) (v : Bool) (j : Nat) : (s.setFiqDisabled c d v).line j = s.line j := (rfl)
@[simp] theorem State.setFiqDisabled_bound (c d : Nat) (v : Bool) (dom : Dom) (idx : Nat) :
    (s.setFiqDisabled c d v).bound dom idx = s.bound dom idx := (rfl)
@[simp] theorem State.setFiqDisabled_flagsOf (c d : Nat) (v : Bool) (dom : Dom) (idx : Nat) :
    (s.setFiqDisabled c d v).flagsOf dom idx = s.flagsOf dom idx := (rfl)
theorem State.setFiqDisabled_core (c d x : Nat) (v : Bool) :
    (s.setFiqDisabled c x v).core d = if c = d ∧ d < s.cores.length then { s.core d with fiqDisabled := (s.core d).fiqDisabled.set x v } else s.core d :=
  s.updCore_core c d _

/-! One field of one core. -/

@[simp] theorem State.reply_core_ipiPend (c d : Nat) (r : Result) :
    ((s.reply c r).core d).ipiPend = (s.core d).ipiPend := by rw [State.reply_core]; split <;> rfl
@[simp] theorem State.reply_core_ipiMask (c d : Nat) (r : Result) :
    ((s.reply c r).core d).ipiMask = (s.core d).ipiMask := by rw [State.reply_core]; split <;> rfl
@[simp] theorem State.reply_core_cond (c d : Nat) (r : Result) :
    ((s.reply c r).core d).cond = (s.core d).cond := by rw [State.reply_core]; split <;> rfl
@[simp] theorem State.reply_core_arm (c d : Nat) (r : Result) :
    ((s.reply c r).core d).arm = (s.core d).arm := by rw [State.reply_core]; split <;> rfl
@[simp] theorem State.reply_core_fiqDisabled (c d : Nat) (r : Result) :
    ((s.reply c r).core d).fiqDisabled = (s.core d).fiqDisabled := by rw [State.reply_core]; split <;> rfl
@[simp] theorem State.reply_core_pending (c d : Nat) (r : Result) :
    ((s.reply c r).core d).pending = (s.core d).pending := by rw [State.reply_core]; split <;> rfl
@[simp] theorem State.reply_core_enabled (c d : Nat) (r : Result) :
    ((s.reply c r).core d).enabled = (s.core d).enabled := by rw [State.reply_core]; split <;> rfl
@[simp] theorem State.reply_core_fe (c d : Nat) (r : Result) :
    ((s.reply c r).core d).fe = (s.core d).fe := by rw [State.reply_core]; split <;> rfl
@[simp] theorem State.reply_core_seq (c d : Nat) (r : Result) :
    ((s.reply c r).core d).seq = (s.core d).seq := by rw [State.reply_core]; split <;> rfl
@[simp] theorem State.reply_core_accepts (c d : Nat) (r : Result) :
    ((s.reply c r).core d).accepts = (s.core d).accepts := by rw [State.reply_core]; split <;> rfl
@[simp] theorem State.reply_core_queue (c d : Nat) (r : Result) :
    ((s.reply c r).core d).queue = (s.core d).queue := by rw [State.reply_core]; split <;> rfl
theorem State.reply_core_self (c : Nat) (r : Result) (h : c < s.cores.length) :
    ((s.reply c r).core c).ret = r := by simp [State.reply_core, h]

@[simp] theorem State.call_core_ipiPend (c d : Nat) (l : List SeqStep) :
    ((s.call c l).core d).ipiPend = (s.core d).ipiPend := by rw [State.call_core]; split <;> rfl
@[simp] theorem State.call_core_ipiMask (c d : Nat) (l : List SeqStep) :
    ((s.call c l).core d).ipiMask = (s.core d).ipiMask := by rw [State.call_core]; split <;> rfl
@[simp] theorem State.call_core_cond (c d : Nat) (l : List SeqStep) :
    ((s.call c l).core d).cond = (s.core d).cond := by rw [State.call_core]; split <;> rfl
@[simp] theorem State.call_core_arm (c d : Nat) (l : List SeqStep) :
    ((s.call c l).core d).arm = (s.core d).arm := by rw [State.call_core]; split <;> rfl
@[simp] theorem State.call_core_fiqDisabled (c d : Nat) (l : List SeqStep) :
    ((s.call c l).core d).fiqDisabled = (s.core d).fiqDisabled := by rw [State.call_core]; split <;> rfl
@[simp] theorem State.call_core_pending (c d : Nat) (l : List SeqStep) :
    ((s.call c l).core d).pending = (s.core d).pending := by rw [State.call_core]; split <;> rfl
@[simp] theorem State.call_core_enabled (c d : Nat) (l : List SeqStep) :
    ((s.call c l).core d).enabled = (s.core d).enabled := by rw [State.call_core]; split <;> rfl
@[simp] theorem State.call_core_fe (c d : Nat) (l : List SeqStep) :
    ((s.call c l).core d).fe = (s.core d).fe := by rw [State.call_core]; split <;> rfl
@[simp] theorem State.call_core_accepts (c d : Nat) (l : List SeqStep) :
    ((s.call c l).core d).accepts = (s.core d).accepts := by rw [State.call_core]; split <;> rfl
@[simp] theorem State.call_core_ret (c d : Nat) (l : List SeqStep) :
    ((s.call c l).core d).ret = (s.core d).ret := by rw [State.call_core]; split <;> rfl
@[simp] theorem State.call_core_queue (c d : Nat) (l : List SeqStep) :
    ((s.call c l).core d).queue = (s.core d).queue := by rw [State.call_core]; split <;> rfl
theorem State.call_core_self (c : Nat) (l : List SeqStep) (h : c < s.cores.length) :
    ((s.call c l).core c).seq = l ++ (s.core c).seq := by simp [State.call_core, h]

@[simp] theorem State.setArm_core_ipiPend (c d k : Nat) (v : Bool) :
    ((s.setArm c k v).core d).ipiPend = (s.core d).ipiPend := by rw [State.setArm_core]; split <;> rfl
@[simp] theorem State.setArm_core_ipiMask (c d k : Nat) (v : Bool) :
    ((s.setArm c k v).core d).ipiMask = (s.core d).ipiMask := by rw [State.setArm_core]; split <;> rfl
@[simp] theorem State.setArm_core_cond (c d k : Nat) (v : Bool) :
    ((s.setArm c k v).core d).cond = (s.core d).cond := by rw [State.setArm_core]; split <;> rfl
@[simp] theorem State.setArm_core_fiqDisabled (c d k : Nat) (v : Bool) :
    ((s.setArm c k v).core d).fiqDisabled = (s.core d).fiqDisabled := by rw [State.setArm_core]; split <;> rfl
@[simp] theorem State.setArm_core_pending (c d k : Nat) (v : Bool) :
    ((s.setArm c k v).core d).pending = (s.core d).pending := by rw [State.setArm_core]; split <;> rfl
@[simp] theorem State.setArm_core_enabled (c d k : Nat) (v : Bool) :
    ((s.setArm c k v).core d).enabled = (s.core d).enabled := by rw [State.setArm_core]; split <;> rfl
@[simp] theorem State.setArm_core_fe (c d k : Nat) (v : Bool) :
    ((s.setArm c k v).core d).fe = (s.core d).fe := by rw [State.setArm_core]; split <;> rfl
@[simp] theorem State.setArm_core_seq (c d k : Nat) (v : Bool) :
    ((s.setArm c k v).core d).seq = (s.core d).seq := by rw [State.setArm_core]; split <;> rfl
@[simp] theorem State.setArm_core_accepts (c d k : Nat) (v : Bool) :
    ((s.setArm c k v).core d).accepts = (s.core d).accepts := by rw [State.setArm_core]; split <;> rfl
@[simp] theorem State.setArm_core_ret (c d k : Nat) (v : Bool) :
    ((s.setArm c k v).core d).ret = (s.core d).ret := by rw [State.setArm_core]; split <;> rfl
@[simp] theorem State.setArm_core_queue (c d k : Nat) (v : Bool) :
    ((s.setArm c k v).core d).queue = (s.core d).queue := by rw [State.setArm_core]; split <;> rfl
theorem State.setArm_core_self (c k : Nat) (v : Bool) (h : c < s.cores.length) :
    ((s.setArm c k v).core c).arm = (s.core c).arm.set k v := by simp [State.setArm_core, h]

@[simp] theorem State.setFiqDisabled_core_ipiPend (c d x : Nat) (v : Bool) :
    ((s.setFiqDisabled c x v).core d).ipiPend = (s.core d).ipiPend := by rw [State.setFiqDisabled_core]; split <;> rfl
@[simp] theorem State.setFiqDisabled_core_ipiMask (c d x : Nat) (v : Bool) :
    ((s.setFiqDisabled c x v).core d).ipiMask = (s.core d).ipiMask := by rw [State.setFiqDisabled_core]; split <;> rfl
@[simp] theorem State.setFiqDisabled_core_cond (c d x : Nat) (v : Bool) :
    ((s.setFiqDisabled c x v).core d).cond = (s.core d).cond := by rw [State.setFiqDisabled_core]; split <;> rfl
@[simp] theorem State.setFiqDisabled_core_arm (c d x : Nat) (v : Bool) :
    ((s.setFiqDisabled c x v).core d).arm = (s.core d).arm := by rw [State.setFiqDisabled_core]; split <;> rfl
@[simp] theorem State.setFiqDisabled_core_pending (c d x : Nat) (v : Bool) :
    ((s.setFiqDisabled c x v).core d).pending = (s.core d).pending := by rw [State.setFiqDisabled_core]; split <;> rfl
@[simp] theorem State.setFiqDisabled_core_enabled (c d x : Nat) (v : Bool) :
    ((s.setFiqDisabled c x v).core d).enabled = (s.core d).enabled := by rw [State.setFiqDisabled_core]; split <;> rfl
@[simp] theorem State.setFiqDisabled_core_fe (c d x : Nat) (v : Bool) :
    ((s.setFiqDisabled c x v).core d).fe = (s.core d).fe := by rw [State.setFiqDisabled_core]; split <;> rfl
@[simp] theorem State.setFiqDisabled_core_seq (c d x : Nat) (v : Bool) :
    ((s.setFiqDisabled c x v).core d).seq = (s.core d).seq := by rw [State.setFiqDisabled_core]; split <;> rfl
@[simp] theorem State.setFiqDisabled_core_accepts (c d x : Nat) (v : Bool) :
    ((s.setFiqDisabled c x v).core d).accepts = (s.core d).accepts := by rw [State.setFiqDisabled_core]; split <;> rfl
@[simp] theorem State.setFiqDisabled_core_ret (c d x : Nat) (v : Bool) :
    ((s.setFiqDisabled c x v).core d).ret = (s.core d).ret := by rw [State.setFiqDisabled_core]; split <;> rfl
@[simp] theorem State.setFiqDisabled_core_queue (c d x : Nat) (v : Bool) :
    ((s.setFiqDisabled c x v).core d).queue = (s.core d).queue := by rw [State.setFiqDisabled_core]; split <;> rfl
theorem State.setFiqDisabled_core_self (c x : Nat) (v : Bool) (h : c < s.cores.length) :
    ((s.setFiqDisabled c x v).core c).fiqDisabled = (s.core c).fiqDisabled.set x v := by simp [State.setFiqDisabled_core, h]

@[simp] theorem State.setSeq_core_ipiPend (c d : Nat) (l : List SeqStep) :
    ((s.setSeq c l).core d).ipiPend = (s.core d).ipiPend := by rw [State.setSeq_core]; split <;> rfl
@[simp] theorem State.setSeq_core_ipiMask (c d : Nat) (l : List SeqStep) :
    ((s.setSeq c l).core d).ipiMask = (s.core d).ipiMask := by rw [State.setSeq_core]; split <;> rfl
@[simp] theorem State.setSeq_core_cond (c d : Nat) (l : List SeqStep) :
    ((s.setSeq c l).core d).cond = (s.core d).cond := by rw [State.setSeq_core]; split <;> rfl
@[simp] theorem State.setSeq_core_arm (c d : Nat) (l : List SeqStep) :
    ((s.setSeq c l).core d).arm = (s.core d).arm := by rw [State.setSeq_core]; split <;> rfl
@[simp] theorem State.setSeq_core_fiqDisabled (c d : Nat) (l : List SeqStep) :
    ((s.setSeq c l).core d).fiqDisabled = (s.core d).fiqDisabled := by rw [State.setSeq_core]; split <;> rfl
@[simp] theorem State.setSeq_core_pending (c d : Nat) (l : List SeqStep) :
    ((s.setSeq c l).core d).pending = (s.core d).pending := by rw [State.setSeq_core]; split <;> rfl
@[simp] theorem State.setSeq_core_enabled (c d : Nat) (l : List SeqStep) :
    ((s.setSeq c l).core d).enabled = (s.core d).enabled := by rw [State.setSeq_core]; split <;> rfl
@[simp] theorem State.setSeq_core_fe (c d : Nat) (l : List SeqStep) :
    ((s.setSeq c l).core d).fe = (s.core d).fe := by rw [State.setSeq_core]; split <;> rfl
@[simp] theorem State.setSeq_core_accepts (c d : Nat) (l : List SeqStep) :
    ((s.setSeq c l).core d).accepts = (s.core d).accepts := by rw [State.setSeq_core]; split <;> rfl
@[simp] theorem State.setSeq_core_ret (c d : Nat) (l : List SeqStep) :
    ((s.setSeq c l).core d).ret = (s.core d).ret := by rw [State.setSeq_core]; split <;> rfl
@[simp] theorem State.setSeq_core_queue (c d : Nat) (l : List SeqStep) :
    ((s.setSeq c l).core d).queue = (s.core d).queue := by rw [State.setSeq_core]; split <;> rfl
theorem State.setSeq_core_self (c : Nat) (l : List SeqStep) (h : c < s.cores.length) :
    ((s.setSeq c l).core c).seq = l := by simp [State.setSeq_core, h]

@[simp] theorem State.setQueue_core_ipiPend (c d : Nat) (l : List Request) :
    ((s.setQueue c l).core d).ipiPend = (s.core d).ipiPend := by rw [State.setQueue_core]; split <;> rfl
@[simp] theorem State.setQueue_core_ipiMask (c d : Nat) (l : List Request) :
    ((s.setQueue c l).core d).ipiMask = (s.core d).ipiMask := by rw [State.setQueue_core]; split <;> rfl
@[simp] theorem State.setQueue_core_cond (c d : Nat) (l : List Request) :
    ((s.setQueue c l).core d).cond = (s.core d).cond := by rw [State.setQueue_core]; split <;> rfl
@[simp] theorem State.setQueue_core_arm (c d : Nat) (l : List Request) :
    ((s.setQueue c l).core d).arm = (s.core d).arm := by rw [State.setQueue_core]; split <;> rfl
@[simp] theorem State.setQueue_core_fiqDisabled (c d : Nat) (l : List Request) :
    ((s.setQueue c l).core d).fiqDisabled = (s.core d).fiqDisabled := by rw [State.setQueue_core]; split <;> rfl
@[simp] theorem State.setQueue_core_pending (c d : Nat) (l : List Request) :
    ((s.setQueue c l).core d).pending = (s.core d).pending := by rw [State.setQueue_core]; split <;> rfl
@[simp] theorem State.setQueue_core_enabled (c d : Nat) (l : List Request) :
    ((s.setQueue c l).core d).enabled = (s.core d).enabled := by rw [State.setQueue_core]; split <;> rfl
@[simp] theorem State.setQueue_core_fe (c d : Nat) (l : List Request) :
    ((s.setQueue c l).core d).fe = (s.core d).fe := by rw [State.setQueue_core]; split <;> rfl
@[simp] theorem State.setQueue_core_seq (c d : Nat) (l : List Request) :
    ((s.setQueue c l).core d).seq = (s.core d).seq := by rw [State.setQueue_core]; split <;> rfl
@[simp] theorem State.setQueue_core_accepts (c d : Nat) (l : List Request) :
    ((s.setQueue c l).core d).accepts = (s.core d).accepts := by rw [State.setQueue_core]; split <;> rfl
@[simp] theorem State.setQueue_core_ret (c d : Nat) (l : List Request) :
    ((s.setQueue c l).core d).ret = (s.core d).ret := by rw [State.setQueue_core]; split <;> rfl
theorem State.setQueue_core_self (c : Nat) (l : List Request) (h : c < s.cores.length) :
    ((s.setQueue c l).core c).queue = l := by simp [State.setQueue_core, h]

@[simp] theorem State.setPending_core_ipiPend (c d : Nat) (v : Word) :
    ((s.setPending c v).core d).ipiPend = (s.core d).ipiPend := by rw [State.setPending_core]; split <;> rfl
@[simp] theorem State.setPending_core_ipiMask (c d : Nat) (v : Word) :
    ((s.setPending c v).core d).ipiMask = (s.core d).ipiMask := by rw [State.setPending_core]; split <;> rfl
@[simp] theorem State.setPending_core_cond (c d : Nat) (v : Word) :
    ((s.setPending c v).core d).cond = (s.core d).cond := by rw [State.setPending_core]; split <;> rfl
@[simp] theorem State.setPending_core_arm (c d : Nat) (v : Word) :
    ((s.setPending c v).core d).arm = (s.core d).arm := by rw [State.setPending_core]; split <;> rfl
@[simp] theorem State.setPending_core_fiqDisabled (c d : Nat) (v : Word) :
    ((s.setPending c v).core d).fiqDisabled = (s.core d).fiqDisabled := by rw [State.setPending_core]; split <;> rfl
@[simp] theorem State.setPending_core_enabled (c d : Nat) (v : Word) :
    ((s.setPending c v).core d).enabled = (s.core d).enabled := by rw [State.setPending_core]; split <;> rfl
@[simp] theorem State.setPending_core_fe (c d : Nat) (v : Word) :
    ((s.setPending c v).core d).fe = (s.core d).fe := by rw [State.setPending_core]; split <;> rfl
@[simp] theorem State.setPending_core_seq (c d : Nat) (v : Word) :
    ((s.setPending c v).core d).seq = (s.core d).seq := by rw [State.setPending_core]; split <;> rfl
@[simp] theorem State.setPending_core_accepts (c d : Nat) (v : Word) :
    ((s.setPending c v).core d).accepts = (s.core d).accepts := by rw [State.setPending_core]; split <;> rfl
@[simp] theorem State.setPending_core_ret (c d : Nat) (v : Word) :
    ((s.setPending c v).core d).ret = (s.core d).ret := by rw [State.setPending_core]; split <;> rfl
@[simp] theorem State.setPending_core_queue (c d : Nat) (v : Word) :
    ((s.setPending c v).core d).queue = (s.core d).queue := by rw [State.setPending_core]; split <;> rfl
theorem State.setPending_core_self (c : Nat) (v : Word) (h : c < s.cores.length) :
    ((s.setPending c v).core c).pending = v := by simp [State.setPending_core, h]

@[simp] theorem State.setEnabled_core_ipiPend (c d : Nat) (v : Word) :
    ((s.setEnabled c v).core d).ipiPend = (s.core d).ipiPend := by rw [State.setEnabled_core]; split <;> rfl
@[simp] theorem State.setEnabled_core_ipiMask (c d : Nat) (v : Word) :
    ((s.setEnabled c v).core d).ipiMask = (s.core d).ipiMask := by rw [State.setEnabled_core]; split <;> rfl
@[simp] theorem State.setEnabled_core_cond (c d : Nat) (v : Word) :
    ((s.setEnabled c v).core d).cond = (s.core d).cond := by rw [State.setEnabled_core]; split <;> rfl
@[simp] theorem State.setEnabled_core_arm (c d : Nat) (v : Word) :
    ((s.setEnabled c v).core d).arm = (s.core d).arm := by rw [State.setEnabled_core]; split <;> rfl
@[simp] theorem State.setEnabled_core_fiqDisabled (c d : Nat) (v : Word) :
    ((s.setEnabled c v).core d).fiqDisabled = (s.core d).fiqDisabled := by rw [State.setEnabled_core]; split <;> rfl
@[simp] theorem State.setEnabled_core_pending (c d : Nat) (v : Word) :
    ((s.setEnabled c v).core d).pending = (s.core d).pending := by rw [State.setEnabled_core]; split <;> rfl
@[simp] theorem State.setEnabled_core_fe (c d : Nat) (v : Word) :
    ((s.setEnabled c v).core d).fe = (s.core d).fe := by rw [State.setEnabled_core]; split <;> rfl
@[simp] theorem State.setEnabled_core_seq (c d : Nat) (v : Word) :
    ((s.setEnabled c v).core d).seq = (s.core d).seq := by rw [State.setEnabled_core]; split <;> rfl
@[simp] theorem State.setEnabled_core_accepts (c d : Nat) (v : Word) :
    ((s.setEnabled c v).core d).accepts = (s.core d).accepts := by rw [State.setEnabled_core]; split <;> rfl
@[simp] theorem State.setEnabled_core_ret (c d : Nat) (v : Word) :
    ((s.setEnabled c v).core d).ret = (s.core d).ret := by rw [State.setEnabled_core]; split <;> rfl
@[simp] theorem State.setEnabled_core_queue (c d : Nat) (v : Word) :
    ((s.setEnabled c v).core d).queue = (s.core d).queue := by rw [State.setEnabled_core]; split <;> rfl
theorem State.setEnabled_core_self (c : Nat) (v : Word) (h : c < s.cores.length) :
    ((s.setEnabled c v).core c).enabled = v := by simp [State.setEnabled_core, h]

@[simp] theorem State.setIpiPend_core_ipiMask (c d : Nat) (b : IpiBits) :
    ((s.setIpiPend c b).core d).ipiMask = (s.core d).ipiMask := by rw [State.setIpiPend_core]; split <;> rfl
@[simp] theorem State.setIpiPend_core_cond (c d : Nat) (b : IpiBits) :
    ((s.setIpiPend c b).core d).cond = (s.core d).cond := by rw [State.setIpiPend_core]; split <;> rfl
@[simp] theorem State.setIpiPend_core_arm (c d : Nat) (b : IpiBits) :
    ((s.setIpiPend c b).core d).arm = (s.core d).arm := by rw [State.setIpiPend_core]; split <;> rfl
@[simp] theorem State.setIpiPend_core_fiqDisabled (c d : Nat) (b : IpiBits) :
    ((s.setIpiPend c b).core d).fiqDisabled = (s.core d).fiqDisabled := by rw [State.setIpiPend_core]; split <;> rfl
@[simp] theorem State.setIpiPend_core_pending (c d : Nat) (b : IpiBits) :
    ((s.setIpiPend c b).core d).pending = (s.core d).pending := by rw [State.setIpiPend_core]; split <;> rfl
@[simp] theorem State.setIpiPend_core_enabled (c d : Nat) (b : IpiBits) :
    ((s.setIpiPend c b).core d).enabled = (s.core d).enabled := by rw [State.setIpiPend_core]; split <;> rfl
@[simp] theorem State.setIpiPend_core_fe (c d : Nat) (b : IpiBits) :
    ((s.setIpiPend c b).core d).fe = (s.core d).fe := by rw [State.setIpiPend_core]; split <;> rfl
@[simp] theorem State.setIpiPend_core_seq (c d : Nat) (b : IpiBits) :
    ((s.setIpiPend c b).core d).seq = (s.core d).seq := by rw [State.setIpiPend_core]; split <;> rfl
@[simp] theorem State.setIpiPend_core_accepts (c d : Nat) (b : IpiBits) :
    ((s.setIpiPend c b).core d).accepts = (s.core d).accepts := by rw [State.setIpiPend_core]; split <;> rfl
@[simp] theorem State.setIpiPend_core_ret (c d : Nat) (b : IpiBits) :
    ((s.setIpiPend c b).core d).ret = (s.core d).ret := by rw [State.setIpiPend_core]; split <;> rfl
@[simp] theorem State.setIpiPend_core_queue (c d : Nat) (b : IpiBits) :
    ((s.setIpiPend c b).core d).queue = (s.core d).queue := by rw [State.setIpiPend_core]; split <;> rfl
theorem State.setIpiPend_core_self (c : Nat) (b : IpiBits) (h : c < s.cores.length) :
    ((s.setIpiPend c b).core c).ipiPend = b := by simp [State.setIpiPend_core, h]

@[simp] theorem State.setIpiMask_core_ipiPend (c d : Nat) (b : IpiBits) :
    ((s.setIpiMask c b).core d).ipiPend = (s.core d).ipiPend := by rw [State.setIpiMask_core]; split <;> rfl
@[simp] theorem State.setIpiMask_core_cond (c d : Nat) (b : IpiBits) :
    ((s.setIpiMask c b).core d).cond = (s.core d).cond := by rw [State.setIpiMask_core]; split <;> rfl
@[simp] theorem State.setIpiMask_core_arm (c d : Nat) (b : IpiBits) :
    ((s.setIpiMask c b).core d).arm = (s.core d).arm := by rw [State.setIpiMask_core]; split <;> rfl
@[simp] theorem State.setIpiMask_core_fiqDisabled (c d : Nat) (b : IpiBits) :
    ((s.setIpiMask c b).core d).fiqDisabled = (s.core d).fiqDisabled := by rw [State.setIpiMask_core]; split <;> rfl
@[simp] theorem State.setIpiMask_core_pending (c d : Nat) (b : IpiBits) :
    ((s.setIpiMask c b).core d).pending = (s.core d).pending := by rw [State.setIpiMask_core]; split <;> rfl
@[simp] theorem State.setIpiMask_core_enabled (c d : Nat) (b : IpiBits) :
    ((s.setIpiMask c b).core d).enabled = (s.core d).enabled := by rw [State.setIpiMask_core]; split <;> rfl
@[simp] theorem State.setIpiMask_core_fe (c d : Nat) (b : IpiBits) :
    ((s.setIpiMask c b).core d).fe = (s.core d).fe := by rw [State.setIpiMask_core]; split <;> rfl
@[simp] theorem State.setIpiMask_core_seq (c d : Nat) (b : IpiBits) :
    ((s.setIpiMask c b).core d).seq = (s.core d).seq := by rw [State.setIpiMask_core]; split <;> rfl
@[simp] theorem State.setIpiMask_core_accepts (c d : Nat) (b : IpiBits) :
    ((s.setIpiMask c b).core d).accepts = (s.core d).accepts := by rw [State.setIpiMask_core]; split <;> rfl
@[simp] theorem State.setIpiMask_core_ret (c d : Nat) (b : IpiBits) :
    ((s.setIpiMask c b).core d).ret = (s.core d).ret := by rw [State.setIpiMask_core]; split <;> rfl
@[simp] theorem State.setIpiMask_core_queue (c d : Nat) (b : IpiBits) :
    ((s.setIpiMask c b).core d).queue = (s.core d).queue := by rw [State.setIpiMask_core]; split <;> rfl
theorem State.setIpiMask_core_self (c : Nat) (b : IpiBits) (h : c < s.cores.length) :
    ((s.setIpiMask c b).core c).ipiMask = b := by simp [State.setIpiMask_core, h]

@[simp] theorem State.setFe_core_ipiPend (c d : Nat) (f : FrontEnd) :
    ((s.setFe c f).core d).ipiPend = (s.core d).ipiPend := by rw [State.setFe_core]; split <;> rfl
@[simp] theorem State.setFe_core_ipiMask (c d : Nat) (f : FrontEnd) :
    ((s.setFe c f).core d).ipiMask = (s.core d).ipiMask := by rw [State.setFe_core]; split <;> rfl
@[simp] theorem State.setFe_core_cond (c d : Nat) (f : FrontEnd) :
    ((s.setFe c f).core d).cond = (s.core d).cond := by rw [State.setFe_core]; split <;> rfl
@[simp] theorem State.setFe_core_arm (c d : Nat) (f : FrontEnd) :
    ((s.setFe c f).core d).arm = (s.core d).arm := by rw [State.setFe_core]; split <;> rfl
@[simp] theorem State.setFe_core_fiqDisabled (c d : Nat) (f : FrontEnd) :
    ((s.setFe c f).core d).fiqDisabled = (s.core d).fiqDisabled := by rw [State.setFe_core]; split <;> rfl
@[simp] theorem State.setFe_core_pending (c d : Nat) (f : FrontEnd) :
    ((s.setFe c f).core d).pending = (s.core d).pending := by rw [State.setFe_core]; split <;> rfl
@[simp] theorem State.setFe_core_enabled (c d : Nat) (f : FrontEnd) :
    ((s.setFe c f).core d).enabled = (s.core d).enabled := by rw [State.setFe_core]; split <;> rfl
@[simp] theorem State.setFe_core_seq (c d : Nat) (f : FrontEnd) :
    ((s.setFe c f).core d).seq = (s.core d).seq := by rw [State.setFe_core]; split <;> rfl
@[simp] theorem State.setFe_core_accepts (c d : Nat) (f : FrontEnd) :
    ((s.setFe c f).core d).accepts = (s.core d).accepts := by rw [State.setFe_core]; split <;> rfl
@[simp] theorem State.setFe_core_ret (c d : Nat) (f : FrontEnd) :
    ((s.setFe c f).core d).ret = (s.core d).ret := by rw [State.setFe_core]; split <;> rfl
@[simp] theorem State.setFe_core_queue (c d : Nat) (f : FrontEnd) :
    ((s.setFe c f).core d).queue = (s.core d).queue := by rw [State.setFe_core]; split <;> rfl
theorem State.setFe_core_self (c : Nat) (f : FrontEnd) (h : c < s.cores.length) :
    ((s.setFe c f).core c).fe = f := by simp [State.setFe_core, h]

/-! The FIQ state of one core, by index. -/

@[simp] theorem State.updLine_cond_at (i : Nat) (f : Line → Line) (x y : Nat) : (s.updLine i f).cond x y = s.cond x y := (rfl)
@[simp] theorem State.updLine_arm_at (i : Nat) (f : Line → Line) (x y : Nat) : (s.updLine i f).arm x y = s.arm x y := (rfl)
@[simp] theorem State.updLine_fiqDisabled_at (i : Nat) (f : Line → Line) (x y : Nat) : (s.updLine i f).fiqDisabled x y = s.fiqDisabled x y := (rfl)
@[simp] theorem State.updBank_cond_at (n : Nat) (v : Word) (f : Line → Line) (x y : Nat) : (s.updBank n v f).cond x y = s.cond x y := (rfl)
@[simp] theorem State.updBank_arm_at (n : Nat) (v : Word) (f : Line → Line) (x y : Nat) : (s.updBank n v f).arm x y = s.arm x y := (rfl)
@[simp] theorem State.updBank_fiqDisabled_at (n : Nat) (v : Word) (f : Line → Line) (x y : Nat) : (s.updBank n v f).fiqDisabled x y = s.fiqDisabled x y := (rfl)
@[simp] theorem State.note_cond_at (e : Event) (x y : Nat) : (s.note e).cond x y = s.cond x y := (rfl)
@[simp] theorem State.note_arm_at (e : Event) (x y : Nat) : (s.note e).arm x y = s.arm x y := (rfl)
@[simp] theorem State.note_fiqDisabled_at (e : Event) (x y : Nat) : (s.note e).fiqDisabled x y = s.fiqDisabled x y := (rfl)
@[simp] theorem State.access_cond_at (c : Nat) (k : Option AccessKind) (rs ws : List Loc) (x y : Nat) : (s.access c k rs ws).cond x y = s.cond x y := (rfl)
@[simp] theorem State.access_arm_at (c : Nat) (k : Option AccessKind) (rs ws : List Loc) (x y : Nat) : (s.access c k rs ws).arm x y = s.arm x y := (rfl)
@[simp] theorem State.access_fiqDisabled_at (c : Nat) (k : Option AccessKind) (rs ws : List Loc) (x y : Nat) : (s.access c k rs ws).fiqDisabled x y = s.fiqDisabled x y := (rfl)
@[simp] theorem State.reply_cond_at (c : Nat) (r : Result) (x y : Nat) : (s.reply c r).cond x y = s.cond x y := by
  simp [State.cond]
@[simp] theorem State.reply_arm_at (c : Nat) (r : Result) (x y : Nat) : (s.reply c r).arm x y = s.arm x y := by
  simp [State.arm]
@[simp] theorem State.reply_fiqDisabled_at (c : Nat) (r : Result) (x y : Nat) : (s.reply c r).fiqDisabled x y = s.fiqDisabled x y := by
  simp [State.fiqDisabled]
@[simp] theorem State.call_cond_at (c : Nat) (l : List SeqStep) (x y : Nat) : (s.call c l).cond x y = s.cond x y := by
  simp [State.cond]
@[simp] theorem State.call_arm_at (c : Nat) (l : List SeqStep) (x y : Nat) : (s.call c l).arm x y = s.arm x y := by
  simp [State.arm]
@[simp] theorem State.call_fiqDisabled_at (c : Nat) (l : List SeqStep) (x y : Nat) : (s.call c l).fiqDisabled x y = s.fiqDisabled x y := by
  simp [State.fiqDisabled]
@[simp] theorem State.refuse_cond_at (r : RefuseReason) (x y : Nat) : (s.refuse r).cond x y = s.cond x y := (rfl)
@[simp] theorem State.refuse_arm_at (r : RefuseReason) (x y : Nat) : (s.refuse r).arm x y = s.arm x y := (rfl)
@[simp] theorem State.refuse_fiqDisabled_at (r : RefuseReason) (x y : Nat) : (s.refuse r).fiqDisabled x y = s.fiqDisabled x y := (rfl)
@[simp] theorem State.addDiag_cond_at (c : Nat) (code : DiagCode) (info : DiagInfo) (x y : Nat) : (s.addDiag c code info).cond x y = s.cond x y := (rfl)
@[simp] theorem State.addDiag_arm_at (c : Nat) (code : DiagCode) (info : DiagInfo) (x y : Nat) : (s.addDiag c code info).arm x y = s.arm x y := (rfl)
@[simp] theorem State.addDiag_fiqDisabled_at (c : Nat) (code : DiagCode) (info : DiagInfo) (x y : Nat) : (s.addDiag c code info).fiqDisabled x y = s.fiqDisabled x y := (rfl)
@[simp] theorem State.setArm_cond_at (c k : Nat) (v : Bool) (x y : Nat) : (s.setArm c k v).cond x y = s.cond x y := by
  simp [State.cond]
@[simp] theorem State.setArm_fiqDisabled_at (c k : Nat) (v : Bool) (x y : Nat) : (s.setArm c k v).fiqDisabled x y = s.fiqDisabled x y := by
  simp [State.fiqDisabled]
@[simp] theorem State.withDraws_cond_at (n : Nat) (x y : Nat) : (s.withDraws n).cond x y = s.cond x y := (rfl)
@[simp] theorem State.withDraws_arm_at (n : Nat) (x y : Nat) : (s.withDraws n).arm x y = s.arm x y := (rfl)
@[simp] theorem State.withDraws_fiqDisabled_at (n : Nat) (x y : Nat) : (s.withDraws n).fiqDisabled x y = s.fiqDisabled x y := (rfl)
@[simp] theorem State.withSched_cond_at (l : List Mover) (x y : Nat) : (s.withSched l).cond x y = s.cond x y := (rfl)
@[simp] theorem State.withSched_arm_at (l : List Mover) (x y : Nat) : (s.withSched l).arm x y = s.arm x y := (rfl)
@[simp] theorem State.withSched_fiqDisabled_at (l : List Mover) (x y : Nat) : (s.withSched l).fiqDisabled x y = s.fiqDisabled x y := (rfl)
@[simp] theorem State.withAffLock_cond_at (o : Option Nat) (x y : Nat) : (s.withAffLock o).cond x y = s.cond x y := (rfl)
@[simp] theorem State.withAffLock_arm_at (o : Option Nat) (x y : Nat) : (s.withAffLock o).arm x y = s.arm x y := (rfl)
@[simp] theorem State.withAffLock_fiqDisabled_at (o : Option Nat) (x y : Nat) : (s.withAffLock o).fiqDisabled x y = s.fiqDisabled x y := (rfl)
@[simp] theorem State.withArmed_cond_at (x y : Nat) : (s.withArmed).cond x y = s.cond x y := (rfl)
@[simp] theorem State.withArmed_arm_at (x y : Nat) : (s.withArmed).arm x y = s.arm x y := (rfl)
@[simp] theorem State.withArmed_fiqDisabled_at (x y : Nat) : (s.withArmed).fiqDisabled x y = s.fiqDisabled x y := (rfl)
@[simp] theorem State.setSeq_cond_at (c : Nat) (l : List SeqStep) (x y : Nat) : (s.setSeq c l).cond x y = s.cond x y := by
  simp [State.cond]
@[simp] theorem State.setSeq_arm_at (c : Nat) (l : List SeqStep) (x y : Nat) : (s.setSeq c l).arm x y = s.arm x y := by
  simp [State.arm]
@[simp] theorem State.setSeq_fiqDisabled_at (c : Nat) (l : List SeqStep) (x y : Nat) : (s.setSeq c l).fiqDisabled x y = s.fiqDisabled x y := by
  simp [State.fiqDisabled]
@[simp] theorem State.setQueue_cond_at (c : Nat) (l : List Request) (x y : Nat) : (s.setQueue c l).cond x y = s.cond x y := by
  simp [State.cond]
@[simp] theorem State.setQueue_arm_at (c : Nat) (l : List Request) (x y : Nat) : (s.setQueue c l).arm x y = s.arm x y := by
  simp [State.arm]
@[simp] theorem State.setQueue_fiqDisabled_at (c : Nat) (l : List Request) (x y : Nat) : (s.setQueue c l).fiqDisabled x y = s.fiqDisabled x y := by
  simp [State.fiqDisabled]
@[simp] theorem State.setFe_cond_at (c : Nat) (f : FrontEnd) (x y : Nat) : (s.setFe c f).cond x y = s.cond x y := by
  simp [State.cond]
@[simp] theorem State.setFe_arm_at (c : Nat) (f : FrontEnd) (x y : Nat) : (s.setFe c f).arm x y = s.arm x y := by
  simp [State.arm]
@[simp] theorem State.setFe_fiqDisabled_at (c : Nat) (f : FrontEnd) (x y : Nat) : (s.setFe c f).fiqDisabled x y = s.fiqDisabled x y := by
  simp [State.fiqDisabled]
@[simp] theorem State.setPending_cond_at (c : Nat) (v : Word) (x y : Nat) : (s.setPending c v).cond x y = s.cond x y := by
  simp [State.cond]
@[simp] theorem State.setPending_arm_at (c : Nat) (v : Word) (x y : Nat) : (s.setPending c v).arm x y = s.arm x y := by
  simp [State.arm]
@[simp] theorem State.setPending_fiqDisabled_at (c : Nat) (v : Word) (x y : Nat) : (s.setPending c v).fiqDisabled x y = s.fiqDisabled x y := by
  simp [State.fiqDisabled]
@[simp] theorem State.setEnabled_cond_at (c : Nat) (v : Word) (x y : Nat) : (s.setEnabled c v).cond x y = s.cond x y := by
  simp [State.cond]
@[simp] theorem State.setEnabled_arm_at (c : Nat) (v : Word) (x y : Nat) : (s.setEnabled c v).arm x y = s.arm x y := by
  simp [State.arm]
@[simp] theorem State.setEnabled_fiqDisabled_at (c : Nat) (v : Word) (x y : Nat) : (s.setEnabled c v).fiqDisabled x y = s.fiqDisabled x y := by
  simp [State.fiqDisabled]
@[simp] theorem State.setIpiPend_cond_at (c : Nat) (b : IpiBits) (x y : Nat) : (s.setIpiPend c b).cond x y = s.cond x y := by
  simp [State.cond]
@[simp] theorem State.setIpiPend_arm_at (c : Nat) (b : IpiBits) (x y : Nat) : (s.setIpiPend c b).arm x y = s.arm x y := by
  simp [State.arm]
@[simp] theorem State.setIpiPend_fiqDisabled_at (c : Nat) (b : IpiBits) (x y : Nat) : (s.setIpiPend c b).fiqDisabled x y = s.fiqDisabled x y := by
  simp [State.fiqDisabled]
@[simp] theorem State.setIpiMask_cond_at (c : Nat) (b : IpiBits) (x y : Nat) : (s.setIpiMask c b).cond x y = s.cond x y := by
  simp [State.cond]
@[simp] theorem State.setIpiMask_arm_at (c : Nat) (b : IpiBits) (x y : Nat) : (s.setIpiMask c b).arm x y = s.arm x y := by
  simp [State.arm]
@[simp] theorem State.setIpiMask_fiqDisabled_at (c : Nat) (b : IpiBits) (x y : Nat) : (s.setIpiMask c b).fiqDisabled x y = s.fiqDisabled x y := by
  simp [State.fiqDisabled]
@[simp] theorem State.setFiqDisabled_cond_at (c d : Nat) (v : Bool) (x y : Nat) : (s.setFiqDisabled c d v).cond x y = s.cond x y := by
  simp [State.cond]
@[simp] theorem State.setFiqDisabled_arm_at (c d : Nat) (v : Bool) (x y : Nat) : (s.setFiqDisabled c d v).arm x y = s.arm x y := by
  simp [State.arm]

@[simp] theorem State.setBound_line (dom : Dom) (idx h i : Nat) :
    (s.setBound dom idx h).line i = s.line i := by cases dom <;> rfl

@[simp] theorem State.setBound_core (dom : Dom) (idx h c : Nat) :
    (s.setBound dom idx h).core c = s.core c := by cases dom <;> rfl

@[simp] theorem State.setBound_flagsOf (dom dom' : Dom) (idx idx' h : Nat) :
    (s.setBound dom idx h).flagsOf dom' idx' = s.flagsOf dom' idx' := by cases dom <;> rfl

@[simp] theorem State.setFlags_line (dom : Dom) (idx i : Nat) (v : Word) :
    (s.setFlags dom idx v).line i = s.line i := by cases dom <;> rfl

@[simp] theorem State.setFlags_core (dom : Dom) (idx c : Nat) (v : Word) :
    (s.setFlags dom idx v).core c = s.core c := by cases dom <;> rfl

@[simp] theorem State.setFlags_bound (dom dom' : Dom) (idx idx' : Nat) (v : Word) :
    (s.setFlags dom idx v).bound dom' idx' = s.bound dom' idx' := by cases dom <;> cases dom' <;> rfl

theorem State.updCores_core (f : Nat → CoreState → CoreState) (c : Nat) :
    (s.updCores f).core c = if c < s.cores.length then f c (s.core c) else s.core c :=
  getD_mapFrom f s.cores c default

theorem State.setBound_bound_self {dom : Dom} {idx : Nat} (h : Nat) (hs : s.Shaped)
    (hi : idx < s.cfg.domSize dom) : (s.setBound dom idx h).bound dom idx = some h := by
  obtain ⟨-, -, -, h1, h2, h3, -⟩ := hs
  cases dom <;> simp only [Config.domSize] at hi <;>
    simp [State.bound, State.setBound, List.getD_eq_getElem?_getD, h1, h2, h3, hi]

theorem State.setBound_bound_other {dom dom' : Dom} {idx idx' : Nat} (h : Nat)
    (hne : ¬(dom = dom' ∧ idx = idx')) :
    (s.setBound dom idx h).bound dom' idx' = s.bound dom' idx' := by
  cases dom <;> cases dom' <;> simp_all [State.bound, State.setBound, List.getD_eq_getElem?_getD]

/-- The flags of a line of the domain are stored for it, and for no other line. -/
theorem State.setFlags_flagsOf_self {dom : Dom} {idx : Nat} (v : Word) (hs : s.Shaped)
    (hi : idx < s.cfg.domSize dom) : (s.setFlags dom idx v).flagsOf dom idx = some v := by
  obtain ⟨-, -, -, -, -, -, h1, h2, h3, -⟩ := hs
  cases dom <;> simp only [Config.domSize] at hi <;>
    simp [State.flagsOf, State.setFlags, List.getD_eq_getElem?_getD, h1, h2, h3, hi]

theorem State.setFlags_flagsOf_other {dom dom' : Dom} {idx idx' : Nat} (v : Word)
    (hne : ¬(dom = dom' ∧ idx = idx')) :
    (s.setFlags dom idx v).flagsOf dom' idx' = s.flagsOf dom' idx' := by
  cases dom <;> cases dom' <;> simp_all [State.flagsOf, State.setFlags, List.getD_eq_getElem?_getD]

end Sys2Proof.Machine
end

