-- ==== Sys2Proof/Laws/Frame.lean ====
section
/-!
SUPPORT. How the terms of Safety.lean pass through the updates of Machine/Ops.lean: what a frame
statement needs of each of them, said once.
-/

namespace Sys2Proof.Machine

open Sys2Proof

/-- The entry writes no ordinary memory. -/
def Event.quiet (e : Event) : Prop := ∀ who addr v, e ≠ .memWrite who addr v

@[simp] theorem Event.quiet_access (c : Nat) (k : Option AccessKind) (rs ws : List Loc) :
    (Event.access c k rs ws).quiet := by simp [Event.quiet]

@[simp] theorem Event.quiet_report (c : Nat) (k : AccessKind) (e : EventKind) :
    (Event.report c k e).quiet := by simp [Event.quiet]

@[simp] theorem Event.quiet_fence (c : Nat) (k : FenceKind) : (Event.fence c k).quiet := by
  simp [Event.quiet]

@[simp] theorem Event.quiet_handler (c : Nat) (dom : Dom) (idx h : Nat) :
    (Event.handler c dom idx h).quiet := by simp [Event.quiet]

@[simp] theorem Event.quiet_handlerEnd (c : Nat) : (Event.handlerEnd c).quiet := by
  simp [Event.quiet]

@[simp] theorem Event.quiet_trapEntry (c : Nat) : (Event.trapEntry c).quiet := by simp [Event.quiet]

@[simp] theorem Event.quiet_trapReturn (c : Nat) : (Event.trapReturn c).quiet := by
  simp [Event.quiet]

@[simp] theorem Event.quiet_input (m : Mover) : (Event.input m).quiet := by simp [Event.quiet]

@[simp] theorem Event.quiet_memRead (c addr : Nat) (src : Option Nat) :
    (Event.memRead c addr src).quiet := by simp [Event.quiet]

/-! ## The total order -/

@[simp] theorem State.Extends.refl (s : State) : s.Extends s := ⟨[], by simp, by simp⟩

theorem State.Extends.trans {s t u : State} (h : s.Extends t) (h' : t.Extends u) : s.Extends u := by
  obtain ⟨a, ha, hb⟩ := h
  obtain ⟨a', ha', hb'⟩ := h'
  refine ⟨a ++ a', by rw [ha', ha, List.append_assoc], fun e he => ?_⟩
  rcases List.mem_append.1 he with he | he
  · exact hb e he
  · exact hb' e he

/-- Only the total order matters. -/
theorem State.Extends.congr {s t u : State} (h : s.Extends t) (ht : u.trace = t.trace) :
    s.Extends u := by
  obtain ⟨a, ha, hb⟩ := h
  exact ⟨a, by rw [ht, ha], hb⟩

theorem State.Extends.note {s t : State} (h : s.Extends t) {e : Event} (he : e.quiet) :
    s.Extends (t.note e) := by
  refine h.trans ⟨[e], rfl, fun x hx => ?_⟩
  rw [List.mem_singleton.1 hx]
  exact he

/-- A diagnostic is recorded as a write of block state, and writes no ordinary memory. -/
theorem State.Extends.addDiag {s t : State} (h : s.Extends t) (c : Nat) (code : DiagCode)
    (info : DiagInfo) : s.Extends (t.addDiag c code info) :=
  (h.note (e := .access c none [] [.diag]) (by simp)).congr rfl

/-- What a diagnostic changes: the list of diagnostics and the total order. -/
theorem State.addDiag_eq (s : State) (c : Nat) (code : DiagCode) (info : DiagInfo) :
    s.addDiag c code info = { s with
      diag := s.diag ++ [⟨c, code, info⟩], trace := s.trace ++ [.access c none [] [.diag]] } := rfl

/-! ## The frame -/

@[simp] theorem State.SameRest.refl (s : State) : s.SameRest s :=
  ⟨.refl s, rfl, rfl, rfl⟩

theorem State.SameRest.trans {s t u : State} (h : s.SameRest t) (h' : t.SameRest u) :
    s.SameRest u := by
  obtain ⟨a1, a2, a3, a4⟩ := h
  obtain ⟨b1, b2, b3, b4⟩ := h'
  refine ⟨a1.trans b1, b2.trans a2, b3.trans a3, ?_⟩
  rw [b4, a4]

@[simp] theorem State.SameRest.cfg {s t : State} (h : s.SameRest t) : t.cfg = s.cfg := by
  rw [h.2.2.2]

@[simp] theorem State.SameRest.note {s t : State} (h : s.SameRest t) {e : Event} (he : e.quiet) :
    s.SameRest (t.note e) :=
  h.trans ⟨(State.Extends.refl t).note he, rfl, rfl, rfl⟩

@[simp] theorem State.SameRest.access {s t : State} (h : s.SameRest t) (c : Nat)
    (k : Option AccessKind) (rs ws : List Loc) : s.SameRest (t.access c k rs ws) :=
  h.note (by simp)

@[simp] theorem State.SameRest.updCore {s t : State} (h : s.SameRest t) (c : Nat)
    (f : CoreState → CoreState) : s.SameRest (t.updCore c f) :=
  h.trans ⟨.congr (.refl t) rfl, rfl, by simp, rfl⟩

@[simp] theorem State.SameRest.updLine {s t : State} (h : s.SameRest t) (i : Nat) (f : Line → Line) :
    s.SameRest (t.updLine i f) :=
  h.trans ⟨.congr (.refl t) rfl, by simp, rfl, rfl⟩

@[simp] theorem State.SameRest.updBank {s t : State} (h : s.SameRest t) (n : Nat) (v : Word)
    (f : Line → Line) : s.SameRest (t.updBank n v f) :=
  h.trans ⟨.congr (.refl t) rfl, by simp, rfl, rfl⟩

@[simp] theorem State.SameRest.reply {s t : State} (h : s.SameRest t) (c : Nat) (r : Result) :
    s.SameRest (t.reply c r) := h.updCore c _

@[simp] theorem State.SameRest.call {s t : State} (h : s.SameRest t) (c : Nat) (l : List SeqStep) :
    s.SameRest (t.call c l) := h.updCore c _

@[simp] theorem State.SameRest.setArm {s t : State} (h : s.SameRest t) (c k : Nat) (v : Bool) :
    s.SameRest (t.setArm c k v) := h.updCore c _

@[simp] theorem State.SameRest.setFiqDisabled {s t : State} (h : s.SameRest t) (c d : Nat) (v : Bool) :
    s.SameRest (t.setFiqDisabled c d v) := h.updCore c _

@[simp] theorem State.SameRest.withDraws {s t : State} (h : s.SameRest t) (n : Nat) :
    s.SameRest (t.withDraws n) :=
  h.trans ⟨.congr (.refl t) rfl, rfl, rfl, rfl⟩

@[simp] theorem State.SameRest.updCores {s t : State} (h : s.SameRest t)
    (f : Nat → CoreState → CoreState) : s.SameRest (t.updCores f) :=
  h.trans ⟨.congr (.refl t) rfl, rfl, by simp, rfl⟩

@[simp] theorem State.SameRest.setSeq {s t : State} (h : s.SameRest t) (c : Nat) (l : List SeqStep) :
    s.SameRest (t.setSeq c l) := h.updCore c _

@[simp] theorem State.SameRest.setQueue {s t : State} (h : s.SameRest t) (c : Nat) (l : List Request) :
    s.SameRest (t.setQueue c l) := h.updCore c _

@[simp] theorem State.SameRest.setPending {s t : State} (h : s.SameRest t) (c : Nat) (v : Word) :
    s.SameRest (t.setPending c v) := h.updCore c _

@[simp] theorem State.SameRest.setEnabled {s t : State} (h : s.SameRest t) (c : Nat) (v : Word) :
    s.SameRest (t.setEnabled c v) := h.updCore c _

@[simp] theorem State.SameRest.setIpiPend {s t : State} (h : s.SameRest t) (c : Nat) (b : IpiBits) :
    s.SameRest (t.setIpiPend c b) := h.updCore c _

@[simp] theorem State.SameRest.setIpiMask {s t : State} (h : s.SameRest t) (c : Nat) (b : IpiBits) :
    s.SameRest (t.setIpiMask c b) := h.updCore c _

@[simp] theorem State.SameRest.setFe {s t : State} (h : s.SameRest t) (c : Nat) (f : FrontEnd) :
    s.SameRest (t.setFe c f) := h.updCore c _

/-! ## Free choices -/

/-- A choice gives an element of the list, and draws at most one number. -/
theorem State.choose_spec {α : Type} {s t : State} {l : List α} {x : α}
    (h : s.choose l = some (x, t)) : x ∈ l ∧ ∃ n, t = s.withDraws n := by
  match l with
  | [] => simp [State.choose] at h
  | [y] =>
    simp [State.choose] at h
    obtain ⟨rfl, rfl⟩ := h
    exact ⟨by simp, s.draws, rfl⟩
  | y :: z :: l =>
    simp only [State.choose, Option.some.injEq, Prod.mk.injEq] at h
    obtain ⟨hx, rfl⟩ := h
    have hlt : Config.freeNat s.draws % (l.length + 2) < (y :: z :: l).length := 
      Nat.mod_lt _ (Nat.succ_pos _)
    rw [List.getD_eq_getElem _ _ hlt] at hx
    exact ⟨hx ▸ List.getElem_mem hlt, _, rfl⟩

theorem State.choose_none {α : Type} {s : State} {l : List α} : s.choose l = none ↔ l = [] := by
  match l with
  | [] => simp [State.choose]
  | [y] => simp [State.choose]
  | y :: z :: l => simp [State.choose]

/-- Where there is something to choose, something is chosen. -/
theorem State.choose_of_ne {α : Type} (s : State) {l : List α} (h : l ≠ []) :
    ∃ x n, s.choose l = some (x, s.withDraws n) ∧ x ∈ l := by
  cases hc : s.choose l with
  | none => exact absurd (State.choose_none.1 hc) h
  | some p =>
    obtain ⟨x, t⟩ := p
    obtain ⟨hx, n, rfl⟩ := State.choose_spec hc
    exact ⟨x, n, rfl, hx⟩

/-- A choice depends on the count of draws alone. -/
theorem State.choose_congr {α : Type} {s t : State} {l : List α} {x : α} {n : Nat}
    (h : t.draws = s.draws) (hc : s.choose l = some (x, s.withDraws n)) :
    t.choose l = some (x, t.withDraws n) := by
  have hd : (s.withDraws n).draws = n := rfl
  match l with
  | [] => simp [State.choose] at hc
  | [y] =>
    simp only [State.choose, Option.some.injEq, Prod.mk.injEq] at hc ⊢
    have hn : s.draws = n := by rw [hc.2, hd]
    refine ⟨hc.1, ?_⟩
    rw [← hn, ← h]
    rfl
  | y :: z :: l =>
    simp only [State.choose, Option.some.injEq, Prod.mk.injEq] at hc ⊢
    have hn : s.draws + 1 = n := by rw [← hd, ← hc.2]; rfl
    exact ⟨by rw [h]; exact hc.1, by rw [h, hn]⟩

end Sys2Proof.Machine
end

