-- ==== Sys2Proof/Laws/Memory.lean ====
section
/-!
SUPPORT. The history of ordinary memory (spec/20_memory.md R95): every memory operation keeps its
canonical form, a write is one of the values a later read may return, and it adds nothing to what
another address may read as.
-/

namespace Sys2Proof.Machine

open Sys2Proof

theorem entryAt_append {tr l : List Event} {n : Nat} {p : Event → Bool} (h : entryAt tr n p = true) :
    entryAt (tr ++ l) n p = true := by
  unfold entryAt at h ⊢
  cases hn : tr[n]? with
  | none => simp [hn] at h
  | some e =>
    have hlt := (List.getElem?_eq_some_iff.1 hn).1
    rw [List.getElem?_append_left hlt, hn]
    simpa [hn] using h

/-- The canonical form, as a property of each recorded read. -/
theorem Memory.wf_iff {tr : List Event} : Memory.wf tr = true ↔
    ∀ n c addr w, tr[n]? = some (.memRead c addr (some w)) →
      w < n ∧ entryAt tr w (Event.isMemWriteTo addr) = true := by
  simp only [Memory.wf, List.all_eq_true, List.mem_range]
  constructor
  · intro h n c addr w hn
    have := h n (List.getElem?_eq_some_iff.1 hn).1
    simpa [hn] using this
  · intro h n _
    split
    · rename_i c addr w hn
      simpa using h n _ _ _ hn
    · rfl

/-- An entry keeps the canonical form when it is no read of a write that is not there. -/
theorem Memory.wf_snoc {tr : List Event} {e : Event} (h : Memory.wf tr = true)
    (he : ∀ c addr w, e = .memRead c addr (some w) →
      w < tr.length ∧ entryAt tr w (Event.isMemWriteTo addr) = true) :
    Memory.wf (tr ++ [e]) = true := by
  rw [Memory.wf_iff] at h ⊢
  intro n c addr w hn
  by_cases hlt : n < tr.length
  · rw [List.getElem?_append_left hlt] at hn
    exact ⟨(h n c addr w hn).1, entryAt_append (h n c addr w hn).2⟩
  · rw [List.getElem?_append_right (Nat.not_lt.1 hlt)] at hn
    have h0 : n - tr.length = 0 := by
      have := (List.getElem?_eq_some_iff.1 hn).1
      simp only [List.length_singleton] at this
      omega
    rw [h0] at hn
    obtain ⟨h1, h2⟩ := he c addr w (by simpa using hn)
    exact ⟨by omega, entryAt_append h2⟩

/-- An entry that is no read of memory keeps the canonical form. -/
theorem Memory.wf_note {s : State} {e : Event} (h : Memory.wf s.trace = true)
    (he : ∀ c addr src, e ≠ .memRead c addr src) : Memory.wf (s.note e).trace = true :=
  Memory.wf_snoc h (fun c addr w hw => absurd hw (he c addr (some w)))

theorem mem_memWrites {tr : List Event} {addr n : Nat} :
    n ∈ memWrites tr addr ↔ n < tr.length ∧ entryAt tr n (Event.isMemWriteTo addr) = true := by
  simp [memWrites]

/-- Whatever a read may return is a write to its address, or the initial value. -/
theorem mem_memSources {tr : List Event} {c addr w : Nat} {line : Option Nat}
    (h : some w ∈ memSources tr c line addr) :
    w < tr.length ∧ entryAt tr w (Event.isMemWriteTo addr) = true := by
  rw [← mem_memWrites]
  unfold memSources at h
  split at h
  · simpa using h
  · simp only [List.mem_map, List.mem_filter, Option.some.injEq, exists_eq_right] at h
    exact h.1

/-- There is always something to return. -/
theorem memSources_ne_nil (tr : List Event) (c addr : Nat) (line : Option Nat) :
    memSources tr c line addr ≠ [] := by
  unfold memSources
  split
  · simp
  · rename_i w hw
    have hm := (List.mem_filter.1 (List.mem_of_getLast? hw)).1
    intro h0
    have : some w ∈ ((memWrites tr addr).filter (fun n => decide (w ≤ n))).map some :=
      List.mem_map.2 ⟨w, List.mem_filter.2 ⟨hm, by simp⟩, rfl⟩
    simp [h0] at this

/-- A write keeps the canonical form. -/
theorem Memory.wf_memWrite {s : State} (who : MemAgent) (addr : Nat) (v : Byte)
    (h : Memory.wf s.trace = true) : Memory.wf (s.memWrite who addr v).trace = true :=
  Memory.wf_note h (by simp)

/-- A read keeps the canonical form. -/
theorem Memory.wf_memRead {s : State} (c addr : Nat) (h : Memory.wf s.trace = true) :
    Memory.wf (s.memRead c addr).trace = true := by
  unfold State.memRead
  split
  · exact h
  · rename_i src t hc
    have hs : src ∈ memSources s.trace c (s.handlerLine c) addr ∧ t.trace = s.trace := by
      revert hc
      generalize memSources s.trace c (s.handlerLine c) addr = l
      match l with
      | [] => simp [State.choose]
      | [x] => simp only [State.choose]; rintro ⟨⟩; simp
      | x :: y :: l =>
        simp only [State.choose, Option.some.injEq, Prod.mk.injEq]
        rintro ⟨hx, rfl⟩
        have hlt : Config.freeNat s.draws % (l.length + 2) < (x :: y :: l).length :=
          Nat.mod_lt _ (Nat.succ_pos _)
        rw [List.getD_eq_getElem _ _ hlt] at hx
        exact ⟨hx ▸ List.getElem_mem hlt, rfl⟩
    show Memory.wf (t.trace ++ [.memRead c addr src]) = true
    rw [hs.2]
    refine Memory.wf_snoc h (fun c' addr' w hw => ?_)
    simp only [Event.memRead.injEq] at hw
    obtain ⟨rfl, rfl, rfl⟩ := hw
    exact mem_memSources hs.1

theorem Memory.wf_reset : Memory.wf State.reset.trace = true := (rfl)

/-- A write to an address is the newest write to it. -/
theorem memWrites_same (tr : List Event) (who : MemAgent) (addr : Nat) (v : Byte) :
    memWrites (tr ++ [.memWrite who addr v]) addr = memWrites tr addr ++ [tr.length] := by
  simp only [memWrites, List.length_append, List.length_singleton, List.range_succ,
    List.filter_append]
  congr 1
  · refine List.filter_congr (fun n hn => ?_)
    simp only [entryAt, List.getElem?_append_left (List.mem_range.1 hn)]
  · simp [entryAt, Event.isMemWriteTo]

/-- An entry that is no write to an address leaves the writes to it as they are. -/
theorem memWrites_other (tr : List Event) (e : Event) (addr : Nat)
    (h : Event.isMemWriteTo addr e = false) : memWrites (tr ++ [e]) addr = memWrites tr addr := by
  simp only [memWrites, List.length_append, List.length_singleton, List.range_succ,
    List.filter_append]
  conv => rhs; rw [← List.append_nil (List.filter _ _)]
  congr 1
  · refine List.filter_congr (fun n hn => ?_)
    simp only [entryAt, List.getElem?_append_left (List.mem_range.1 hn)]
  · simp [entryAt, h]

/-- The newest write's value is the value written. -/
theorem memValue_last (tr : List Event) (who : MemAgent) (addr : Nat) (v : Byte) :
    memValue (tr ++ [.memWrite who addr v]) addr (some tr.length) = v := by
  simp [memValue]

end Sys2Proof.Machine
end

