-- ==== Sys2Proof/Laws/Operands.lean ====
section
/-!
SUPPORT. Bits of masks, the bank and bit of a line, the fields of INFO and of the event word.
-/

namespace Sys2Proof

open Sys2Proof.Machine

theorem high_append (a b : BitVec 16) : (a ++ b).extractLsb' 16 16 = a := by
  apply BitVec.eq_of_getLsbD_eq
  intro i hi
  rw [BitVec.getLsbD_extractLsb']
  exact (congrArg _ (BitVec.getLsbD_append ..)).trans (by simp [hi])

theorem low_append (a b : BitVec 16) : (a ++ b).extractLsb' 0 16 = b := by
  apply BitVec.eq_of_getLsbD_eq
  intro i hi
  rw [BitVec.getLsbD_extractLsb']
  exact (congrArg _ (BitVec.getLsbD_append ..)).trans (by simp [hi])

theorem eventType_append (a b : BitVec 16) : eventType (a ++ b) = a := high_append a b

theorem eventIndex_append (a b : BitVec 16) : eventIndex (a ++ b) = b := low_append a b

theorem getLsbD_oneBit (n b : Nat) : (oneBit n).getLsbD b = (decide (b < 32) && decide (b = n)) := by
  rw [oneBit, BitVec.getLsbD_ofNat, Nat.testBit_two_pow]
  simp only [eq_comm]

theorem oneBit_ne_zero {n : Nat} (h : n < 32) : oneBit n ≠ 0 := by
  intro h0
  have := getLsbD_oneBit n n
  rw [h0] at this
  simp [h] at this

theorem getLsbD_clearBit (m : Word) (b n : Nat) :
    (clearBit m b).getLsbD n = (m.getLsbD n && !decide (n = b)) := by
  rw [clearBit, BitVec.getLsbD_and, BitVec.getLsbD_not, getLsbD_oneBit]
  by_cases hn : n < 32
  · simp [hn]
  · rw [BitVec.getLsbD_of_ge m _ (Nat.le_of_not_lt hn)]; simp

theorem mem_setBits (n b : Nat) (m : Word) : b ∈ setBits n m ↔ b < n ∧ m.getLsbD b = true := by
  simp [setBits]

@[simp] theorem setBits_zero (n : Nat) : setBits n 0#32 = [] := by simp [setBits]

theorem eq_zero_of_no_bit {v : Word} (h : ∀ b, v.getLsbD b = false) : v = 0 := by
  apply BitVec.eq_of_getLsbD_eq
  intro i _
  rw [h]
  simp

theorem exists_bit_of_ne_zero {v : Word} (h : v ≠ 0) : ∃ b, v.getLsbD b = true := by
  by_contra hn
  exact h (eq_zero_of_no_bit (fun b => by simpa using fun hb => hn ⟨b, hb⟩))

/-- A word without a bit at or above n. -/
theorem shift_eq_zero (v : Word) (n : Nat) : v >>> n = 0 ↔ ∀ b, v.getLsbD b = true → b < n := by
  constructor
  · intro h b hb
    by_contra hn
    have := congrArg (fun w : Word => w.getLsbD (b - n)) h
    simp [Nat.add_sub_cancel' (Nat.le_of_not_lt hn), hb] at this
  · intro h
    refine eq_zero_of_no_bit (fun b => ?_)
    by_contra hb
    have := h (n + b) (by simpa using hb)
    omega

theorem badDestination_false (cfg : Config) (v : Word) :
    cfg.badDestination v = false ↔ ∀ b, v.getLsbD b = true → b < cfg.maxCores := by
  rw [← shift_eq_zero]; simp [Config.badDestination]

theorem badSelector_false (cfg : Config) (v : Word) :
    cfg.badSelector v = false ↔
      ∀ b, v.getLsbD b = true → b = cfg.ipiOtherBit ∨ b = cfg.ipiSelfBit := by
  have key : ∀ b, (v &&& ~~~(cfg.otherBit ||| cfg.selfBit)).getLsbD b =
      (v.getLsbD b && !(decide (b = cfg.ipiOtherBit) || decide (b = cfg.ipiSelfBit))) := by
    intro b
    by_cases hb : b < 32
    · simp only [Config.otherBit, Config.selfBit, BitVec.getLsbD_and, BitVec.getLsbD_not,
        BitVec.getLsbD_or, getLsbD_oneBit, hb, decide_true, Bool.true_and]
    · rw [BitVec.getLsbD_of_ge _ _ (Nat.le_of_not_lt hb), BitVec.getLsbD_of_ge _ _ (Nat.le_of_not_lt hb)]
      rfl
  constructor
  · intro h b hb
    have h0 : v &&& ~~~(cfg.otherBit ||| cfg.selfBit) = 0 := by
      simpa [Config.badSelector] using h
    have := key b
    rw [h0] at this
    simp [hb] at this
    by_cases h1 : b = cfg.ipiOtherBit
    · exact .inl h1
    · exact .inr (this h1)
  · intro h
    have h0 : v &&& ~~~(cfg.otherBit ||| cfg.selfBit) = 0 := by
      refine eq_zero_of_no_bit (fun b => ?_)
      rw [key]
      by_cases hb : v.getLsbD b = true
      · rcases h b hb with h1 | h1 <;> simp [h1]
      · simp [hb]
    simp only [Config.badSelector, bne_eq_false_iff_eq]
    exact h0

theorem onlyBelow_iff (n : Nat) (v : Word) : onlyBelow n v ↔ ∀ b, v.getLsbD b = true → b < n := by
  rw [← shift_eq_zero]
  constructor
  · intro h
    apply BitVec.eq_of_toNat_eq
    simp [BitVec.toNat_ushiftRight, Nat.shiftRight_eq_div_pow, Nat.div_eq_of_lt h]
  · intro h
    have := congrArg BitVec.toNat h
    simp [BitVec.toNat_ushiftRight, Nat.shiftRight_eq_div_pow] at this
    exact this

theorem getLsbD_vipiBits (cfg : Config) (m : Word) (b : Nat) :
    (cfg.vipiBits m).getLsbD b = (decide (b < cfg.nrVipi) && m.getLsbD b) := by
  rw [Config.vipiBits, BitVec.getLsbD_ofNat, Nat.testBit_mod_two_pow]
  by_cases hb : b < 32
  · simp [hb, BitVec.getLsbD]
  · rw [BitVec.getLsbD_of_ge m _ (Nat.le_of_not_lt hb)]; simp [hb]

/-- A mask of vIPI lines is all of itself. -/
theorem vipiBits_eq {cfg : Config} {m : Word} (h : ∀ b, m.getLsbD b = true → b < cfg.nrVipi) :
    cfg.vipiBits m = m := by
  apply BitVec.eq_of_toNat_eq
  rw [Config.vipiBits, BitVec.toNat_ofNat, Nat.mod_eq_of_lt (a := m.toNat) ((onlyBelow_iff _ _).2 h),
    Nat.mod_eq_of_lt m.isLt]

theorem vipiBits_oneBit {cfg : Config} {v : Nat} (h : v < cfg.nrVipi) :
    cfg.vipiBits (oneBit v) = oneBit v :=
  vipiBits_eq (fun b hb => by
    have := getLsbD_oneBit v b
    rw [hb] at this
    simp at this
    exact this.2 ▸ h)

theorem inBank_iff (n : Nat) (v : Word) (i : Nat) : inBank n v i = true ↔ actedOn n v i := by
  rw [inBank, bankOf, actedOn, Bool.and_eq_true, decide_eq_true_eq]
  constructor
  · rintro ⟨rfl, h⟩
    exact ⟨i % 32, by omega, h, by omega⟩
  · rintro ⟨b, hb, hv, rfl⟩
    have h1 : (32 * n + b) / 32 = n := by omega
    have h2 : (32 * n + b) % 32 = b := by omega
    exact ⟨h1, by rw [h2]; exact hv⟩

/-- The single bit of line i acts on line i alone. -/
theorem inBank_bitOf (i j : Nat) : inBank (bankOf i) (bitOf i) j = decide (j = i) := by
  simp only [inBank, bankOf, bitOf, getLsbD_oneBit]
  by_cases h : j = i
  · subst h; simp [Nat.mod_lt]
  · by_cases h1 : j / 32 = i / 32
    · have h2 : j % 32 ≠ i % 32 := by omega
      simp [h, h2]
    · simp [h, h1]

theorem selects_otherBit (cfg : Config) (h : cfg.CodesWf) :
    cfg.selects cfg.otherBit = fun sel => sel == Sel.other := by
  obtain ⟨-, -, -, -, h1, h2, h3⟩ := h
  funext sel
  cases sel <;> simp [Config.selects, Config.otherBit, getLsbD_oneBit, h1, Ne.symm h3]

theorem selects_both (cfg : Config) (h : cfg.CodesWf) :
    cfg.selects (cfg.otherBit ||| cfg.selfBit) = fun _ => true := by
  obtain ⟨-, -, -, -, h1, h2, h3⟩ := h
  funext sel
  cases sel <;> simp [Config.selects, Config.otherBit, Config.selfBit, getLsbD_oneBit, h1, h2]

theorem badSelector_otherBit (cfg : Config) : cfg.badSelector cfg.otherBit = false := by
  rw [badSelector_false]
  intro b hb
  simp [Config.otherBit, getLsbD_oneBit] at hb
  exact .inl hb.2

theorem badSelector_both (cfg : Config) :
    cfg.badSelector (cfg.otherBit ||| cfg.selfBit) = false := by
  rw [badSelector_false]
  intro b hb
  simp [Config.otherBit, Config.selfBit, getLsbD_oneBit] at hb
  omega

/-- Every index has a cause. -/
theorem isCauseOf_causeOf {cfg : Config} {d : Nat} (h : cfg.Wf) (hd : d < cfg.nrFiq) :
    cfg.IsCauseOf (cfg.causeOf d) d := by
  have hc := h.2.2.2.2.2.1.1 d hd
  have hpos : 0 < cfg.causes.countP (fun k => k.dom == some d) := by omega
  rw [List.countP_pos_iff] at hpos
  obtain ⟨x, hx, hxd⟩ := hpos
  have hlt : cfg.causeOf d < cfg.causes.length := List.findIdx_lt_length_of_exists ⟨x, hx, hxd⟩
  have h2 := List.findIdx_getElem (w := hlt)
  refine ⟨hlt, ?_⟩
  rw [Config.cause, List.getD_eq_getElem _ _ hlt]
  exact eq_of_beq h2

/-- An index has no second cause. -/
theorem IsCauseOf.unique {cfg : Config} {j k d : Nat} (h : cfg.Wf) (hd : d < cfg.nrFiq)
    (hj : cfg.IsCauseOf j d) (hk : cfg.IsCauseOf k d) : ¬ j < k := by
  intro hlt
  have hc := h.2.2.2.2.2.1.1 d hd
  obtain ⟨hjl, hj⟩ := hj
  obtain ⟨hkl, hk⟩ := hk
  rw [Config.cause, List.getD_eq_getElem _ _ hjl] at hj
  rw [Config.cause, List.getD_eq_getElem _ _ hkl] at hk
  rw [← List.take_append_drop k cfg.causes, List.countP_append] at hc
  have h1 : 0 < (cfg.causes.take k).countP (fun x => x.dom == some d) := by
    rw [List.countP_pos_iff]
    exact ⟨cfg.causes[j], List.mem_take_iff_getElem.2 ⟨j, by omega, rfl⟩, by simp [hj]⟩
  have h2 : 0 < (cfg.causes.drop k).countP (fun x => x.dom == some d) := by
    rw [List.countP_pos_iff]
    exact ⟨cfg.causes[k], List.mem_drop_iff_getElem.2 ⟨0, by omega, rfl⟩, by simp [hk]⟩
  omega

/-- The descriptor `causeOf` finds is the one the index belongs to. -/
theorem causeOf_eq {cfg : Config} {k d : Nat} (h : cfg.Wf) (hd : d < cfg.nrFiq)
    (hk : cfg.IsCauseOf k d) : cfg.causeOf d = k :=
  Nat.le_antisymm
    (Nat.le_of_not_lt (IsCauseOf.unique h hd hk (isCauseOf_causeOf h hd)))
    (Nat.le_of_not_lt (IsCauseOf.unique h hd (isCauseOf_causeOf h hd) hk))

end Sys2Proof
end

