-- ==== Sys2Proof/Laws/Sequence.lean ====
section
/-!
SUPPORT. How a composite operation unrolls: the steps a core has still to perform are moved outside
every other update, so that `alone` performs them one after another.
-/

namespace Sys2Proof.Machine

open Sys2Proof

variable (s : State)

/-! Two updates of one core are one update. -/

theorem modify_modify {α : Type} (f g : α → α) (l : List α) (i : Nat) :
    (l.modify i f).modify i g = l.modify i (fun x => g (f x)) := by
  apply List.ext_getElem? ; intro j
  simp only [List.getElem?_modify]
  cases l[j]? <;> by_cases h : i = j <;> simp [h]

theorem modify_same {α : Type} (f : α → α) (l : List α) (i : Nat) (h : ∀ x, f x = x) :
    l.modify i f = l := by
  apply List.ext_getElem? ; intro j
  simp only [List.getElem?_modify]
  cases l[j]? <;> by_cases hj : i = j <;> simp [hj, h]

theorem modify_comm {α : Type} (f g : α → α) (l : List α) (i j : Nat)
    (h : ∀ x, f (g x) = g (f x)) : (l.modify i f).modify j g = (l.modify j g).modify i f := by
  apply List.ext_getElem? ; intro n
  simp only [List.getElem?_modify]
  cases l[n]? <;> by_cases hi : i = n <;> by_cases hj : j = n <;> simp [hi, hj, h]

theorem State.updCore_updCore (c : Nat) (f g : CoreState → CoreState) :
    (s.updCore c f).updCore c g = s.updCore c (fun k => g (f k)) := by
  simp [State.updCore, modify_modify]

theorem State.updCore_same (c : Nat) (f : CoreState → CoreState) (h : ∀ k, f k = k) :
    s.updCore c f = s := by simp [State.updCore, modify_same f _ _ h]

theorem State.updCore_comm (c d : Nat) (f g : CoreState → CoreState) (h : ∀ k, f (g k) = g (f k)) :
    (s.updCore c f).updCore d g = (s.updCore d g).updCore c f := by
  simp [State.updCore, modify_comm f g _ _ _ h]

/-! Pending steps move outside the other updates. -/

@[simp] theorem State.call_nil (c : Nat) : s.call c [] = s := s.updCore_same c _ (fun _ => rfl)

@[simp] theorem State.call_call (c : Nat) (l l' : List SeqStep) :
    (s.call c l).call c l' = s.call c (l' ++ l) := by
  simp [State.call, State.updCore_updCore, List.append_assoc]

theorem State.call_pop (c : Nat) (m : SeqStep) (l : List SeqStep) (h : c < s.cores.length) :
    (s.call c (m :: l)).setSeq c (l ++ (s.core c).seq) = s.call c l := by
  have hk : s.cores[c]? = some (s.core c) := by
    simp [State.core, List.getD_eq_getElem?_getD, h]
  simp only [State.call, State.setSeq, State.updCore]
  congr 1
  apply List.ext_getElem? ; intro j
  simp only [List.getElem?_modify]
  by_cases hj : c = j
  · subst hj; simp [hk]
  · cases s.cores[j]? <;> simp [hj]

theorem State.call_updCore (c d : Nat) (l : List SeqStep) (f : CoreState → CoreState)
    (h : ∀ (k : CoreState) (q : List SeqStep), f { k with seq := q } = { f k with seq := q })
    (hq : ∀ k, (f k).seq = k.seq) :
    (s.call c l).updCore d f = (s.updCore d f).call c l := by
  refine s.updCore_comm c d _ f (fun k => Eq.trans ?_ (h k _).symm)
  simp only [hq]

@[simp] theorem State.call_note (c : Nat) (l : List SeqStep) (e : Event) :
    (s.call c l).note e = (s.note e).call c l := (rfl)

@[simp] theorem State.call_access (c d : Nat) (l : List SeqStep) (k : Option AccessKind)
    (rs ws : List Loc) : (s.call c l).access d k rs ws = (s.access d k rs ws).call c l := (rfl)

@[simp] theorem State.call_updLine (c i : Nat) (l : List SeqStep) (f : Line → Line) :
    (s.call c l).updLine i f = (s.updLine i f).call c l := (rfl)

@[simp] theorem State.call_updBank (c n : Nat) (l : List SeqStep) (v : Word) (f : Line → Line) :
    (s.call c l).updBank n v f = (s.updBank n v f).call c l := (rfl)

@[simp] theorem State.call_addDiag (c d : Nat) (l : List SeqStep) (code : DiagCode) (info : DiagInfo) :
    (s.call c l).addDiag d code info = (s.addDiag d code info).call c l := (rfl)

@[simp] theorem State.call_refuse (c : Nat) (l : List SeqStep) (r : RefuseReason) :
    (s.call c l).refuse r = (s.refuse r).call c l := (rfl)

@[simp] theorem State.call_reply (c d : Nat) (l : List SeqStep) (r : Result) :
    (s.call c l).reply d r = (s.reply d r).call c l :=
  s.call_updCore c d l _ (fun _ _ => rfl) (fun _ => rfl)

@[simp] theorem State.call_setArm (c d k : Nat) (l : List SeqStep) (v : Bool) :
    (s.call c l).setArm d k v = (s.setArm d k v).call c l :=
  s.call_updCore c d l _ (fun _ _ => rfl) (fun _ => rfl)

@[simp] theorem State.call_setFiqDisabled (c d x : Nat) (l : List SeqStep) (v : Bool) :
    (s.call c l).setFiqDisabled d x v = (s.setFiqDisabled d x v).call c l :=
  s.call_updCore c d l _ (fun _ _ => rfl) (fun _ => rfl)

@[simp] theorem State.call_withDraws (c n : Nat) (l : List SeqStep) :
    (s.call c l).withDraws n = (s.withDraws n).call c l := (rfl)

@[simp] theorem State.call_withAffLock (c : Nat) (l : List SeqStep) (o : Option Nat) :
    (s.call c l).withAffLock o = (s.withAffLock o).call c l := (rfl)

@[simp] theorem State.call_withArmed (c : Nat) (l : List SeqStep) :
    (s.call c l).withArmed = s.withArmed.call c l := (rfl)

@[simp] theorem State.call_setPending (c d : Nat) (l : List SeqStep) (v : Word) :
    (s.call c l).setPending d v = (s.setPending d v).call c l :=
  s.call_updCore c d l _ (fun _ _ => rfl) (fun _ => rfl)

@[simp] theorem State.call_setEnabled (c d : Nat) (l : List SeqStep) (v : Word) :
    (s.call c l).setEnabled d v = (s.setEnabled d v).call c l :=
  s.call_updCore c d l _ (fun _ _ => rfl) (fun _ => rfl)

@[simp] theorem State.call_setIpiPend (c d : Nat) (l : List SeqStep) (b : IpiBits) :
    (s.call c l).setIpiPend d b = (s.setIpiPend d b).call c l :=
  s.call_updCore c d l _ (fun _ _ => rfl) (fun _ => rfl)

@[simp] theorem State.call_setIpiMask (c d : Nat) (l : List SeqStep) (b : IpiBits) :
    (s.call c l).setIpiMask d b = (s.setIpiMask d b).call c l :=
  s.call_updCore c d l _ (fun _ _ => rfl) (fun _ => rfl)

@[simp] theorem State.call_setFe (c d : Nat) (l : List SeqStep) (f : FrontEnd) :
    (s.call c l).setFe d f = (s.setFe d f).call c l :=
  s.call_updCore c d l _ (fun _ _ => rfl) (fun _ => rfl)

@[simp] theorem State.call_writeBank (c d n : Nat) (l : List SeqStep) (k : AccessKind) (v : Word)
    (loc : Nat → Loc) (f : Line → Line) :
    (s.call c l).writeBank d k n v loc f = (s.writeBank d k n v loc f).call c l := (rfl)

/-- The write to a selector register under pending steps. -/
theorem State.call_writeSelector (c d : Nat) (l : List SeqStep) (k : AccessKind) (v : Word)
    (loc : Sel → Loc) (f : State → State) (h : ∀ t : State, f (t.call c l) = (f t).call c l) :
    (s.call c l).writeSelector d k v loc f = (s.writeSelector d k v loc f).call c l := by
  by_cases hb : s.cfg.badSelector v = true <;> simp [State.writeSelector, hb, h]

/-! A core's next step. -/

theorem advance_cons {c : Nat} {m : SeqStep} {rest : List SeqStep} (h : (s.core c).seq = m :: rest) :
    advance c s = seqStep c m (s.setSeq c rest) := by
  simp [advance, h]

theorem advance_call (c : Nat) (m : SeqStep) (l : List SeqStep) (h : c < s.cores.length) :
    advance c (s.call c (m :: l)) = seqStep c m (s.call c l) := by
  have hseq : ((s.call c (m :: l)).core c).seq = m :: (l ++ (s.core c).seq) := by
    simp [State.call_core, h]
  rw [advance_cons _ hseq, State.call_pop s c m l h]

theorem alone_zero (c : Nat) : alone c 0 s = .next s := (rfl)

/-- One step of a core whose pending steps stand outside. -/
theorem alone_call {c : Nat} {m : SeqStep} {l : List SeqStep} {t : State} (n : Nat)
    (h : c < s.cores.length) (ht : seqStep c m (s.call c l) = .next t) :
    alone c (n + 1) (s.call c (m :: l)) = alone c n t := by
  simp [alone, advance_call s c m l h, ht]

theorem alone_add (c n m : Nat) {t : State} (h : alone c n s = .next t) :
    alone c (n + m) s = alone c m t := by
  induction n generalizing s with
  | zero => cases h; simp
  | succ n ih =>
    rw [Nat.add_right_comm]
    simp only [alone] at h ⊢
    cases ha : advance c s with
    | next u => rw [ha] at h; exact ih u h
    | fault r => rw [ha] at h; cases h
    | refused r => rw [ha] at h; cases h

/-- A list of steps, each of which has the effect `f` whatever steps stand after it, is performed as
the composition of its effects. -/
theorem alone_list (c : Nat) (f : SeqStep → State → State) (l : List SeqStep) {t : State}
    (hl : c < t.cores.length)
    (hf : ∀ m ∈ l, ∀ u q, u.cfg = t.cfg → c < u.cores.length →
      seqStep c m (u.call c q) = .next ((f m u).call c q) ∧ (f m u).cfg = u.cfg ∧
        (f m u).cores.length = u.cores.length) (q : List SeqStep) :
    alone c l.length (t.call c (l ++ q)) = .next ((l.foldl (fun u m => f m u) t).call c q) := by
  induction l generalizing t with
  | nil => rfl
  | cons m l ih =>
    obtain ⟨h1, h2, h3⟩ := hf m (by simp) t (l ++ q) rfl hl
    rw [List.cons_append, List.length_cons, alone_call _ _ hl h1]
    exact ih (by rw [h3]; exact hl)
      (fun m' hm' u q' hu hlt => hf m' (by simp [hm']) u q' (by rw [hu, h2]) hlt)

end Sys2Proof.Machine
end

