-- ==== Sys2Proof/Laws/Ops.lean ====
section
/-!
SUPPORT. What each shared operation of Machine/Ops.lean and of the meanings can do, said once, in the
terms of Safety.lean.
-/

namespace Sys2Proof.Machine

open Sys2Proof

/-! ## Sizes -/

theorem State.Shaped.core_lt {s : State} (h : s.Shaped) {c : Nat} (hc : c < s.cfg.maxCores) :
    c < s.cores.length := by
  rw [h.2.2.1]
  exact hc

theorem State.Shaped.line_lt {s : State} (h : s.Shaped) {i : Nat} (hi : i < s.cfg.nrHw) :
    i < s.lines.length := by
  rw [h.2.1]
  exact hi

theorem State.Shaped.core_shaped {s : State} (h : s.Shaped) {c : Nat} (hc : c < s.cfg.maxCores) :
    (s.core c).Shaped s.cfg := by
  have hl := h.core_lt hc
  obtain ⟨-, -, -, -, -, -, -, -, -, hk⟩ := h
  apply hk
  rw [State.core_def, List.getD_eq_getElem _ _ hl]
  exact List.getElem_mem hl

/-! ## Answers -/

theorem answers_reply {s : State} {c : Nat} (hl : c < s.cores.length) (r : Result) :
    s.Answers (s.reply c r) c r :=
  ⟨by simp, rfl, fun d hd => by simp [State.reply_core, Ne.symm hd], by simp [State.reply_core, hl]⟩

theorem answers_access {s : State} {c : Nat} (hl : c < s.cores.length) (k : Option AccessKind)
    (rs ws : List Loc) (r : Result) : s.Answers ((s.access c k rs ws).reply c r) c r :=
  ⟨by simp, rfl, fun d hd => by simp [State.reply_core, Ne.symm hd], by simp [State.reply_core, hl]⟩

/-- A read of a write-action register answers the drawn word. -/
theorem answers_readDrawn {s : State} {c : Nat} (hl : c < s.cores.length) (k : AccessKind) :
    s.Answers (s.readDrawn c k) c (.word (Config.freeWord s.draws)) :=
  ⟨(((State.SameRest.refl s).withDraws _).access c _ _ _).reply c _, rfl,
    fun d hd => by simp [State.readDrawn, State.reply_core, Ne.symm hd],
    by simp [State.readDrawn, State.reply_core, hl]⟩

/-! ## The status-mux -/

theorem events_hw (s : State) (c i : Nat) :
    EventKind.hw i ∈ s.events c ↔ i < s.cfg.nrHw ∧ s.hwElig i c = true := by
  simp [State.events]

theorem events_ipi (s : State) (c : Nat) (sel : Sel) :
    EventKind.ipi sel ∈ s.events c ↔ s.ipiElig c sel = true := by
  cases sel <;> simp [State.events]

theorem readEvent_none {s : State} {c : Nat} (k : AccessKind) (h : s.events c = []) :
    s.readEvent c k = (0, s.access c (some k) [] []) := by
  simp [State.readEvent, h, State.choose]

/-- With an event waiting, a read reports one of them and masks it. -/
theorem readEvent_some {s : State} {c : Nat} (k : AccessKind) (h : s.events c ≠ []) :
    ∃ e n, e ∈ s.events c ∧ s.readEvent c k =
      (s.cfg.eventWord e, ((s.withDraws n).note (.report c k e)).autoMask c e) := by
  obtain ⟨x, n, hx, hm⟩ := s.choose_of_ne h
  exact ⟨x, n, hm, by simp [State.readEvent, hx]⟩

@[simp] theorem State.SameRest.autoMask {s t : State} (h : s.SameRest t) (c : Nat) (e : EventKind) :
    s.SameRest (t.autoMask c e) := by
  cases e <;> simp [State.autoMask, h]

/-- What waits does not depend on the steps a core has to perform. -/
theorem events_call (s : State) (c d : Nat) (l : List SeqStep) :
    (s.call c l).events d = s.events d := by
  simp [State.events, State.hwElig, State.hwReq, State.ipiElig]

theorem autoMask_call (s : State) (c d : Nat) (l : List SeqStep) (e : EventKind) :
    (s.call c l).autoMask d e = (s.autoMask d e).call c l := by
  cases e <;> simp [State.autoMask]

/-- An EVENT read takes no notice of the steps a core has to perform. -/
theorem readEvent_call (s : State) (c d : Nat) (k : AccessKind) (l : List SeqStep) :
    (s.call c l).readEvent d k = ((s.readEvent d k).1, (s.readEvent d k).2.call c l) := by
  by_cases he : s.events d = []
  · rw [readEvent_none k he, readEvent_none k (by rw [events_call, he])]
    simp
  · obtain ⟨x, n, hx, -⟩ := s.choose_of_ne he
    have hx' := State.choose_congr (s := s) (t := s.call c l) rfl hx
    simp [State.readEvent, events_call, hx, hx', autoMask_call]

/-- An event word is never the empty word. -/
theorem eventWord_ne_zero {cfg : Config} (h : cfg.CodesWf) (e : EventKind) : cfg.eventWord e ≠ 0 := by
  obtain ⟨_, h1, h2, _⟩ := h
  intro h0
  have ht : eventType (cfg.eventWord e) = 0 := by rw [h0]; rfl
  rcases e with i | sel
  · exact h1 (by simpa [Config.eventWord, eventType_append] using ht)
  · cases sel <;> exact h2 (by simpa [Config.eventWord, eventType_append] using ht)

/-! ## Register banks and selectors -/

/-- A write to a bank register changes the lines of the set bits. -/
theorem bankChanged_writeBank {s : State} (h : s.lines.length = s.cfg.nrHw) (c n : Nat)
    (k : AccessKind) (v : Word) (loc : Nat → Loc) (f : Line → Line) :
    s.BankChanged (s.writeBank c k n v loc f) n v f := by
  refine ⟨by simp [State.writeBank], rfl, fun i hi => ?_⟩
  have hl : i < s.lines.length := by omega
  rw [← inBank_iff]
  simp only [State.writeBank, State.updBank_line, State.access_lines, hl, State.access_line]
  constructor <;> intro hb <;> simp [hb]

theorem writeSelector_ok {s : State} {v : Word} (h : s.cfg.badSelector v = false) (c : Nat)
    (k : AccessKind) (loc : Sel → Loc) (f : State → State) :
    s.writeSelector c k v loc f = f (s.access c (some k) [] ((s.cfg.selected v).map loc)) := by
  simp [State.writeSelector, h]

theorem writeSelector_bad {s : State} {v : Word} (h : s.cfg.badSelector v = true) (c : Nat)
    (k : AccessKind) (loc : Sel → Loc) (f : State → State) :
    s.writeSelector c k v loc f = s.refuse .reservedBit := by
  simp [State.writeSelector, h]

/-! ## The start of an operation on an index -/

theorem onLine_lt {s : State} {i : Nat} (h : i < s.cfg.nrHw) (c : Nat) (l : List SeqStep) :
    s.onLine c i l = .next (s.call c l) := if_pos h

theorem onLine_ge {s : State} {i : Nat} (h : s.cfg.nrHw ≤ i) (c : Nat) (l : List SeqStep) :
    s.onLine c i l = .next (s.reply c (.err .range)) := if_neg (Nat.not_lt.2 h)

theorem onFiq_lt {s : State} {d : Nat} (h : d < s.cfg.nrFiq) (c : Nat) (l : List SeqStep) :
    s.onFiq c d l = .next (s.call c l) := if_pos h

theorem onFiq_ge {s : State} {d : Nat} (h : s.cfg.nrFiq ≤ d) (c : Nat) (l : List SeqStep) :
    s.onFiq c d l = .next (s.reply c (.err .range)) := if_neg (Nat.not_lt.2 h)

theorem onVipi_lt {s : State} {v : Nat} (h : v < s.cfg.nrVipi) (c : Nat) (l : List SeqStep) :
    s.onVipi c v l = .next (s.call c l) := if_pos h

theorem onVipi_ge {s : State} {v : Nat} (h : s.cfg.nrVipi ≤ v) (c : Nat) (l : List SeqStep) :
    s.onVipi c v l = .next (s.reply c (.err .range)) := if_neg (Nat.not_lt.2 h)

/-! ## Handlers, trap entry and return -/

theorem invoke_bound {s : State} {dom : Dom} {idx h : Nat} (hb : s.bound dom idx = some h) (c : Nat) :
    s.invoke c dom idx = (s.note (.handler c dom idx h)).call c [.running dom idx h] := by
  simp [State.invoke, hb]

theorem invoke_unbound {s : State} {dom : Dom} {idx : Nat} (hb : s.bound dom idx = none) (c : Nat) :
    s.invoke c dom idx = s := by
  simp [State.invoke, hb]

theorem takeTrap_not_admitted {s : State} {c : Nat} (h : s.trapAdmitted c = false) :
    s.takeTrap c = s := by
  simp [State.takeTrap, h]

/-- Where TRAP may start it starts, in one of its two orders. -/
theorem takeTrap_admitted {s : State} {c : Nat} (h : s.trapAdmitted c = true) :
    ∃ order n,
      (order = [SeqStep.op (.drain c), .op (.fiqPoll c)] ∨
        order = [SeqStep.op (.fiqPoll c), .op (.drain c)]) ∧
      s.takeTrap c =
        (((s.withDraws n).note (.trapEntry c)).setFe c .draining).call c (order ++ [.trapExit]) := by
  obtain ⟨order, n, hc, hm⟩ := s.choose_of_ne
    (l := [[SeqStep.op (.drain c), .op (.fiqPoll c)], [SeqStep.op (.fiqPoll c), .op (.drain c)]])
    (by simp)
  exact ⟨order, n, by simpa using hm, by simp [State.takeTrap, h, hc]⟩

@[simp] theorem State.SameRest.trapReturn {s t : State} (h : s.SameRest t) (c : Nat) :
    s.SameRest (t.trapReturn c) := by
  simp [State.trapReturn, h]

end Sys2Proof.Machine
end

