-- ==== Sys2Proof/Laws/PerInstr.lean ====
section
/-!
SUPPORT. The family Encoding of statements for all instructions, made per instruction: the operation code
that the packet of each operation carries (log 1), one lemma a constructor.
-/

namespace Sys2Proof.Laws.Encoding

open Sys2Proof

/-- The operation code of each operation: 1 and 2 for a register read and write, then the ports, the
CPU-local accesses, the fences and the composite operations, in the table's order. -/
def opCode : Instr → Nat
  | .readInfo _ _ => 1
  | .writeInfo _ _ _ => 2
  | .readWhoami _ _ => 1
  | .writeWhoami _ _ _ => 2
  | .readEvent _ _ => 1
  | .writeEvent _ _ _ => 2
  | .writeIpiSend _ _ _ => 2
  | .readIpiSend _ _ => 1
  | .writeIpiAck _ _ _ => 2
  | .readIpiAck _ _ => 1
  | .writeIpiMaskSet _ _ _ => 2
  | .readIpiMaskSet _ _ => 1
  | .writeIpiMaskClr _ _ _ => 2
  | .readIpiMaskClr _ _ => 1
  | .readTarget _ _ _ => 1
  | .writeTarget _ _ _ _ => 2
  | .writeSwSet _ _ _ _ => 2
  | .readSwSet _ _ _ => 1
  | .writeSwClr _ _ _ _ => 2
  | .readSwClr _ _ _ => 1
  | .writeMaskSet _ _ _ _ => 2
  | .readMaskSet _ _ _ => 1
  | .writeMaskClr _ _ _ _ => 2
  | .readMaskClr _ _ _ => 1
  | .vipiEnRead _ _ => 3
  | .vipiEnOr _ _ _ => 4
  | .vipiEnAndn _ _ _ => 5
  | .vipiPendOr _ _ _ => 6
  | .vipiPendXchg0 _ _ => 7
  | .fiqReadCause _ _ => 8
  | .fiqWriteArm _ _ _ => 9
  | .fenceW _ => 10
  | .fenceR _ => 11
  | .hwDisable _ _ => 12
  | .hwEnable _ _ => 13
  | .hwEoi _ _ => 14
  | .hwSetAffinity _ _ _ => 15
  | .hwDispatch _ _ => 16
  | .fiqMask _ _ => 17
  | .fiqUnmask _ _ => 18
  | .fiqEoi _ _ => 19
  | .fiqPoll _ => 20
  | .silence _ _ => 21
  | .fiqDispatch _ _ => 22
  | .vipiSend _ _ _ => 23
  | .vipiReceive _ => 24
  | .vipiMask _ _ => 25
  | .vipiUnmask _ _ => 26
  | .trap _ => 27
  | .drain _ => 28
  | .classify _ _ => 29
  | .resolve _ _ _ _ => 30
  | .bind _ _ _ _ => 31
  | .init _ => 32
  | .cpuOnline _ => 33

/-- The packet of the operation carries its code, whatever the parameters. -/
def Statement (i : Instr) : Prop := ∀ cfg : Config, (encode cfg i).code = opCode i

theorem readInfo (c : Nat) (k : AccessKind) :
    Statement (.readInfo c k) :=
  fun cfg => (busPacket_fields cfg k _ 0 (by decide)).1

theorem writeInfo (c : Nat) (k : AccessKind) (v : Word) :
    Statement (.writeInfo c k v) :=
  fun cfg => (busPacket_fields cfg k _ v (by decide)).1

theorem readWhoami (c : Nat) (k : AccessKind) :
    Statement (.readWhoami c k) :=
  fun cfg => (busPacket_fields cfg k _ 0 (by decide)).1

theorem writeWhoami (c : Nat) (k : AccessKind) (v : Word) :
    Statement (.writeWhoami c k v) :=
  fun cfg => (busPacket_fields cfg k _ v (by decide)).1

theorem readEvent (c : Nat) (k : AccessKind) :
    Statement (.readEvent c k) :=
  fun cfg => (busPacket_fields cfg k _ 0 (by decide)).1

theorem writeEvent (c : Nat) (k : AccessKind) (v : Word) :
    Statement (.writeEvent c k v) :=
  fun cfg => (busPacket_fields cfg k _ v (by decide)).1

theorem writeIpiSend (c : Nat) (k : AccessKind) (v : Word) :
    Statement (.writeIpiSend c k v) :=
  fun cfg => (busPacket_fields cfg k _ v (by decide)).1

theorem readIpiSend (c : Nat) (k : AccessKind) :
    Statement (.readIpiSend c k) :=
  fun cfg => (busPacket_fields cfg k _ 0 (by decide)).1

theorem writeIpiAck (c : Nat) (k : AccessKind) (v : Word) :
    Statement (.writeIpiAck c k v) :=
  fun cfg => (busPacket_fields cfg k _ v (by decide)).1

theorem readIpiAck (c : Nat) (k : AccessKind) :
    Statement (.readIpiAck c k) :=
  fun cfg => (busPacket_fields cfg k _ 0 (by decide)).1

theorem writeIpiMaskSet (c : Nat) (k : AccessKind) (v : Word) :
    Statement (.writeIpiMaskSet c k v) :=
  fun cfg => (busPacket_fields cfg k _ v (by decide)).1

theorem readIpiMaskSet (c : Nat) (k : AccessKind) :
    Statement (.readIpiMaskSet c k) :=
  fun cfg => (busPacket_fields cfg k _ 0 (by decide)).1

theorem writeIpiMaskClr (c : Nat) (k : AccessKind) (v : Word) :
    Statement (.writeIpiMaskClr c k v) :=
  fun cfg => (busPacket_fields cfg k _ v (by decide)).1

theorem readIpiMaskClr (c : Nat) (k : AccessKind) :
    Statement (.readIpiMaskClr c k) :=
  fun cfg => (busPacket_fields cfg k _ 0 (by decide)).1

theorem readTarget (c : Nat) (k : AccessKind) (i : Nat) :
    Statement (.readTarget c k i) :=
  fun cfg => (busPacket_fields cfg k _ 0 (by decide)).1

theorem writeTarget (c : Nat) (k : AccessKind) (i : Nat) (v : Word) :
    Statement (.writeTarget c k i v) :=
  fun cfg => (busPacket_fields cfg k _ v (by decide)).1

theorem writeSwSet (c : Nat) (k : AccessKind) (n : Nat) (v : Word) :
    Statement (.writeSwSet c k n v) :=
  fun cfg => (busPacket_fields cfg k _ v (by decide)).1

theorem readSwSet (c : Nat) (k : AccessKind) (n : Nat) :
    Statement (.readSwSet c k n) :=
  fun cfg => (busPacket_fields cfg k _ 0 (by decide)).1

theorem writeSwClr (c : Nat) (k : AccessKind) (n : Nat) (v : Word) :
    Statement (.writeSwClr c k n v) :=
  fun cfg => (busPacket_fields cfg k _ v (by decide)).1

theorem readSwClr (c : Nat) (k : AccessKind) (n : Nat) :
    Statement (.readSwClr c k n) :=
  fun cfg => (busPacket_fields cfg k _ 0 (by decide)).1

theorem writeMaskSet (c : Nat) (k : AccessKind) (n : Nat) (v : Word) :
    Statement (.writeMaskSet c k n v) :=
  fun cfg => (busPacket_fields cfg k _ v (by decide)).1

theorem readMaskSet (c : Nat) (k : AccessKind) (n : Nat) :
    Statement (.readMaskSet c k n) :=
  fun cfg => (busPacket_fields cfg k _ 0 (by decide)).1

theorem writeMaskClr (c : Nat) (k : AccessKind) (n : Nat) (v : Word) :
    Statement (.writeMaskClr c k n v) :=
  fun cfg => (busPacket_fields cfg k _ v (by decide)).1

theorem readMaskClr (c : Nat) (k : AccessKind) (n : Nat) :
    Statement (.readMaskClr c k n) :=
  fun cfg => (busPacket_fields cfg k _ 0 (by decide)).1

theorem vipiEnRead (c : Nat) (t : Nat) :
    Statement (.vipiEnRead c t) :=
  fun _ => (plainPacket_code _ _ _ (by decide : 3 < 256)).1

theorem vipiEnOr (c : Nat) (t : Nat) (m : Word) :
    Statement (.vipiEnOr c t m) :=
  fun _ => (plainPacket_code _ _ _ (by decide : 4 < 256)).1

theorem vipiEnAndn (c : Nat) (t : Nat) (m : Word) :
    Statement (.vipiEnAndn c t m) :=
  fun _ => (plainPacket_code _ _ _ (by decide : 5 < 256)).1

theorem vipiPendOr (c : Nat) (t : Nat) (m : Word) :
    Statement (.vipiPendOr c t m) :=
  fun _ => (plainPacket_code _ _ _ (by decide : 6 < 256)).1

theorem vipiPendXchg0 (c : Nat) (t : Nat) :
    Statement (.vipiPendXchg0 c t) :=
  fun _ => (plainPacket_code _ _ _ (by decide : 7 < 256)).1

theorem fiqReadCause (c : Nat) (k : Nat) :
    Statement (.fiqReadCause c k) :=
  fun _ => (plainPacket_code _ _ _ (by decide : 8 < 256)).1

theorem fiqWriteArm (c : Nat) (k : Nat) (v : Bool) :
    Statement (.fiqWriteArm c k v) :=
  fun _ => (plainPacket_code _ _ _ (by decide : 9 < 256)).1

theorem fenceW (c : Nat) :
    Statement (.fenceW c) :=
  fun _ => (plainPacket_code _ _ _ (by decide : 10 < 256)).1

theorem fenceR (c : Nat) :
    Statement (.fenceR c) :=
  fun _ => (plainPacket_code _ _ _ (by decide : 11 < 256)).1

theorem hwDisable (c : Nat) (i : Nat) :
    Statement (.hwDisable c i) :=
  fun _ => (plainPacket_code _ _ _ (by decide : 12 < 256)).1

theorem hwEnable (c : Nat) (i : Nat) :
    Statement (.hwEnable c i) :=
  fun _ => (plainPacket_code _ _ _ (by decide : 13 < 256)).1

theorem hwEoi (c : Nat) (i : Nat) :
    Statement (.hwEoi c i) :=
  fun _ => (plainPacket_code _ _ _ (by decide : 14 < 256)).1

theorem hwSetAffinity (c : Nat) (i : Nat) (m : Word) :
    Statement (.hwSetAffinity c i m) :=
  fun _ => (plainPacket_code _ _ _ (by decide : 15 < 256)).1

theorem hwDispatch (c : Nat) (i : Nat) :
    Statement (.hwDispatch c i) :=
  fun _ => (plainPacket_code _ _ _ (by decide : 16 < 256)).1

theorem fiqMask (c : Nat) (d : Nat) :
    Statement (.fiqMask c d) :=
  fun _ => (plainPacket_code _ _ _ (by decide : 17 < 256)).1

theorem fiqUnmask (c : Nat) (d : Nat) :
    Statement (.fiqUnmask c d) :=
  fun _ => (plainPacket_code _ _ _ (by decide : 18 < 256)).1

theorem fiqEoi (c : Nat) (d : Nat) :
    Statement (.fiqEoi c d) :=
  fun _ => (plainPacket_code _ _ _ (by decide : 19 < 256)).1

theorem fiqPoll (c : Nat) :
    Statement (.fiqPoll c) :=
  fun _ => (plainPacket_code _ _ _ (by decide : 20 < 256)).1

theorem silence (c : Nat) (k : Nat) :
    Statement (.silence c k) :=
  fun _ => (plainPacket_code _ _ _ (by decide : 21 < 256)).1

theorem fiqDispatch (c : Nat) (d : Nat) :
    Statement (.fiqDispatch c d) :=
  fun _ => (plainPacket_code _ _ _ (by decide : 22 < 256)).1

theorem vipiSend (c : Nat) (v : Nat) (dests : Word) :
    Statement (.vipiSend c v dests) :=
  fun _ => (plainPacket_code _ _ _ (by decide : 23 < 256)).1

theorem vipiReceive (c : Nat) :
    Statement (.vipiReceive c) :=
  fun _ => (plainPacket_code _ _ _ (by decide : 24 < 256)).1

theorem vipiMask (c : Nat) (v : Nat) :
    Statement (.vipiMask c v) :=
  fun _ => (plainPacket_code _ _ _ (by decide : 25 < 256)).1

theorem vipiUnmask (c : Nat) (v : Nat) :
    Statement (.vipiUnmask c v) :=
  fun _ => (plainPacket_code _ _ _ (by decide : 26 < 256)).1

theorem trap (c : Nat) :
    Statement (.trap c) :=
  fun _ => (plainPacket_code _ _ _ (by decide : 27 < 256)).1

theorem drain (c : Nat) :
    Statement (.drain c) :=
  fun _ => (plainPacket_code _ _ _ (by decide : 28 < 256)).1

theorem classify (c : Nat) (e : Word) :
    Statement (.classify c e) :=
  fun _ => (plainPacket_code _ _ _ (by decide : 29 < 256)).1

theorem resolve (c : Nat) (kind : Nat) (index : Nat) (flags : Word) :
    Statement (.resolve c kind index flags) :=
  fun _ => (plainPacket_code _ _ _ (by decide : 30 < 256)).1

theorem bind (c : Nat) (dom : Dom) (idx : Nat) (h : Nat) :
    Statement (.bind c dom idx h) :=
  fun _ => (plainPacket_code _ _ _ (by decide : 31 < 256)).1

theorem init (c : Nat) :
    Statement (.init c) :=
  fun _ => (plainPacket_code _ _ _ (by decide : 32 < 256)).1

theorem cpuOnline (c : Nat) :
    Statement (.cpuOnline c) :=
  fun _ => (plainPacket_code _ _ _ (by decide : 33 < 256)).1

end Sys2Proof.Laws.Encoding
end

