-- ==== Sys2Proof/Tests/Slice0.lean ====
section
/-!
SUPPORT. The model's own tests. Expected results are the examples of the rules and the vectors of
spec/95_test_vectors.md (their ids in the comments), under Configuration V.
-/

namespace Sys2Proof.Tests

open Sys2Proof Sys2Proof.Machine

/-! ## Operations that do not exist -/

theorem test_no_core : (Instr.readInfo 4 .relaxed).check Config.default = some .noSuchCore := by decide

theorem test_no_target_register :
    (Instr.readTarget 0 .relaxed 4).check Config.default = some .unmappedOffset := by decide

theorem test_no_bank :
    (Instr.writeMaskSet 0 .relaxed 1 1).check Config.default = some .unmappedOffset := by decide

theorem test_no_target_core :
    (Instr.vipiPendOr 0 4 1).check Config.default = some .noSuchTargetCore := by decide

theorem test_no_cause : (Instr.fiqReadCause 0 2).check Config.default = some .noSuchCause := by decide

theorem test_no_line :
    (Instr.hwDispatch 0 4).check Config.default = some .noSuchLine ∧
    (Instr.fiqDispatch 0 1).check Config.default = some .noSuchLine ∧
    (Instr.bind 0 .ipi 2 0).check Config.default = some .noSuchLine := by decide

theorem test_no_destination :
    (Instr.vipiSend 0 0 0x10).check Config.default = some .badDestinations := by decide

/-- 44_vipi_arbiter R355: no mask of VIPI_PEND_OR is refused, with two vIPI lines neither. -/
theorem test_any_signals :
    decode Config.default 0 ⟨6, 2, 0x80000004, 0⟩ = .ok (.vipiPendOr 0 2 0x80000004) := by decide

theorem test_empty_event : (Instr.classify 0 0).check Config.default = some .emptyEvent := by decide

/-- 60_exceptions R461: every core may perform every operation. -/
theorem test_init_by_any_core : (Instr.init 1).check Config.default = none ∧
    decode Config.default 3 ⟨32, 0, 0, 0⟩ = .ok (.init 3) := by decide

theorem test_operand_too_wide :
    (Instr.hwEoi 0 (2 ^ 32)).check Config.default = some .operandTooWide := by decide

theorem test_no_operation : decode Config.default 0 ⟨34, 0, 0, 0⟩ = .reject .noSuchOperation := by decide

theorem test_unused_bits :
    decode Config.default 0 ⟨10, 1, 0, 0⟩ = .reject .unusedBits ∧
    decode Config.default 0 ⟨0x00020401, 0x2004, 0, 0⟩ = .reject .unusedBits ∧
    decode Config.default 0 ⟨9, 0, 2, 0⟩ = .reject .unusedBits := by decide

/-- 20_memory R82: a 16-bit access, an access at an offset that is no multiple of 4. -/
theorem test_bad_width_or_alignment :
    decode Config.default 0 ⟨0x00000201, 0x2004, 0, 0⟩ = .reject .badWidthOrAlignment ∧
    decode Config.default 0 ⟨0x00000401, 0x2006, 0, 0⟩ = .reject .badWidthOrAlignment := by decide

/-- HL4, HL10; the offset 0 is no register's. -/
theorem test_unmapped_offset :
    decode Config.default 0 ⟨0x00000402, 0x4104, 1, 0⟩ = .reject .unmappedOffset ∧
    decode Config.default 0 ⟨0x00000402, 0x3010, 1, 0⟩ = .reject .unmappedOffset ∧
    decode Config.default 0 ⟨0x00000401, 0, 0, 0⟩ = .reject .unmappedOffset := by decide

/-! ## Decoding: a packet written out for every constructor. Offsets and directions are those of
30_encoding R110 with the suggested map, the operation codes those of log 1. -/

/-- Every packet of the list decodes to the operation beside it. -/
def decodes (l : List (Packet × Instr)) : Bool :=
  l.all (fun x => decide (decode Config.default x.2.core x.1 = .ok x.2))

theorem test_decode_registers : decodes
    [(⟨0x00000401, 0x0004, 0, 0⟩, .readInfo 1 .relaxed),
     (⟨0x00000402, 0x0004, 7, 0⟩, .writeInfo 1 .relaxed 7),
     (⟨0x00000401, 0x2000, 0, 0⟩, .readWhoami 2 .relaxed),
     (⟨0x00000402, 0x2000, 7, 0⟩, .writeWhoami 2 .relaxed 7),
     (⟨0x00010401, 0x2004, 0, 0⟩, .readEvent 3 .ordered),
     (⟨0x00000402, 0x2004, 7, 0⟩, .writeEvent 3 .relaxed 7)] = true := by decide

theorem test_decode_ipi_registers : decodes
    [(⟨0x00000402, 0x2008, 6, 0⟩, .writeIpiSend 0 .relaxed 6),
     (⟨0x00000401, 0x2008, 0, 0⟩, .readIpiSend 0 .relaxed),
     (⟨0x00000402, 0x200C, 1, 0⟩, .writeIpiAck 1 .relaxed 1),
     (⟨0x00000401, 0x200C, 0, 0⟩, .readIpiAck 1 .relaxed),
     (⟨0x00010402, 0x2024, 0x80000001, 0⟩, .writeIpiMaskSet 2 .ordered 0x80000001),
     (⟨0x00000401, 0x2024, 0, 0⟩, .readIpiMaskSet 2 .relaxed),
     (⟨0x00000402, 0x2028, 1, 0⟩, .writeIpiMaskClr 3 .relaxed 1),
     (⟨0x00000401, 0x2028, 0, 0⟩, .readIpiMaskClr 3 .relaxed)] = true := by decide

theorem test_decode_line_registers : decodes
    [(⟨0x00000401, 0x300C, 0, 0⟩, .readTarget 0 .relaxed 3),
     (⟨0x00000402, 0x3004, 8, 0⟩, .writeTarget 0 .relaxed 1 8),
     (⟨0x00000402, 0x4000, 2, 0⟩, .writeSwSet 0 .relaxed 0 2),
     (⟨0x00000401, 0x4000, 0, 0⟩, .readSwSet 0 .relaxed 0),
     (⟨0x00000402, 0x4080, 2, 0⟩, .writeSwClr 0 .relaxed 0 2),
     (⟨0x00000401, 0x4080, 0, 0⟩, .readSwClr 0 .relaxed 0),
     (⟨0x00000402, 0x4100, 4, 0⟩, .writeMaskSet 0 .relaxed 0 4),
     (⟨0x00000401, 0x4100, 0, 0⟩, .readMaskSet 0 .relaxed 0),
     (⟨0x00000402, 0x4180, 0xF, 0⟩, .writeMaskClr 0 .relaxed 0 0xF),
     (⟨0x00000401, 0x4180, 0, 0⟩, .readMaskClr 0 .relaxed 0)] = true := by decide

theorem test_decode_ports_and_fences : decodes
    [(⟨3, 1, 0, 0⟩, .vipiEnRead 0 1), (⟨4, 0, 2, 0⟩, .vipiEnOr 0 0 2),
     (⟨5, 0, 1, 0⟩, .vipiEnAndn 0 0 1), (⟨6, 2, 1, 0⟩, .vipiPendOr 0 2 1),
     (⟨7, 2, 0, 0⟩, .vipiPendXchg0 0 2), (⟨8, 1, 0, 0⟩, .fiqReadCause 3 1),
     (⟨9, 1, 1, 0⟩, .fiqWriteArm 3 1 true), (⟨10, 0, 0, 0⟩, .fenceW 0),
     (⟨11, 0, 0, 0⟩, .fenceR 1)] = true := by decide

theorem test_decode_lines_and_causes : decodes
    [(⟨12, 2, 0, 0⟩, .hwDisable 0 2), (⟨13, 2, 0, 0⟩, .hwEnable 0 2), (⟨14, 1, 0, 0⟩, .hwEoi 0 1),
     (⟨15, 1, 6, 0⟩, .hwSetAffinity 0 1 6), (⟨16, 3, 0, 0⟩, .hwDispatch 0 3),
     (⟨17, 0, 0, 0⟩, .fiqMask 1 0), (⟨18, 0, 0, 0⟩, .fiqUnmask 1 0), (⟨19, 0, 0, 0⟩, .fiqEoi 1 0),
     (⟨20, 0, 0, 0⟩, .fiqPoll 1), (⟨21, 1, 0, 0⟩, .silence 1 1),
     (⟨22, 0, 0, 0⟩, .fiqDispatch 1 0)] = true := by decide

theorem test_decode_vipi_and_front_end : decodes
    [(⟨23, 1, 6, 0⟩, .vipiSend 0 1 6), (⟨24, 0, 0, 0⟩, .vipiReceive 1), (⟨25, 1, 0, 0⟩, .vipiMask 2 1),
     (⟨26, 1, 0, 0⟩, .vipiUnmask 2 1), (⟨27, 0, 0, 0⟩, .trap 0), (⟨28, 0, 0, 0⟩, .drain 0),
     (⟨29, 0x00010003, 0, 0⟩, .classify 0 0x00010003), (⟨30, 0, 3, 4⟩, .resolve 0 0 3 4),
     (⟨31, 2, 1, 9⟩, .bind 0 .ipi 1 9), (⟨32, 0, 0, 0⟩, .init 0),
     (⟨33, 0, 0, 0⟩, .cpuOnline 3)] = true := by decide

/-! ## One operation on a small state -/

/-- The state after the operation and the n steps it leaves its core to perform. -/
def run (i : Instr) (n : Nat) (s : State) : Option State :=
  match exec i s with
  | .next t =>
    match alone i.core n t with
    | .next u => some u
    | _ => none
  | _ => none

/-- Configuration V right after power-on, every drawn bit zero. -/
def base : State := State.reset

/-- SM2: level[3] = 1, mask[3] = 0, target[3] = 0x2. -/
def line3 : State := base.updLine 3 (fun l => { l with level := true, target := 2 })

/-- Core c in state Draining. -/
def draining (c : Nat) (s : State) : State := s.setFe c .draining

/-- The masks of the four lines. -/
def masks (s : State) : List Bool := s.lines.map (·.mask)

/-- What the last operation returned to core c. -/
def retOf (c : Nat) (s : State) : Result := (s.core c).ret

/-- SM12, 40_status_mux R211: with 896 lines INFO reads 0x00000380. -/
theorem test_readInfo :
    (run (.readInfo 1 .relaxed) 0
      { base with cfg := { Config.default with nrHw := 896 } }).map (retOf 1)
      = some (.word 0x00000380) := by decide

/-- SM14. -/
theorem test_writeInfo : (run (.writeInfo 0 .relaxed 0) 0 base).map (·.refused)
    = some (some .writeReadOnly) := by decide

/-- SM13. -/
theorem test_readWhoami : (run (.readWhoami 3 .relaxed) 0 base).map (retOf 3)
    = some (.word 0x00000003) := by decide

/-- SM14. -/
theorem test_writeWhoami : (run (.writeWhoami 0 .relaxed 0) 0 base).map (·.refused)
    = some (some .writeReadOnly) := by decide

/-- SM2. -/
theorem test_readEvent_line : (run (.readEvent 1 .ordered) 0 line3).map
    (fun t => (retOf 1 t, (t.line 3).mask, line3.irqOut 1, t.irqOut 1))
    = some (.word 0x00010003, true, true, false) := by decide

/-- SM9. -/
theorem test_readEvent_ipi : (run (.readEvent 2 .ordered) 0 (base.setIpiPend 2 ⟨true, false⟩)).map
    (fun t => (retOf 2 t, (t.core 2).ipiMask, (t.core 2).ipiPend))
    = some (.word 0x00040001, ⟨true, false⟩, ⟨true, false⟩) := by decide

/-- SM14. -/
theorem test_writeEvent : (run (.writeEvent 0 .relaxed 0) 0 base).map (·.refused)
    = some (some .writeReadOnly) := by decide

/-- PI1. -/
theorem test_writeIpiSend : (run (.writeIpiSend 0 .relaxed 6) 0 base).map
    (fun t => t.cores.map (·.ipiPend.other)) = some [false, true, true, false] := by decide

/-- PI2. -/
theorem test_writeIpiSend_refused : (run (.writeIpiSend 0 .relaxed 0x10) 0 base).map
    (fun t => (t.refused, t.cores.map (·.ipiPend.other)))
    = some (some .reservedBit, [false, false, false, false]) := by decide

/-- PI10: the value is not named; no line is changed. -/
theorem test_reads_of_write_action_registers :
    (∀ i ∈ [Instr.readIpiSend 0 .relaxed, .readIpiAck 0 .relaxed, .readIpiMaskSet 0 .relaxed,
        .readIpiMaskClr 0 .relaxed],
      (run i 0 line3).map (fun t => (t.cores.map (·.ipiMask), masks t))
        = some (line3.cores.map (·.ipiMask), masks line3)) ∧
    ∀ i ∈ [Instr.readSwSet 0 .relaxed 0, .readSwClr 0 .relaxed 0, .readMaskSet 0 .relaxed 0,
        .readMaskClr 0 .relaxed 0],
      (run i 0 line3).map (fun t => t.lines) = some line3.lines := by decide

/-- PI5 with an unmasked line, PI6: the acknowledge is banked by the requester. -/
theorem test_writeIpiAck : (run (.writeIpiAck 2 .relaxed 1) 0
      ((base.setIpiPend 1 ⟨true, false⟩).setIpiPend 2 ⟨true, true⟩)).map
    (fun t => ((t.core 1).ipiPend, (t.core 2).ipiPend))
    = some (⟨true, false⟩, ⟨false, true⟩) := by decide

/-- PI7. -/
theorem test_writeIpiAck_refused : (run (.writeIpiAck 1 .relaxed 2) 0 base).map (·.refused)
    = some (some .reservedBit) := by decide

/-- PI8. -/
theorem test_writeIpiMaskSet : (run (.writeIpiMaskSet 0 .relaxed 0x80000001) 0 base).map
    (fun t => ((t.core 0).ipiMask, (t.core 1).ipiMask))
    = some (⟨true, true⟩, ⟨false, false⟩) := by decide

/-- PI9. -/
theorem test_writeIpiMaskClr : (run (.writeIpiMaskClr 2 .relaxed 1) 0
      ((base.setIpiPend 2 ⟨true, false⟩).setIpiMask 2 ⟨true, true⟩)).map
    (fun t => ((t.core 2).ipiMask, t.irqOut 2)) = some (⟨false, true⟩, true) := by decide

/-- HL9. -/
theorem test_targets : (run (.writeTarget 0 .relaxed 2 0x80000004) 0 base).map
    (fun t => ((run (.readTarget 1 .relaxed 2) 0 t).map (retOf 1), (t.line 1).target))
    = some (some (.word 0x80000004), 0) := by decide

/-- HL1. -/
theorem test_writeMaskSet : (run (.writeMaskSet 0 .relaxed 0 4) 0 base).map masks
    = some [false, false, true, false] := by decide

/-- HL3. -/
theorem test_writeMaskSet_all : (run (.writeMaskSet 0 .relaxed 0 0xFFFFFFFF) 0 base).map masks
    = some [true, true, true, true] := by decide

/-- 41_hw_lines R244: mask[34] is bit 2 of bank 1. -/
theorem test_writeMaskClr : (run (.writeMaskClr 0 .relaxed 1 4) 0
      { base with cfg := { Config.default with nrHw := 40 }
                  lines := List.replicate 40 ⟨false, false, true, 0, true⟩ }).map
    (fun t => ((t.line 2).mask, (t.line 33).mask, (t.line 34).mask)) = some (true, true, false) := by
  decide

/-- HL6. -/
theorem test_writeSwSet : (run (.writeSwSet 1 .relaxed 0 2) 0 base).map
    (fun t => t.lines.map (·.sw)) = some [false, true, false, false] := by decide

/-- HL7. -/
theorem test_writeSwClr : (run (.writeSwClr 0 .relaxed 0 2) 0
      (base.updLine 1 (fun l => { l with level := true, sw := true }))).map
    (fun t => ((t.line 1).sw, t.hwReq 1)) = some (false, true) := by decide

/-- VI1. -/
theorem test_vipiEnRead : (run (.vipiEnRead 0 1) 0 (base.setEnabled 1 1)).map (retOf 0)
    = some (.word 1) := by decide

/-- VI2. -/
theorem test_vipiEnOr : (run (.vipiEnOr 3 0 2) 0 (base.setEnabled 0 1)).map
    (fun t => (t.core 0).enabled) = some 3 := by decide

/-- VI2. -/
theorem test_vipiEnAndn : (run (.vipiEnAndn 3 0 1) 0 (base.setEnabled 0 3)).map
    (fun t => ((t.core 0).enabled, retOf 3 t)) = some (2, .word 2) := by decide

/-- VI3. -/
theorem test_vipiPendOr : (run (.vipiPendOr 0 2 1) 0 (base.setPending 2 2)).map
    (fun t => (t.core 2).pending) = some 3 := by decide

/-- 44_vipi_arbiter R355, with 32 vIPI lines: every bit of the mask is ored. -/
theorem test_vipiPendOr_whole_mask : (run (.vipiPendOr 0 2 0x80000002) 0
      ({ base with cfg := { Config.default with nrVipi := 32 } }.setPending 2 1)).map
    (fun t => (t.core 2).pending) = some 0x80000003 := by decide

/-- 10_state R41, with two vIPI lines: bits 2 and 31 of `pending` are always 0. -/
theorem test_vipiPendOr_no_such_line : (run (.vipiPendOr 0 2 0x80000006) 0 (base.setPending 2 1)).map
    (fun t => (t.core 2).pending) = some 3 := by decide

/-- VI3. -/
theorem test_vipiPendXchg0 : (run (.vipiPendXchg0 0 2) 0 (base.setPending 2 3)).map
    (fun t => ((t.core 2).pending, retOf 0 t)) = some (0, .word 3) := by decide

/-- TMR (cause 0) of core 0 armed and its condition true. -/
def timer : State := base.updCore 0 (fun k => { k with cond := [true, false], arm := [true, false] })

/-- 43_fiq R312. -/
theorem test_fiqReadCause : (run (.fiqReadCause 0 0) 0 timer).map (retOf 0)
    = some (.causeState true true) := by decide

/-- 43_fiq R313. -/
theorem test_fiqWriteArm : (run (.fiqWriteArm 0 0 false) 0 timer).map
    (fun t => (t.fire 0 0, t.cond 0 0, timer.fiqOut 0, t.fiqOut 0))
    = some (false, true, true, false) := by decide

/-- 20_memory R90. -/
theorem test_fences : (run (.fenceW 2) 0 base).map (·.trace) = some [.fence 2 .w] ∧
    (run (.fenceR 1) 0 base).map (·.trace) = some [.fence 1 .r] := by decide

/-- HL12. -/
theorem test_hwDisable : (run (.hwDisable 0 2) 3 (base.updLine 2 (fun l => { l with hwDisabled := false }))).map
    (fun t => (masks t, (t.line 2).hwDisabled, retOf 0 t))
    = some ([false, false, true, false], true, .ok) := by decide

/-- HL13. -/
theorem test_hwDisable_range : (run (.hwDisable 0 4) 0 base).map
    (fun t => (masks t, retOf 0 t)) = some ([false, false, false, false], .err .range) := by decide

/-- 41_hw_lines R256. -/
theorem test_hwEnable : (run (.hwEnable 0 2) 3
      (base.updLine 2 (fun l => { l with level := true, mask := true, target := 1 }))).map
    (fun t => ((t.line 2).mask, (t.line 2).hwDisabled, t.irqOut 0)) = some (false, false, true) := by
  decide

/-- HL14, HL15. -/
theorem test_hwEoi :
    (run (.hwEoi 0 1) 3 (base.updLine 1 (fun l => { l with mask := true, hwDisabled := false }))).map
      (fun t => (t.line 1).mask) = some false ∧
    (run (.hwEoi 0 1) 3 (base.updLine 1 (fun l => { l with mask := true }))).map
      (fun t => (t.line 1).mask) = some true := by decide

/-- 41_hw_lines R258. -/
theorem test_hwSetAffinity : (run (.hwSetAffinity 0 1 4) 5 base).map
    (fun t => ((t.line 1).target, retOf 0 t, t.affLock)) = some (4, .core 2, none) := by decide

/-- HL18. -/
theorem test_hwSetAffinity_none : (run (.hwSetAffinity 0 1 0x10) 4
      (base.updLine 1 (fun l => { l with target := 1 }))).map
    (fun t => ((t.line 1).target, retOf 0 t, t.affLock)) = some (1, .err .affinity, none) := by decide

/-- HL22. -/
theorem test_hwDispatch_unbound : (run (.hwDispatch 0 3) 1
      (draining 0 (base.updLine 3 (fun l => { l with mask := true })))).map
    (fun t => (t.diag, (t.line 3).mask)) = some ([⟨0, .unboundLine, .line .hw 3⟩], true) := by decide

/-- 41_hw_lines R259: the handler 7 runs, returns, and the EOI unmasks the line. -/
theorem test_hwDispatch_bound : (run (.hwDispatch 0 0) 6
      (draining 0 ((base.setBound .hw 0 7).updLine 0
        (fun l => { l with mask := true, hwDisabled := false })))).map
    (fun t => (masks t, (t.core 0).seq, t.trace.contains (.handler 0 .hw 0 7)))
    = some ([false, false, false, false], [], true) := by decide

/-- FQ2. -/
theorem test_fiqMask : (run (.fiqMask 0 0) 3 timer).map
    (fun t => (t.arm 0 0, t.fiqDisabled 0 0, t.fiqOut 0)) = some (false, true, false) := by decide

/-- FQ3. -/
theorem test_fiqUnmask : (run (.fiqUnmask 0 0) 3
      (base.updCore 0 (fun k => { k with cond := [true, false] }))).map
    (fun t => (t.fiqDisabled 0 0, t.fiqOut 0)) = some (false, true) := by decide

/-- FQ4. -/
theorem test_fiqEoi_range : (run (.fiqEoi 0 1) 0 base).map (retOf 0) = some (.err .range) := by decide

/-- FQ6: left disabled, the cause is not re-armed; else it is (43_fiq R316). -/
theorem test_fiqEoi :
    (run (.fiqEoi 0 0) 3 base).map (fun t => t.arm 0 0) = some false ∧
    (run (.fiqEoi 0 0) 3 (base.setFiqDisabled 0 0 false)).map (fun t => t.arm 0 0) = some true := by
  decide

/-- FQ11. -/
theorem test_fiqPoll_quiet : (run (.fiqPoll 0) 4 (draining 0 base)).map
    (fun t => ((t.core 0).seq, t.diag, t.cores.map (·.arm) == base.cores.map (·.arm)))
    = some ([], [], true) := by decide

/-- FQ9: TMR fires and is not bound. -/
theorem test_fiqPoll_unbound : (run (.fiqPoll 0) 7 (draining 0 timer)).map
    (fun t => (t.arm 0 0, t.fiqDisabled 0 0, t.diag))
    = some (false, true, [⟨0, .unsupportedFiq, .cause "TMR"⟩]) := by decide

/-- FQ8. -/
theorem test_silence : (run (.silence 0 1) 2
      (base.updCore 0 (fun k => { k with cond := [false, true], arm := [false, true] }))).map
    (fun t => (t.arm 0 1, t.diag, t.fiqOut 0))
    = some (false, [⟨0, .unsupportedFiq, .cause "PMC"⟩], false) := by decide

/-- 43_fiq R319, FQ7: disarmed while the handler runs, armed after the EOI. -/
theorem test_fiqDispatch :
    (run (.fiqDispatch 0 0) 2 ((timer.setBound .fiq 0 5).setFiqDisabled 0 0 false)).map
      (fun t => (t.arm 0 0, (t.core 0).seq)) = some (false, [.running .fiq 0 5, .op (.fiqEoi 0 0)]) ∧
    (run (.fiqDispatch 0 0) 7 ((timer.setBound .fiq 0 5).setFiqDisabled 0 0 false)).map
      (fun t => (t.arm 0 0, (t.core 0).seq, t.fiqOut 0)) = some (true, [], true) := by decide

/-- 44_vipi_arbiter R360: a destination that accepts the line. -/
theorem test_vipiSend : (run (.vipiSend 0 0 2) 8 (base.setEnabled 1 1)).map
    (fun t => ((t.core 1).pending, (t.core 1).ipiPend.other, (t.core 0).seq)) = some (1, true, []) := by
  decide

/-- VI4, VI7. -/
theorem test_vipiSend_dropped :
    (run (.vipiSend 0 0 4) 7 base).map
      (fun t => ((t.core 2).pending, (t.core 2).ipiPend.other, (t.core 0).seq)) = some (0, false, []) ∧
    (run (.vipiSend 0 2 2) 0 base).map (·.refused) = some (some .badVipiIndex) := by decide

/-- VI9. -/
theorem test_vipiReceive_empty : (run (.vipiReceive 1) 6
      (draining 1 ((base.setIpiPend 1 ⟨true, false⟩).setIpiMask 1 ⟨true, false⟩))).map
    (fun t => ((t.core 1).ipiPend.other, (t.core 1).ipiMask.other, (t.core 1).seq))
    = some (false, false, []) := by decide

/-- VI10. -/
theorem test_vipiReceive_unbound : (run (.vipiReceive 1) 8 (draining 1 (base.setPending 1 2))).map
    (fun t => ((t.core 1).pending, t.diag, (t.core 1).seq))
    = some (0, [⟨1, .unboundLine, .line .ipi 1⟩], []) := by decide

/-- VI11. -/
theorem test_vipiMask :
    (run (.vipiMask 2 0) 3 (base.setEnabled 2 3)).map
      (fun t => ((t.core 2).enabled, (t.core 2).ipiMask.other)) = some (2, false) ∧
    (run (.vipiMask 2 1) 3 (base.setEnabled 2 2)).map
      (fun t => ((t.core 2).enabled, (t.core 2).ipiMask.other)) = some (0, true) := by decide

/-- VI12. -/
theorem test_vipiUnmask : (run (.vipiUnmask 2 1) 3 (base.setIpiMask 2 ⟨true, false⟩)).map
    (fun t => ((t.core 2).enabled, (t.core 2).ipiMask.other)) = some (2, false) := by decide

/-- 45_frontend_config R390; FE2: with the front-end not armed there is no TRAP. -/
theorem test_trap :
    (run (.trap 0) 0 base.withArmed).map (fun t => (t.core 0).fe) = some .draining ∧
    (run (.trap 0) 0 base).map (fun t => (t.core 0).fe) = some .idle := ⟨rfl, by decide⟩

/-- 45_frontend_config R391 (and FE1): nothing eligible, one read, the loop ends. -/
theorem test_drain : (run (.drain 0) 2 (draining 0 base)).map
    (fun t => (retOf 0 t, (t.core 0).seq)) = some (.word 0, []) := by decide

/-- 45_frontend_config R392. -/
theorem test_classify :
    (run (.classify 0 0x00010003) 0 base).map (fun t => (t.core 0).seq)
      = some [.op (.hwDispatch 0 3)] ∧
    (run (.classify 0 0x00040001) 0 base).map (fun t => (t.core 0).seq)
      = some [.op (.vipiReceive 0)] := by decide

/-- FE3, FE4, FE5. -/
theorem test_classify_unknown :
    (run (.classify 0 0x00070000) 1 base).map (·.diag) = some [⟨0, .unknownEvent, .event 0x00070000⟩] ∧
    (run (.classify 1 0x00040002) 1 base).map (·.diag) = some [⟨1, .unknownEvent, .event 0x00040002⟩] ∧
    (run (.classify 0 0x00010009) 1 base).map (·.diag) = some [⟨0, .unknownEvent, .event 0x00010009⟩] := by
  decide

/-- FE7. -/
theorem test_resolve :
    (run (.resolve 0 0 3 0) 0 base).map (retOf 0) = some (.line .hw 3) ∧
    (run (.resolve 0 0 4 0) 0 base).map (retOf 0) = some (.err .config) ∧
    (run (.resolve 0 1 0 0) 0 base).map (retOf 0) = some (.line .fiq 0) ∧
    (run (.resolve 0 1 1 0) 0 base).map (retOf 0) = some (.err .config) := by decide

/-- 30_encoding R122: the flags are stored for the line, whatever they are. -/
theorem test_resolve_flags : (run (.resolve 0 1 0 0x80000005) 0 base).map
    (fun t => (t.flagsOf .fiq 0, t.flagsOf .hw 0, t.flagsOf .ipi 0))
    = some (some 0x80000005, none, none) := by decide

/-- FE8. -/
theorem test_bind : (run (.bind 0 .ipi 0 4) 0 (base.setBound .ipi 0 3)).map
    (fun t => (t.bound .ipi 0, t.bound .ipi 1, t.bound .hw 0)) = some (some 4, none, none) := by decide

/-- RS1. -/
theorem test_init : (run (.init 0) 14 line3).map
    (fun t => (t.lines.map (fun l => (l.sw, l.mask, l.target, l.hwDisabled)), t.armed, retOf 0 t))
    = some (List.replicate 4 (false, true, 1, true), true, .ok) := by decide

/-- RS2. -/
theorem test_init_no_lines : (run (.init 0) 4
      (State.powerOn { Config.default with nrHw := 0 } PowerOn.zero)).map
    (fun t => (t.armed, retOf 0 t, (t.core 0).seq)) = some (true, .ok, []) := by decide

/-- RS3. -/
theorem test_cpuOnline : (run (.cpuOnline 1) 7
      (base.updCore 1 (fun k => { k with arm := [true, true], fiqDisabled := [false] }))).map
    (fun t => ((t.core 1).arm, (t.core 1).fiqDisabled, (t.core 1).ipiMask, t.diag, retOf 1 t))
    = some ([false, false], [true], ⟨true, true⟩, [], .ok) := by decide

/-- RS4. -/
theorem test_cpuOnline_topology : (run (.cpuOnline 1) 8
      { base with cfg := { Config.default with hwid := [0, 5, 2, 3] } }).map (·.diag)
    = some [⟨1, .topology, .ids 1 5⟩] := by decide

/-! ## Steps and ordinary memory -/

/-- The boot core performs the operation given as a number, in the very next step. -/
theorem test_withFetchWord : (match step (base.withFetchWord 128 (0x402 + 2 ^ 32 * 0x4100 + 2 ^ 64 * 4)) with
    | .next t => masks t
    | _ => []) = [false, false, true, false] := by decide

/-- 10_state R59. -/
theorem test_refused_no_step :
    step (base.refuse .writeReadOnly) = .fault (.runRefused .writeReadOnly) := rfl

/-- 20_memory R93: without the fences the initial value may still be returned, with both pairs not. -/
theorem test_pairing :
    memSources [.memWrite (.core 0) 9 5, .access 0 none [] [.pending 1],
      .access 1 none [.pending 1] [.pending 1]] 1 none 9 = [none, some 0] ∧
    memSources [.memWrite (.core 0) 9 5, .fence 0 .w, .access 0 none [] [.pending 1],
      .access 1 none [.pending 1] [.pending 1], .fence 1 .r] 1 none 9 = [some 0] := by decide

/-- 20_memory R93: the start of a trap and a diagnostic are writes X (10_state R46, R58), whose successors
in the total order show what was written before the fence. -/
theorem test_pairing_by_trap_and_diagnostic :
    memSources [.memWrite (.core 0) 9 5, .fence 0 .w, .trapEntry 0, .access 2 none [] [.pending 1],
      .access 1 none [.pending 1] [.pending 1], .fence 1 .r] 1 none 9 = [some 0] ∧
    memSources [.memWrite (.core 0) 9 5, .fence 0 .w, .access 0 none [] [.diag],
      .access 2 none [] [.pending 1], .access 1 none [.pending 1] [.pending 1], .fence 1 .r] 1 none 9
      = [some 0] := by decide

/-- 20_memory R93: a handler that begins observes its BIND, a trap that begins the setting of armed. -/
theorem test_pairing_by_handler_and_trap :
    memSources [.memWrite (.core 0) 9 5, .fence 0 .w, .access 0 none [] [.bound .fiq 0],
      .handler 1 .fiq 0 7, .fence 1 .r] 1 none 9 = [some 0] ∧
    memSources [.memWrite (.core 0) 9 5, .fence 0 .w, .access 0 none [] [.armed],
      .trapEntry 1, .fence 1 .r] 1 none 9 = [some 0] := by decide

/-- 20_memory R94: an ordered EVENT read shows the device's write to the line's handler, a relaxed one
need not. -/
theorem test_device_write :
    memSources [.memWrite (.device 3) 9 5, .input (.level 3 true), .report 1 .ordered (.hw 3)]
      1 (some 3) 9 = [some 0] ∧
    memSources [.memWrite (.device 3) 9 5, .input (.level 3 true), .report 1 .relaxed (.hw 3)]
      1 (some 3) 9 = [none, some 0] := by decide

/-! ## Witnesses: states and operands that meet the hypotheses of each statement, at the ends of the
ranges. Forty lines: two bank registers, the second not full; a cause of each kind. -/

def cfgW : Config :=
  { Config.default with
    nrHw := 40, causes := [⟨"TMR", some 0, .enableBit⟩, ⟨"PMC", none, .source⟩] }

def wit : State := State.powerOn cfgW PowerOn.zero

/-- Line 39 is eligible for core 3, core 3 has the other IPI pending. -/
def witEvents : State :=
  (wit.updLine 39 (fun l => { l with level := true, target := 8 })).setIpiPend 3 ⟨true, false⟩

/-- Core 3 in state Draining, with the step m to perform. -/
def witStep (m : SeqStep) (s : State) : State := (draining 3 s).setSeq 3 [m]

/-- The core c moves next. -/
def next (c : Nat) (s : State) : State := s.withSched [.core c]

theorem witness_parameters : Config.default.Wf ∧ cfgW.Wf ∧
    ({ Config.default with nrHw := 896 } : Config).RegmapWf := by decide

theorem witness_core : wit.Shaped ∧ 3 < wit.cfg.maxCores ∧ 0 < wit.cfg.maxCores := by decide

theorem witness_EmptyEventRead : wit.Shaped ∧ 3 < wit.cfg.maxCores ∧ wit.events 3 = [] := by decide

theorem witness_EventReadReportsAndMasks : witEvents.Shaped ∧ 3 < witEvents.cfg.maxCores ∧
    witEvents.events 3 = [.hw 39, .ipi .other] := by decide

theorem witness_OutputsFollowTheirCauses :
    (∀ i, i < wit.cfg.nrHw → (wit.line i).mask = true ∨ (wit.line i).target.getLsbD 3 = false) ∧
    ∀ sel, (wit.core 3).ipiMask.get sel = true ∨ (wit.core 3).ipiPend.get sel = false :=
  ⟨by decide, fun sel => by cases sel <;> decide⟩

theorem witness_NoDuplicateReport : line3.Shaped ∧ 1 < line3.cfg.maxCores ∧
    ∃ t u, exec (.readEvent 1 .ordered) line3 = .next t ∧ (t.core 1).ret = .word 0x00010003 ∧
      (0x00010003 : Word) ≠ 0 ∧ exec (.readEvent 1 .relaxed) t = .next u :=
  ⟨by decide, by decide, _, _, rfl, by decide, by decide, rfl⟩

theorem witness_bank : wit.Shaped ∧ 0 < wit.cfg.maxCores ∧ 1 < wit.cfg.nBank ∧ 0 < wit.cfg.nBank := by
  decide

theorem witness_line : wit.Shaped ∧ 3 < wit.cfg.maxCores ∧ 39 < wit.cfg.nrHw ∧ 0 < wit.cfg.nrHw := by
  decide

theorem witness_HwSetAffinity_some : wit.Shaped ∧ 3 < wit.cfg.maxCores ∧ 39 < wit.cfg.nrHw ∧
    wit.affLock = none ∧
    ∃ τ, τ < wit.cfg.maxCores ∧ (8 : Word).getLsbD τ = true ∧ wit.cfg.online.getLsbD τ = true :=
  ⟨by decide, by decide, by decide, by decide, 3, by decide⟩

theorem witness_HwSetAffinity_none : wit.affLock = none ∧
    ∀ τ, τ < wit.cfg.maxCores → (0x10 : Word).getLsbD τ = true → wit.cfg.online.getLsbD τ = false := by
  decide

theorem witness_HwSetAffinity_waits :
    (wit.withAffLock (some 1)).Shaped ∧ (wit.withAffLock (some 1)).affLock = some 1 := by decide

theorem witness_HwDispatch :
    (draining 3 wit).Shaped ∧ ((draining 3 wit).core 3).fe = .draining ∧
    (draining 3 wit).bound .hw 39 = none ∧
    (draining 3 (wit.setBound .hw 39 7)).Shaped ∧
    ((draining 3 (wit.setBound .hw 39 7)).core 3).fe = .draining ∧
    (draining 3 (wit.setBound .hw 39 7)).bound .hw 39 = some 7 := ⟨by decide, by decide, by decide, by decide, by decide, by decide⟩

theorem witness_OutOfRangeIsErrRange : wit.Shaped ∧ 3 < wit.cfg.maxCores ∧
    wit.cfg.nrHw ≤ 40 ∧ wit.cfg.nrFiq ≤ 1 ∧ wit.cfg.nrVipi ≤ 2 := by decide

theorem witness_IpiSend :
    (∀ b, b < 32 → (0xF : Word).getLsbD b = true → b < wit.cfg.maxCores) ∧
    (0x1F : Word).getLsbD 4 = true ∧ wit.cfg.maxCores ≤ 4 := by decide

theorem witness_IpiSelectorWrites :
    (∀ b, b < 32 → (0x80000001 : Word).getLsbD b = true →
      b = wit.cfg.ipiOtherBit ∨ b = wit.cfg.ipiSelfBit) ∧
    (0x80000003 : Word).getLsbD 1 = true ∧ 1 ≠ wit.cfg.ipiOtherBit ∧ 1 ≠ wit.cfg.ipiSelfBit := by decide

theorem witness_FiqCauseAccesses : wit.Shaped ∧ 3 < wit.cfg.maxCores ∧ 1 < wit.cfg.causes.length := by
  decide

theorem witness_FiqMaskUnmaskEoi : wit.Shaped ∧ 3 < wit.cfg.maxCores ∧ 0 < wit.cfg.nrFiq ∧
    wit.cfg.IsCauseOf 0 0 := ⟨by decide, by decide, by decide, by decide, by decide⟩

theorem witness_FiqDispatch : (wit.setBound .fiq 0 5).Shaped ∧
    (wit.setBound .fiq 0 5).cfg.IsCauseOf 0 0 ∧ (wit.setBound .fiq 0 5).bound .fiq 0 = some 5 :=
  ⟨by decide, ⟨by decide, by decide⟩, by decide⟩

theorem witness_FiqPollTakesCausesInOrder :
    ((draining 3 wit).Shaped ∧ ((draining 3 wit).core 3).fe = .draining ∧
      ∀ k, k < wit.cfg.causes.length → (draining 3 wit).fire 3 k = false) ∧
    (wit.setSeq 3 [.op (.fiqReadCause 3 1), .pollTest 1]).Shaped ∧
    ((wit.setSeq 3 [.op (.fiqReadCause 3 1), .pollTest 1]).core 3).seq
      = [.op (.fiqReadCause 3 1), .pollTest 1] := ⟨⟨by decide, by decide, by decide⟩, by decide, by decide⟩

theorem witness_VipiSend : wit.Shaped ∧ 3 < wit.cfg.maxCores ∧ 1 < wit.cfg.nrVipi ∧
    (∀ b, b < 32 → (0xF : Word).getLsbD b = true → b < wit.cfg.maxCores) ∧ wit.cfg.nrVipi ≤ 2 := by
  decide

theorem witness_VipiReceive :
    (draining 3 wit).Shaped ∧ ((draining 3 wit).core 3).fe = .draining ∧
    ((draining 3 wit).core 3).pending = 0 ∧
    (draining 3 (wit.setPending 3 3)).Shaped ∧ ((draining 3 (wit.setPending 3 3)).core 3).pending = 3 := ⟨by decide, by decide, by decide, by decide, by decide⟩

theorem witness_VipiBitDispatch :
    (witStep (.recvBit 1) wit).Shaped ∧ ((witStep (.recvBit 1) wit).core 3).seq = [.recvBit 1] ∧
    (witStep (.recvBit 1) wit).bound .ipi 1 = none ∧
    (witStep (.recvBit 1) (wit.setBound .ipi 1 9)).Shaped ∧
    (witStep (.recvBit 1) (wit.setBound .ipi 1 9)).bound .ipi 1 = some 9 := ⟨by decide, by decide, by decide, by decide, by decide⟩

theorem witness_VipiMaskAndUnmask : wit.Shaped ∧ 3 < wit.cfg.maxCores ∧ 1 < wit.cfg.nrVipi := by decide

theorem witness_TrapEntry :
    (wit.withArmed.Shaped ∧ (wit.withArmed.core 3).fe = .idle ∧ wit.withArmed.armed = true ∧
      (wit.withArmed.core 3).seq = []) ∧
    ¬((wit.core 3).fe = .idle ∧ wit.armed = true ∧ (wit.core 3).seq = []) := ⟨by decide, by decide⟩

/-- The front-end armed, an event for core 3, which accepts interrupts and moves next. -/
def witTrap : State := next 3 (witEvents.withArmed.updCore 3 (fun k => { k with accepts := true }))

theorem witness_DueTrapIsTaken : witTrap.Shaped ∧ 3 < witTrap.cfg.maxCores ∧ witTrap.refused = none ∧
    witTrap.sched = [.core 3] ∧ (witTrap.core 3).fe = .idle ∧ witTrap.armed = true ∧
    (witTrap.core 3).seq = [] ∧ (witTrap.core 3).accepts = true ∧ witTrap.irqOut 3 = true := by decide

theorem witness_TrapReturn : (witStep .trapExit wit).Shaped ∧
    ((witStep .trapExit wit).core 3).seq = [.trapExit] := by decide

theorem witness_DrainReadsUntilEmpty :
    (draining 3 wit).Shaped ∧ ((draining 3 wit).core 3).fe = .draining ∧ (draining 3 wit).events 3 = [] ∧
    (draining 3 witEvents).Shaped ∧ (draining 3 witEvents).events 3 ≠ [] := ⟨by decide, by decide, by decide, by decide, by decide⟩

theorem witness_ClassifyRoutes : wit.Shaped ∧ 3 < wit.cfg.maxCores ∧
    (eventType 0x00010027 = wit.cfg.evTypeHw ∧ (eventIndex 0x00010027).toNat < wit.cfg.nrHw) ∧
    (eventType 0x00040001 = wit.cfg.evTypeIpi ∧ eventIndex 0x00040001 = wit.cfg.evIpiOther) ∧
    ¬(eventType 0x00010028 = wit.cfg.evTypeHw ∧ (eventIndex 0x00010028).toNat < wit.cfg.nrHw) ∧
    ¬(eventType 0x00010028 = wit.cfg.evTypeIpi ∧ eventIndex 0x00010028 = wit.cfg.evIpiOther) := by
  decide

theorem witness_ResolveDescriptor : wit.Shaped ∧ 3 < wit.cfg.maxCores ∧
    39 < wit.cfg.nrHw ∧ wit.cfg.nrHw ≤ 40 ∧ 0 < wit.cfg.nrFiq ∧ wit.cfg.nrFiq ≤ 1 ∧
    1 < wit.cfg.nrVipi ∧ wit.cfg.nrVipi ≤ 2 ∧ 3 ≠ wit.cfg.kindCode.hw ∧ 3 ≠ wit.cfg.kindCode.fiq ∧ 3 ≠ wit.cfg.kindCode.ipi := by decide

theorem witness_BindSetsOneHandler : wit.Shaped ∧ 3 < wit.cfg.maxCores ∧
    39 < wit.cfg.domSize .hw ∧ 0 < wit.cfg.domSize .fiq ∧ 1 < wit.cfg.domSize .ipi := by decide

theorem witness_InitMasksEverything :
    (wit.Shaped ∧ 3 < wit.cfg.maxCores ∧ 3 ≠ wit.cfg.bootCore ∧ wit.cfg.windowPresent = true) ∧
    ({ wit with cfg := { cfgW with windowPresent := false } }).Shaped ∧
    ({ wit with cfg := { cfgW with windowPresent := false } }).cfg.windowPresent = false := ⟨by decide, by decide, by decide⟩

theorem witness_CpuOnlineMasksTheCore : wit.Shaped ∧ 3 < wit.cfg.maxCores ∧
    (wit.cfg.hwidOf 3).toNat = 3 ∧
    ({ wit with cfg := { cfgW with hwid := [0, 1, 2, 7] } }).Shaped := ⟨by decide, by decide, by decide, by decide⟩

theorem witness_EnvironmentSteps : wit.Shaped ∧ 39 < wit.cfg.nrHw ∧ 3 < wit.cfg.maxCores ∧
    1 < wit.cfg.causes.length ∧ (wit.cfg.cause 1).mkind = .source ∧
    (wit.cfg.cause 0).mkind = .enableBit ∧ wit.cfg.nrHw ≤ 40 ∧ wit.cfg.maxCores ≤ 4 ∧
    wit.cfg.causes.length ≤ 2 := by decide

theorem witness_DecodeOfEncode : cfgW.Wf ∧ (Instr.vipiSend 3 1 0xF).Wf cfgW ∧
    (Instr.writeTarget 3 .ordered 39 0x80000004).Wf cfgW := by decide

theorem witness_EncodeOfDecode : cfgW.Wf ∧
    decode cfgW 3 ⟨0x00010402, 0x309C, 0x80000004, 0⟩ = .ok (.writeTarget 3 .ordered 39 0x80000004) := by
  decide

/-- Core 3 is the next to move and has one request. -/
def witRequest (p : Packet) : State := next 3 (wit.setQueue 3 [.packet p])

theorem aboutTo_witRequest (p : Packet) :
    (witRequest p).AboutTo 3 (.packet p)
      (((witRequest p).withSched []).setQueue 3 []) :=
  ⟨rfl, (by decide : 3 < cfgW.maxCores), rfl, rfl, [], [], rfl, rfl, rfl⟩

theorem witness_StepPerformsTheDecodedOperation :
    (∃ s', (witRequest ⟨10, 0, 0, 0⟩).AboutTo 3 (.packet ⟨10, 0, 0, 0⟩) s') ∧
    decode (witRequest ⟨10, 0, 0, 0⟩).cfg 3 ⟨10, 0, 0, 0⟩ = .ok (.fenceW 3) ∧
    (next 3 (witStep .trapExit wit)).refused = none ∧
    (next 3 (witStep .trapExit wit)).sched = [.core 3] ∧ 3 < wit.cfg.maxCores ∧
    ((next 3 (witStep .trapExit wit)).core 3).seq = [.trapExit] :=
  ⟨⟨_, aboutTo_witRequest _⟩, by decide, rfl, rfl, by decide, rfl⟩

/-- Core 3 asks for the request r, inside the handler of line 39. -/
def witHandler (r : List Request) : State :=
  next 3 ((wit.setSeq 3 [.running .hw 39 7, .op (.hwEoi 3 39)]).setQueue 3 r)

theorem aboutTo_witHandler (r : Request) :
    (witHandler [r]).AboutTo 3 r (((witHandler [r]).withSched []).setQueue 3 []) :=
  ⟨rfl, (by decide : 3 < cfgW.maxCores), rfl, rfl, [], [], rfl, rfl, rfl⟩

theorem witness_StepPerformsTheDecodedOperation_handler :
    (∃ s', (witHandler [.memRead 9]).AboutTo 3 (.memRead 9) s') ∧
    (∃ s', (witHandler [.memWrite 9 5]).AboutTo 3 (.memWrite 9 5) s') ∧
    (witHandler []).refused = none ∧ (witHandler []).sched = [.core 3] ∧
    ((witHandler []).core 3).seq = [.running .hw 39 7, .op (.hwEoi 3 39)] ∧
    ((witHandler []).core 3).queue = [] ∧
    ((witHandler [.handlerReturn]).core 3).queue.head? = some .handlerReturn :=
  ⟨⟨_, aboutTo_witHandler _⟩, ⟨_, aboutTo_witHandler _⟩, rfl, rfl, rfl, rfl, rfl⟩

theorem witness_StepPerformsTheDecodedOperation_idle :
    (next 3 wit).refused = none ∧ (next 3 wit).sched = [.core 3] ∧
    ((next 3 wit).core 3).seq = [] ∧ (next 3 wit).trapDue 3 = false ∧ ((next 3 wit).core 3).queue = [] ∧
    ∃ s', (next 3 (wit.setQueue 3 [.handlerReturn])).AboutTo 3 .handlerReturn s' :=
  ⟨rfl, rfl, rfl, rfl, rfl, _, rfl, (by decide : 3 < cfgW.maxCores), rfl, rfl, [], [], rfl, rfl, rfl⟩

theorem witness_BadAccessesAreRefused_width :
    (∃ s', (witRequest ⟨0x00000201, 0x2004, 0, 0⟩).AboutTo 3 (.packet ⟨0x00000201, 0x2004, 0, 0⟩) s') ∧
    (witRequest ⟨0x00000201, 0x2004, 0, 0⟩).Shaped ∧
    (Packet.mk 0x00000201 0x2004 0 0).code = 1 ∧ (Packet.mk 0x00000201 0x2004 0 0).kindBits ≤ 1 ∧
    (Packet.mk 0x00000201 0x2004 0 0).width ≠ 4 :=
  ⟨⟨_, aboutTo_witRequest _⟩, by decide, by decide, by decide, by decide⟩

theorem witness_BadAccessesAreRefused_offset :
    (∃ s', (witRequest ⟨0x00010402, 0x30A0, 1, 0⟩).AboutTo 3 (.packet ⟨0x00010402, 0x30A0, 1, 0⟩) s') ∧
    (Packet.mk 0x00010402 0x30A0 1 0).code = 2 ∧ (Packet.mk 0x00010402 0x30A0 1 0).kindBits ≤ 1 ∧
    (Packet.mk 0x00010402 0x30A0 1 0).width = 4 ∧ 0x30A0 % 4 = 0 ∧
    ∀ r ∈ cfgW.ranges, ¬(r.1 ≤ 0x30A0 ∧ 0x30A0 < r.1 + 4 * r.2) :=
  ⟨⟨_, aboutTo_witRequest _⟩, by decide, by decide, by decide, by decide, by decide⟩

theorem witness_RefusedStateHasNoSuccessor :
    (wit.refuse .reservedBit).refused = some .reservedBit := by decide

/-- Core 0 wrote memory and published it, core 3 saw the publication and fenced. -/
def witPaired : State :=
  { wit with trace :=
      [.memWrite (.core 0) 9 5, .fence 0 .w, .access 0 none [] [.pending 3],
       .access 3 none [.pending 3] [.pending 3], .fence 3 .r] }

theorem witness_PairedFencesMakeWritesVisible : witPaired.Shaped ∧ 3 < witPaired.cfg.maxCores ∧
    witPaired.trace[0]? = some (.memWrite (.core 0) 9 5) ∧ witPaired.trace[1]? = some (.fence 0 .w) ∧
    entryAt witPaired.trace 2 (Event.writtenBy 0) = true ∧
    entryAt witPaired.trace 3 (Event.readBy 3) = true ∧ observes witPaired.trace 2 3 = true ∧
    witPaired.trace[4]? = some (.fence 3 .r) := by decide

/-- The device of line 39 wrote memory and raised its line, which core 3 read in order and serves. -/
def witDevice : State :=
  { wit.setSeq 3 [.running .hw 39 7] with trace :=
      [.memWrite (.device 39) 9 5, .input (.level 39 true), .report 3 .ordered (.hw 39)] }

theorem witness_OrderedEventReadShowsDeviceWrites : witDevice.Shaped ∧ 3 < witDevice.cfg.maxCores ∧
    witDevice.trace[0]? = some (.memWrite (.device 39) 9 5) ∧
    witDevice.trace[1]? = some (.input (.level 39 true)) ∧
    witDevice.trace[2]? = some (.report 3 .ordered (.hw 39)) ∧
    (witDevice.core 3).seq = [.running .hw 39 7] := by decide

/-- Core 0 wrote memory; core 3 accepts line 1 and drains. -/
def witPublish : State := (draining 3 (wit.setEnabled 3 2)).memWrite (.core 0) 9 5

theorem witness_VipiSendPublishesMemory : witPublish.Shaped ∧ 0 < witPublish.cfg.maxCores ∧
    3 < witPublish.cfg.maxCores ∧ 1 < witPublish.cfg.nrVipi ∧
    (witPublish.core 3).enabled.getLsbD 1 = true ∧ (witPublish.core 3).fe = .draining ∧
    witPublish.trace[0]? = some (.memWrite (.core 0) 9 5) := by decide

theorem witness_exec : ∃ t, exec (.writeMaskSet 3 .relaxed 1 0x80) wit = .next t ∧
    seqStep 3 .trapExit wit = .next (wit.trapReturn 3) ∧ (t.line 39).mask = true :=
  ⟨_, rfl, rfl, by decide⟩

theorem witness_RegisterWritesAreIdempotent :
    ∃ t, exec (.writeIpiMaskSet 3 .relaxed 0x80000001) wit = .next t ∧ (t.core 3).ipiMask = ⟨true, true⟩ :=
  ⟨_, rfl, by decide⟩

theorem witness_FiqStateIsCoreLocal :
    ∃ t, exec (.fiqWriteArm 3 0 true) wit = .next t ∧ 2 ≠ (Instr.fiqWriteArm 3 0 true).core ∧
      t.arm 3 0 = true ∧ seqStep 3 (.setFiqDisabled 0 false) wit = .next (wit.setFiqDisabledStep 3 0 false) :=
  ⟨_, rfl, by decide, by decide, rfl⟩

theorem witness_VipiPorts : wit.Shaped ∧ 3 < wit.cfg.maxCores ∧ 0 < wit.cfg.maxCores ∧
    ∀ b, (3 : Word).getLsbD b = true → b < wit.cfg.nrVipi :=
  ⟨by decide, by decide, by decide, fun b hb =>
    match b, hb with
    | 0, _ => by decide
    | 1, _ => by decide
    | b + 2, hb => by simp [BitVec.getLsbD, Nat.testBit_succ] at hb⟩

theorem witness_OnlyPortsSetVipiBits :
    ∃ t, exec (.vipiPendXchg0 3 3) (wit.setPending 3 3) = .next t ∧ (t.core 3).pending = 0 ∧
      seqStep 3 .vipiMaskTest t = .next t :=
  ⟨_, rfl, by decide, rfl⟩

/-- Core 0 requests VIPI_PEND_OR of lines 1 and 2 on core 3, which has line 0 pending; line 2 is not
there (10_state R41). -/
def witSignal : State := (next 0 (wit.setPending 3 1)).setQueue 0 [.packet ⟨6, 3, 6, 0⟩]

theorem witness_OnlyPortsSetVipiBits_step : witSignal.PendingInRange ∧
    ∃ t, step witSignal = .next t ∧ (t.core 3).pending = 3 := by
  refine ⟨fun c b hb => ?_, _, rfl, by decide⟩
  match c with
  | 0 => exact BitVec.getLsbD_zero
  | 1 => exact BitVec.getLsbD_zero
  | 2 => exact BitVec.getLsbD_zero
  | 3 =>
    show (1 : Word).getLsbD b = false
    have h2 : 2 ≤ b := hb
    match b with
    | b + 2 => simp [BitVec.getLsbD, Nat.testBit_succ]
  | n + 4 => exact BitVec.getLsbD_zero

/-- Core 3 moves: it ends its affinity region. -/
def witRegion : State := next 3 ((wit.withAffLock (some 3)).setSeq 3 [.affUnlock, .ret .ok])

theorem witness_step : witRegion.Shaped ∧ witRegion.sched = [.core 3] ∧
    Memory.wf witRegion.trace = true ∧ ∃ t, step witRegion = .next t ∧ t.affLock = none :=
  ⟨by decide, by decide, by decide, _, rfl, by decide⟩

theorem witness_StepKeepsAffinityExclusion : witRegion.LockHeldByRegion ∧ ∃ t, step witRegion = .next t := by
  refine ⟨fun c => ?_, _, rfl⟩
  match c with
  | 0 => rfl
  | 1 => rfl
  | 2 => rfl
  | 3 => rfl
  | n + 4 =>
    show _ = if some 3 = some (n + 4) then 1 else 0
    rw [if_neg (by simp)]
    rfl

/-- Core 3 moves: its TRAP ends. -/
def witExit : State := next 3 (witStep .trapExit wit.withArmed)

theorem witness_StepKeepsOneTrapPerDrain : witExit.DrainingIsOneTrap ∧
    ∃ t, step witExit = .next t ∧ (t.core 3).fe = .idle := by
  refine ⟨⟨fun c => ?_, fun h => absurd h (by decide)⟩, _, rfl, by decide⟩
  match c with
  | 0 => rfl
  | 1 => rfl
  | 2 => rfl
  | 3 => rfl
  | n + 4 => rfl

/-- A memory history with a read in it. -/
def witHistory : State :=
  next 3 { wit.setQueue 3 [.memRead 9] with trace := [.memWrite (.core 0) 9 5, .memRead 3 9 (some 0)] }

theorem witness_StepKeepsMemoryHistory : Memory.wf witHistory.trace = true ∧
    ∃ t, step witHistory = .next t := ⟨by decide, _, rfl⟩

end Sys2Proof.Tests
end

section
/-!
PROOF. Every step keeps the shape of the state (`State.Shaped`): each update of Machine/Ops.lean keeps it,
and the operations, the control steps and the moves are made of these updates.
-/

namespace Sys2Proof.Machine

open Sys2Proof

/-! ## What holds of every element of a list whose elements are changed by index -/

theorem forall_mem_modify {α : Type} {p : α → Prop} {l : List α} {f : α → α} (c : Nat)
    (hl : ∀ x ∈ l, p x) (hf : ∀ x, p x → p (f x)) : ∀ x ∈ l.modify c f, p x := by
  rw [List.forall_mem_iff_getElem] at hl ⊢
  intro i hi
  rw [List.getElem_modify]
  split
  · exact hf _ (hl ..)
  · exact hl ..

theorem forall_mem_mapFrom {α : Type} {p : α → Prop} {l : List α} {f : Nat → α → α} (n : Nat)
    (hl : ∀ x ∈ l, p x) (hf : ∀ i x, p x → p (f i x)) : ∀ x ∈ mapFrom f n l, p x := by
  intro x hx
  obtain ⟨i, hi⟩ := List.mem_iff_getElem?.1 hx
  rw [getElem?_mapFrom, Option.map_eq_some_iff] at hi
  obtain ⟨y, hy, rfl⟩ := hi
  exact hf _ y (hl y (List.mem_of_getElem? hy))

/-! ## The updates of the state -/

variable {s : State} {c : Nat}

theorem State.Shaped.updLine (h : s.Shaped) {i : Nat} {f : Line → Line} : (s.updLine i f).Shaped := by
  obtain ⟨hwf, hlines, hrest⟩ := h
  exact ⟨hwf, (List.length_modify ..).trans hlines, hrest⟩

theorem State.Shaped.updBank (h : s.Shaped) {n : Nat} {v : Word} {f : Line → Line} :
    (s.updBank n v f).Shaped := by
  obtain ⟨hwf, hlines, hrest⟩ := h
  exact ⟨hwf, (length_mapFrom ..).trans hlines, hrest⟩

/-- A change of core c keeps the shape when it keeps the sizes of the core's lists. -/
theorem State.Shaped.updCore (h : s.Shaped) {f : CoreState → CoreState}
    (hf : ∀ k, k.Shaped s.cfg → (f k).Shaped s.cfg) : (s.updCore c f).Shaped := by
  obtain ⟨hwf, hlines, hcores, hhw, hfiq, hipi, hfhw, hffiq, hfipi, hk⟩ := h
  exact ⟨hwf, hlines, (List.length_modify ..).trans hcores, hhw, hfiq, hipi, hfhw, hffiq, hfipi,
    forall_mem_modify c hk hf⟩

theorem State.Shaped.updCores (h : s.Shaped) {f : Nat → CoreState → CoreState}
    (hf : ∀ c k, k.Shaped s.cfg → (f c k).Shaped s.cfg) : (s.updCores f).Shaped := by
  obtain ⟨hwf, hlines, hcores, hhw, hfiq, hipi, hfhw, hffiq, hfipi, hk⟩ := h
  exact ⟨hwf, hlines, (length_mapFrom ..).trans hcores, hhw, hfiq, hipi, hfhw, hffiq, hfipi,
    forall_mem_mapFrom 0 hk hf⟩

/-! Fields that have no size. -/

theorem State.Shaped.note (h : s.Shaped) {e : Event} : (s.note e).Shaped := h

theorem State.Shaped.access (h : s.Shaped) {k : Option AccessKind} {rs ws : List Loc} :
    (s.access c k rs ws).Shaped := h

theorem State.Shaped.refuse (h : s.Shaped) {r : RefuseReason} : (s.refuse r).Shaped := h

theorem State.Shaped.addDiag (h : s.Shaped) {code : DiagCode} {info : DiagInfo} :
    (s.addDiag c code info).Shaped := h

theorem State.Shaped.withDraws (h : s.Shaped) {n : Nat} : (s.withDraws n).Shaped := h

theorem State.Shaped.withSched (h : s.Shaped) {l : List Mover} : (s.withSched l).Shaped := h

theorem State.Shaped.withAffLock (h : s.Shaped) {o : Option Nat} : (s.withAffLock o).Shaped := h

theorem State.Shaped.withArmed (h : s.Shaped) : s.withArmed.Shaped := h

/-! Fields of one core that are no lists of causes or indices. -/

theorem State.Shaped.reply (h : s.Shaped) {r : Result} : (s.reply c r).Shaped :=
  h.updCore fun _ hk => hk

theorem State.Shaped.call (h : s.Shaped) {l : List SeqStep} : (s.call c l).Shaped :=
  h.updCore fun _ hk => hk

theorem State.Shaped.setSeq (h : s.Shaped) {l : List SeqStep} : (s.setSeq c l).Shaped :=
  h.updCore fun _ hk => hk

theorem State.Shaped.setQueue (h : s.Shaped) {l : List Request} : (s.setQueue c l).Shaped :=
  h.updCore fun _ hk => hk

theorem State.Shaped.setFe (h : s.Shaped) {f : FrontEnd} : (s.setFe c f).Shaped :=
  h.updCore fun _ hk => hk

theorem State.Shaped.setPending (h : s.Shaped) {v : Word} : (s.setPending c v).Shaped :=
  h.updCore fun _ hk => hk

theorem State.Shaped.setEnabled (h : s.Shaped) {v : Word} : (s.setEnabled c v).Shaped :=
  h.updCore fun _ hk => hk

theorem State.Shaped.setIpiPend (h : s.Shaped) {b : IpiBits} : (s.setIpiPend c b).Shaped :=
  h.updCore fun _ hk => hk

theorem State.Shaped.setIpiMask (h : s.Shaped) {b : IpiBits} : (s.setIpiMask c b).Shaped :=
  h.updCore fun _ hk => hk

/-! Entries of a list: the list keeps its length. -/

theorem State.Shaped.setArm (h : s.Shaped) {k : Nat} {v : Bool} : (s.setArm c k v).Shaped :=
  h.updCore fun _ ⟨hcond, harm, hfiq⟩ => ⟨hcond, List.length_set.trans harm, hfiq⟩

theorem State.Shaped.setFiqDisabled (h : s.Shaped) {d : Nat} {v : Bool} :
    (s.setFiqDisabled c d v).Shaped :=
  h.updCore fun _ ⟨hcond, harm, hfiq⟩ => ⟨hcond, harm, List.length_set.trans hfiq⟩

theorem State.Shaped.setBound (h : s.Shaped) {dom : Dom} {idx n : Nat} :
    (s.setBound dom idx n).Shaped := by
  obtain ⟨hwf, hlines, hcores, hhw, hfiq, hipi, hrest⟩ := h
  cases dom with
  | hw => exact ⟨hwf, hlines, hcores, List.length_set.trans hhw, hfiq, hipi, hrest⟩
  | fiq => exact ⟨hwf, hlines, hcores, hhw, List.length_set.trans hfiq, hipi, hrest⟩
  | ipi => exact ⟨hwf, hlines, hcores, hhw, hfiq, List.length_set.trans hipi, hrest⟩

theorem State.Shaped.setFlags (h : s.Shaped) {dom : Dom} {idx : Nat} {v : Word} :
    (s.setFlags dom idx v).Shaped := by
  obtain ⟨hwf, hlines, hcores, hhw, hfiq, hipi, hfhw, hffiq, hfipi, hk⟩ := h
  cases dom with
  | hw =>
    exact ⟨hwf, hlines, hcores, hhw, hfiq, hipi, List.length_set.trans hfhw, hffiq, hfipi, hk⟩
  | fiq =>
    exact ⟨hwf, hlines, hcores, hhw, hfiq, hipi, hfhw, List.length_set.trans hffiq, hfipi, hk⟩
  | ipi =>
    exact ⟨hwf, hlines, hcores, hhw, hfiq, hipi, hfhw, hffiq, List.length_set.trans hfipi, hk⟩

/-! ## The shared operations -/

theorem State.Shaped.choose (h : s.Shaped) {α : Type} {l : List α} {x : α} {t : State}
    (hc : s.choose l = some (x, t)) : t.Shaped := by
  obtain ⟨-, n, rfl⟩ := State.choose_spec hc
  exact h.withDraws

theorem State.Shaped.readDrawn (h : s.Shaped) {k : AccessKind} : (s.readDrawn c k).Shaped :=
  h.withDraws.access.reply

theorem State.Shaped.writeBank (h : s.Shaped) {k : AccessKind} {n : Nat} {v : Word}
    {loc : Nat → Loc} {f : Line → Line} : (s.writeBank c k n v loc f).Shaped :=
  h.access.updBank

theorem State.Shaped.writeSelector (h : s.Shaped) {k : AccessKind} {v : Word} {loc : Sel → Loc}
    {f : State → State} (hf : ∀ t : State, t.Shaped → (f t).Shaped) :
    (s.writeSelector c k v loc f).Shaped := by
  unfold State.writeSelector
  split
  · exact h.refuse
  · exact hf _ h.access

theorem State.Shaped.autoMask (h : s.Shaped) {e : EventKind} : (s.autoMask c e).Shaped := by
  cases e with
  | hw i => exact h.updLine
  | ipi sel => exact h.setIpiMask

theorem State.Shaped.readEvent (h : s.Shaped) {k : AccessKind} : (s.readEvent c k).2.Shaped := by
  by_cases he : s.events c = []
  · rw [readEvent_none k he]
    exact h.access
  · obtain ⟨e, n, -, hr⟩ := readEvent_some k he
    rw [hr]
    exact h.withDraws.note.autoMask

theorem State.Shaped.takeTrap (h : s.Shaped) : (s.takeTrap c).Shaped := by
  cases ha : s.trapAdmitted c with
  | false => rwa [takeTrap_not_admitted ha]
  | true =>
    obtain ⟨order, n, -, ht⟩ := takeTrap_admitted ha
    rw [ht]
    exact h.withDraws.note.setFe.call

theorem State.Shaped.invoke (h : s.Shaped) {dom : Dom} {idx : Nat} :
    (s.invoke c dom idx).Shaped := by
  cases hb : s.bound dom idx with
  | none => rwa [invoke_unbound hb]
  | some n =>
    rw [invoke_bound hb]
    exact h.note.call

theorem State.Shaped.memRead (h : s.Shaped) {addr : Nat} : (s.memRead c addr).Shaped := by
  unfold State.memRead
  split
  · exact h
  · next hc => exact (h.choose hc).note.reply

/-! ## Outcomes -/

/-- Where the outcome is a next state, P holds of it. -/
def NextSatisfies (P : State → Prop) : Out → Prop
  | .next t => P t
  | .fault _ => True
  | .refused _ => True

theorem NextSatisfies.of_eq_next {P : State → Prop} {o : Out} {t : State} (h : NextSatisfies P o)
    (ho : o = .next t) : P t := by
  subst ho
  exact h

theorem NextSatisfies.ite {P : State → Prop} {p : Prop} [Decidable p] {o o' : Out}
    (h : NextSatisfies P o) (h' : NextSatisfies P o') : NextSatisfies P (if p then o else o') := by
  split
  · exact h
  · exact h'

/-! ## The operations -/

theorem State.Shaped.onLine (h : s.Shaped) {i : Nat} {l : List SeqStep} :
    NextSatisfies State.Shaped (s.onLine c i l) :=
  .ite h.call h.reply

theorem State.Shaped.onFiq (h : s.Shaped) {d : Nat} {l : List SeqStep} :
    NextSatisfies State.Shaped (s.onFiq c d l) :=
  .ite h.call h.reply

theorem State.Shaped.onVipi (h : s.Shaped) {v : Nat} {l : List SeqStep} :
    NextSatisfies State.Shaped (s.onVipi c v l) :=
  .ite h.call h.reply

theorem State.Shaped.execWriteIpiSend (h : s.Shaped) {k : AccessKind} {v : Word} :
    NextSatisfies State.Shaped (execWriteIpiSend c k v s) := by
  refine .ite h.refuse (h.access.updCores fun t st hst => ?_)
  split <;> exact hst

theorem State.Shaped.execFiqDispatch (h : s.Shaped) {d : Nat} :
    NextSatisfies State.Shaped (execFiqDispatch c d s) := by
  unfold Machine.execFiqDispatch
  split
  · exact h
  · exact h.access.call

theorem State.Shaped.execHwDispatch (h : s.Shaped) {i : Nat} :
    NextSatisfies State.Shaped (execHwDispatch c i s) := by
  refine .ite ?_ h
  split <;> exact h.access.call

theorem State.Shaped.execResolve (h : s.Shaped) {kind index : Nat} {flags : Word} :
    NextSatisfies State.Shaped (execResolve c kind index flags s) := by
  unfold Machine.execResolve
  split
  · exact h.reply
  · exact .ite h.access.setFlags.reply h.reply

/-- Every operation keeps the shape. -/
theorem State.Shaped.exec (h : s.Shaped) (i : Instr) : NextSatisfies State.Shaped (exec i s) := by
  cases i with
  | readInfo c k => exact h.access.reply
  | readWhoami c k => exact h.access.reply
  | readEvent c k => exact h.readEvent.reply
  | writeInfo c k v | writeWhoami c k v | writeEvent c k v => exact h.refuse
  | writeIpiSend c k v => exact h.execWriteIpiSend
  | readIpiSend c k | readIpiAck c k | readIpiMaskSet c k | readIpiMaskClr c k => exact h.readDrawn
  | readSwSet c k n | readSwClr c k n | readMaskSet c k n | readMaskClr c k n => exact h.readDrawn
  | writeIpiAck c k v => exact h.writeSelector fun _ ht => ht.setIpiPend
  | writeIpiMaskSet c k v | writeIpiMaskClr c k v => exact h.writeSelector fun _ ht => ht.setIpiMask
  | readTarget c k j => exact h.access.reply
  | writeTarget c k j v => exact h.access.updLine
  | writeSwSet c k n v | writeSwClr c k n v | writeMaskSet c k n v | writeMaskClr c k n v =>
    exact h.writeBank
  | vipiEnRead c t => exact h.access.reply
  | vipiEnOr c t m => exact h.access.setEnabled
  | vipiEnAndn c t m => exact h.access.setEnabled.reply
  | vipiPendOr c t m => exact h.access.setPending
  | vipiPendXchg0 c t => exact h.access.setPending.reply
  | fiqReadCause c k => exact h.access.reply
  | fiqWriteArm c k v => exact h.access.setArm
  | fenceW c | fenceR c => exact h.note
  | hwDisable c j | hwEnable c j | hwEoi c j | hwSetAffinity c j m => exact h.onLine
  | hwDispatch c j => exact h.execHwDispatch
  | fiqMask c d | fiqUnmask c d | fiqEoi c d => exact h.onFiq
  | fiqPoll c => exact .ite h.call h
  | silence c k => exact h.call
  | fiqDispatch c d => exact h.execFiqDispatch
  | vipiSend c v dests => exact .ite h.call h.refuse
  | vipiReceive c => exact .ite h.call h
  | vipiMask c v | vipiUnmask c v => exact h.onVipi
  | trap c => exact h.takeTrap
  | drain c => exact .ite h.call h
  | classify c e => exact .ite h.call (.ite h.call h.call)
  | resolve c kind index flags => exact h.execResolve
  | bind c d idx n => exact h.access.setBound
  | init c => exact .ite h.call h.reply
  | cpuOnline c => exact h.call

/-! ## The control steps -/

theorem State.Shaped.affLockStep (h : s.Shaped) {i : Nat} {m : Word} :
    (s.affLockStep c i m).Shaped := by
  unfold State.affLockStep
  split
  · exact h.withAffLock.access.call
  · exact h.call

theorem State.Shaped.affChooseStep (h : s.Shaped) {i : Nat} {m : Word} :
    (s.affChooseStep c i m).Shaped := by
  unfold State.affChooseStep
  split
  · exact h.call
  · next hc => exact (h.choose hc).call

theorem State.Shaped.pollTest (h : s.Shaped) {k : Nat} : (s.pollTest c k).Shaped := by
  unfold State.pollTest
  split
  · split
    · exact h.call
    · exact h.access.call
  · exact h

theorem State.Shaped.sendNext (h : s.Shaped) {v : Nat} {rest kick : Word} :
    (s.sendNext c v rest kick).Shaped := by
  unfold State.sendNext
  split
  · exact h.call
  · next hc => exact (h.choose hc).call

theorem State.Shaped.sendTest (h : s.Shaped) {v t : Nat} {rest kick : Word} :
    (s.sendTest c v t rest kick).Shaped := by
  unfold State.sendTest
  split <;> exact h.call

theorem State.Shaped.drainTest (h : s.Shaped) : (s.drainTest c).Shaped := by
  unfold State.drainTest
  split
  · exact h
  · exact h.call

theorem State.Shaped.onlineTest (h : s.Shaped) : (s.onlineTest c).Shaped := by
  unfold State.onlineTest
  split
  · exact h
  · exact h.call

/-- Every control step of a composite operation keeps the shape. -/
theorem State.Shaped.seqStep (h : s.Shaped) (m : SeqStep) :
    NextSatisfies State.Shaped (seqStep c m s) := by
  cases m with
  | op i => exact h.exec i
  | ret r => exact h.reply
  | setHwDisabled i v => exact h.access.updLine
  | hwEoiRead i => exact h.access.reply
  | hwEoiTest i => exact .ite h h.writeBank
  | affLock i m => exact h.affLockStep
  | affChoose i m => exact h.affChooseStep
  | affUnlock => exact h.withAffLock.access
  | invoke dom idx => exact h.invoke
  | running dom idx n => exact h.note
  | setFiqDisabled d v => exact h.access.setFiqDisabled
  | fiqEoiRead d => exact h.access.reply
  | fiqEoiTest d => exact .ite h h.access.setArm
  | pollTest k => exact h.pollTest
  | diag code info => exact h.addDiag
  | sendNext v rest kick => exact h.sendNext
  | sendTest v t rest kick => exact h.sendTest
  | sendKick kick => exact .ite h h.execWriteIpiSend
  | recvTake => exact h.call
  | recvBit b => exact h.access.call
  | vipiMaskTest => exact .ite (h.exec (.writeIpiMaskSet ..)) h
  | drainTest => exact h.drainTest
  | trapExit => exact h.note.setFe
  | initLoops => exact h.call
  | setArmed => exact h.withArmed.access
  | onlineTest => exact h.onlineTest

/-! ## The moves -/

theorem State.Shaped.advance (h : s.Shaped) : NextSatisfies State.Shaped (advance c s) := by
  unfold Machine.advance
  split
  · exact h
  · exact h.setSeq.seqStep _

theorem State.Shaped.runPacket (h : s.Shaped) {p : Packet} :
    NextSatisfies State.Shaped (runPacket c p s) := by
  unfold Machine.runPacket
  split
  · exact h.exec _
  · exact h.refuse
  · exact h.refuse
  · trivial

theorem State.Shaped.request (h : s.Shaped) {r : Request} :
    NextSatisfies State.Shaped (request c r s) := by
  cases r with
  | packet p => exact h.runPacket
  | memRead addr => exact h.memRead
  | memWrite addr v => exact h.note
  | handlerReturn => exact h.advance

theorem State.Shaped.fetch (h : s.Shaped) : NextSatisfies State.Shaped (fetch c s) := by
  unfold Machine.fetch
  split
  · exact h.advance
  · exact h.setQueue.request

theorem State.Shaped.coreMove (h : s.Shaped) : NextSatisfies State.Shaped (coreMove c s) := by
  refine .ite ?_ h
  split
  · exact .ite h.takeTrap h.fetch
  · exact h.fetch
  · exact h.advance

theorem State.Shaped.levelInput (h : s.Shaped) {i : Nat} {v : Bool} :
    (s.levelInput i v).Shaped := by
  unfold State.levelInput
  split
  · exact h.note.updLine
  · exact h

theorem State.Shaped.condInput (h : s.Shaped) {k : Nat} {v : Bool} :
    (s.condInput c k v).Shaped := by
  unfold State.condInput
  split
  · exact h.note.updCore fun _ ⟨hcond, harm, hfiq⟩ => ⟨List.length_set.trans hcond, harm, hfiq⟩
  · exact h

theorem State.Shaped.armInput (h : s.Shaped) {k : Nat} {v : Bool} : (s.armInput c k v).Shaped := by
  unfold State.armInput
  split
  · exact h.note.setArm
  · exact h

theorem State.Shaped.acceptInput (h : s.Shaped) {v : Bool} : (s.acceptInput c v).Shaped := by
  unfold State.acceptInput
  split
  · exact h.note.updCore fun _ hk => hk
  · exact h

/-- Every move of a core or of the environment keeps the shape. -/
theorem State.Shaped.move (h : s.Shaped) (m : Mover) : NextSatisfies State.Shaped (move m s) := by
  cases m with
  | core c => exact h.coreMove
  | level i v => exact h.levelInput
  | cond c k v => exact h.condInput
  | arm c k v => exact h.armInput
  | accept c v => exact h.acceptInput
  | devWrite i addr v => exact .ite h.note h

theorem State.Shaped.step (h : s.Shaped) : NextSatisfies State.Shaped (step s) := by
  unfold Machine.step
  split
  · trivial
  · split
    · exact h.withSched.move _
    · exact h.withDraws.move _

/-- Settles O57: each agent's move is made of updates that keep the shape. -/
theorem stepKeepsShape : Obligations.StepKeepsShape := by
  unfold Obligations.StepKeepsShape
  intro s t hs ht
  exact hs.step.of_eq_next ht

end Sys2Proof.Machine
end

section
/-!
PROOF. What a step can do, said once: every operation and every control step is made of a few updates
(`Effect`), but for the steps about `aff_lock` and the end of TRAP (`ControlStep`); a core's move is one of
these after its lists of requests and steps are advanced (`CoreStep`), and the environment's moves change
its inputs (`State.OnlyInputs`).
-/

namespace Sys2Proof

/-- The operation sets bits of a `pending`. -/
def Instr.OrsPending (i : Instr) : Prop := ∃ c t m, i = .vipiPendOr c t m

/-- The operation sets bits of an `enabled`. -/
def Instr.OrsEnabled (i : Instr) : Prop := ∃ c t m, i = .vipiEnOr c t m

end Sys2Proof

namespace Sys2Proof.Machine

open Sys2Proof

/-! ## The updates an operation is made of -/

/-- The entry is an access to ordinary memory. -/
def Event.isMemory : Event → Bool
  | .memWrite _ _ _ | .memRead _ _ _ => true
  | _ => false

/-- The step stands in no region that an invariant counts: it is neither between the taking and the freeing
of `aff_lock` nor the end of TRAP. -/
def SeqStep.plain (m : SeqStep) : Bool := !m.inAffinityRegion && !m.isTrapExit

/-- t is s after updates of Machine/Ops.lean that an operation of core c may make. The CPU-local lists it
changes are its own core's, the steps it adds are plain or those of a TRAP, no line's level changes, and
ordinary memory is not accessed. It sets bits of a `pending` only with `p`, of an `enabled` only with `e`. -/
inductive Effect (c : Nat) (p e : Prop) (s : State) : State → Prop
  | refl : Effect c p e s s
  | note {t : State} {ev : Event} (h : Effect c p e s t) (hev : ev.isMemory = false) :
    Effect c p e s (t.note ev)
  | reply {t : State} {r : Result} (h : Effect c p e s t) : Effect c p e s (t.reply c r)
  | call {t : State} {l : List SeqStep} (h : Effect c p e s t) (hl : l.all SeqStep.plain = true) :
    Effect c p e s (t.call c l)
  | refuse {t : State} {r : RefuseReason} (h : Effect c p e s t) : Effect c p e s (t.refuse r)
  | addDiag {t : State} {code : DiagCode} {info : DiagInfo} (h : Effect c p e s t) :
    Effect c p e s (t.addDiag c code info)
  | withDraws {t : State} {n : Nat} (h : Effect c p e s t) : Effect c p e s (t.withDraws n)
  | withSched {t : State} {l : List Mover} (h : Effect c p e s t) : Effect c p e s (t.withSched l)
  | withArmed {t : State} (h : Effect c p e s t) : Effect c p e s t.withArmed
  | setQueue {t : State} {l : List Request} (h : Effect c p e s t) : Effect c p e s (t.setQueue c l)
  | setBound {t : State} {dom : Dom} {idx n : Nat} (h : Effect c p e s t) :
    Effect c p e s (t.setBound dom idx n)
  | setFlags {t : State} {dom : Dom} {idx : Nat} {v : Word} (h : Effect c p e s t) :
    Effect c p e s (t.setFlags dom idx v)
  | updLine {t : State} {i : Nat} {f : Line → Line} (h : Effect c p e s t)
    (hf : ∀ l, (f l).level = l.level) : Effect c p e s (t.updLine i f)
  | updBank {t : State} {n : Nat} {v : Word} {f : Line → Line} (h : Effect c p e s t)
    (hf : ∀ l, (f l).level = l.level) : Effect c p e s (t.updBank n v f)
  | setArm {t : State} {k : Nat} {v : Bool} (h : Effect c p e s t) : Effect c p e s (t.setArm c k v)
  | setFiqDisabled {t : State} {d : Nat} {v : Bool} (h : Effect c p e s t) :
    Effect c p e s (t.setFiqDisabled c d v)
  | setIpiPend {t : State} {b : IpiBits} (h : Effect c p e s t) : Effect c p e s (t.setIpiPend c b)
  | setIpiMask {t : State} {b : IpiBits} (h : Effect c p e s t) : Effect c p e s (t.setIpiMask c b)
  | sendIpi {t : State} {f : Nat → CoreState → CoreState} (h : Effect c p e s t)
    (hf : ∀ d k, f d k = { k with ipiPend := (f d k).ipiPend }) : Effect c p e s (t.updCores f)
  | setPending {t : State} {d : Nat} {v : Word} (h : Effect c p e s t)
    (hv : ∀ b, v.getLsbD b = true →
      (t.core d).pending.getLsbD b = true ∨ p ∧ b < t.cfg.nrVipi) :
    Effect c p e s (t.setPending d v)
  | setEnabled {t : State} {d : Nat} {v : Word} (h : Effect c p e s t)
    (hv : ∀ b, v.getLsbD b = true → (t.core d).enabled.getLsbD b = true ∨ e) :
    Effect c p e s (t.setEnabled d v)
  | takeTrap {t : State} (h : Effect c p e s t) : Effect c p e s (t.takeTrap c)

/-! ## The shared operations -/

variable {c : Nat} {p e : Prop} {s t : State}

theorem Effect.access (h : Effect c p e s t) {b : Nat} {k : Option AccessKind} {rs ws : List Loc} :
    Effect c p e s (t.access b k rs ws) :=
  h.note rfl

theorem Effect.choose (h : Effect c p e s t) {α : Type} {l : List α} {x : α} {u : State}
    (hc : t.choose l = some (x, u)) : Effect c p e s u := by
  obtain ⟨-, n, rfl⟩ := State.choose_spec hc
  exact h.withDraws

theorem Effect.readDrawn (h : Effect c p e s t) {k : AccessKind} :
    Effect c p e s (t.readDrawn c k) :=
  h.withDraws.access.reply

theorem Effect.writeBank (h : Effect c p e s t) {k : AccessKind} {n : Nat} {v : Word}
    {loc : Nat → Loc} {f : Line → Line} (hf : ∀ l, (f l).level = l.level) :
    Effect c p e s (t.writeBank c k n v loc f) :=
  h.access.updBank hf

theorem Effect.writeSelector (h : Effect c p e s t) {k : AccessKind} {v : Word} {loc : Sel → Loc}
    {f : State → State} (hf : ∀ u, Effect c p e s u → Effect c p e s (f u)) :
    Effect c p e s (t.writeSelector c k v loc f) := by
  unfold State.writeSelector
  split
  · exact h.refuse
  · exact hf _ h.access

theorem Effect.autoMask (h : Effect c p e s t) {ev : EventKind} :
    Effect c p e s (t.autoMask c ev) := by
  cases ev with
  | hw i => exact h.updLine fun _ => rfl
  | ipi sel => exact h.setIpiMask

theorem Effect.readEvent (h : Effect c p e s t) {k : AccessKind} :
    Effect c p e s (t.readEvent c k).2 := by
  by_cases he : t.events c = []
  · rw [readEvent_none k he]
    exact h.access
  · obtain ⟨ev, n, -, hr⟩ := readEvent_some k he
    rw [hr]
    exact (h.withDraws.note rfl).autoMask

theorem Effect.invoke (h : Effect c p e s t) {dom : Dom} {idx : Nat} :
    Effect c p e s (t.invoke c dom idx) := by
  cases hb : t.bound dom idx with
  | none => rwa [invoke_unbound hb]
  | some n =>
    rw [invoke_bound hb]
    exact (h.note rfl).call rfl

/-! ## The operations -/

theorem NextSatisfies.imp {P Q : State → Prop} {o : Out} (h : NextSatisfies P o)
    (hPQ : ∀ t, P t → Q t) : NextSatisfies Q o := by
  cases o with
  | next t => exact hPQ t h
  | fault r => trivial
  | refused r => trivial

theorem Effect.onLine (h : Effect c p e s t) {i : Nat} {l : List SeqStep}
    (hl : l.all SeqStep.plain = true) : NextSatisfies (Effect c p e s) (t.onLine c i l) :=
  .ite (h.call hl) h.reply

theorem Effect.onFiq (h : Effect c p e s t) {d : Nat} {l : List SeqStep}
    (hl : l.all SeqStep.plain = true) : NextSatisfies (Effect c p e s) (t.onFiq c d l) :=
  .ite (h.call hl) h.reply

theorem Effect.onVipi (h : Effect c p e s t) {v : Nat} {l : List SeqStep}
    (hl : l.all SeqStep.plain = true) : NextSatisfies (Effect c p e s) (t.onVipi c v l) :=
  .ite (h.call hl) h.reply

theorem Effect.execWriteIpiSend (h : Effect c p e s t) {k : AccessKind} {v : Word} :
    NextSatisfies (Effect c p e s) (execWriteIpiSend c k v t) := by
  refine .ite h.refuse (h.access.sendIpi fun d st => ?_)
  split <;> rfl

theorem Effect.execVipiEnOr (h : Effect c p e s t) {d : Nat} {m : Word} (he : e) :
    NextSatisfies (Effect c p e s) (execVipiEnOr c d m t) :=
  h.access.setEnabled fun _ _ => .inr he

theorem Effect.execVipiEnAndn (h : Effect c p e s t) {d : Nat} {m : Word} :
    NextSatisfies (Effect c p e s) (execVipiEnAndn c d m t) := by
  refine (h.access.setEnabled fun b hb => .inl ?_).reply
  rw [BitVec.getLsbD_and, Bool.and_eq_true] at hb
  exact hb.1

theorem Effect.execVipiPendOr (h : Effect c p e s t) {d : Nat} {m : Word} (hp : p) :
    NextSatisfies (Effect c p e s) (execVipiPendOr c d m t) := by
  refine h.access.setPending fun b hb => ?_
  rw [BitVec.getLsbD_or, getLsbD_vipiBits, Bool.or_eq_true, Bool.and_eq_true, decide_eq_true_eq] at hb
  exact hb.imp_right fun hm => ⟨hp, hm.1⟩

theorem Effect.execVipiPendXchg0 (h : Effect c p e s t) {d : Nat} :
    NextSatisfies (Effect c p e s) (execVipiPendXchg0 c d t) :=
  (h.access.setPending fun b hb => by simp at hb).reply

theorem Effect.execFiqPoll (h : Effect c p e s t) :
    NextSatisfies (Effect c p e s) (execFiqPoll c t) :=
  .ite (h.call (by simp [SeqStep.plain, SeqStep.inAffinityRegion, SeqStep.isTrapExit])) h

theorem Effect.execFiqDispatch (h : Effect c p e s t) {d : Nat} :
    NextSatisfies (Effect c p e s) (execFiqDispatch c d t) := by
  unfold Machine.execFiqDispatch
  split
  · exact h
  · exact h.access.call rfl

theorem Effect.execHwDispatch (h : Effect c p e s t) {i : Nat} :
    NextSatisfies (Effect c p e s) (execHwDispatch c i t) := by
  refine .ite ?_ h
  split <;> exact h.access.call rfl

theorem Effect.execResolve (h : Effect c p e s t) {kind index : Nat} {flags : Word} :
    NextSatisfies (Effect c p e s) (execResolve c kind index flags t) := by
  unfold Machine.execResolve
  split
  · exact h.reply
  · exact .ite h.access.setFlags.reply h.reply

theorem plain_onlineCause (cfg : Config) (c k : Nat) :
    (onlineCause cfg c k).all SeqStep.plain = true := by
  unfold onlineCause
  split <;> rfl

theorem Effect.execCpuOnline (h : Effect c p e s t) :
    NextSatisfies (Effect c p e s) (execCpuOnline c t) := by
  refine h.call ?_
  rw [List.all_append, List.all_flatMap, Bool.and_eq_true, List.all_eq_true]
  exact ⟨fun k _ => plain_onlineCause t.cfg c k, rfl⟩

/-- Every operation is made of the updates of `Effect`. -/
theorem exec_effect (i : Instr) (s : State) :
    NextSatisfies (Effect i.core i.OrsPending i.OrsEnabled s) (exec i s) := by
  cases i with
  | readInfo c k | readWhoami c k | readTarget c k j => exact Effect.refl.access.reply
  | vipiEnRead c t | fiqReadCause c k => exact Effect.refl.access.reply
  | readEvent c k => exact Effect.refl.readEvent.reply
  | writeInfo c k v | writeWhoami c k v | writeEvent c k v => exact Effect.refl.refuse
  | writeIpiSend c k v => exact Effect.refl.execWriteIpiSend
  | readIpiSend c k | readIpiAck c k | readIpiMaskSet c k | readIpiMaskClr c k =>
    exact Effect.refl.readDrawn
  | readSwSet c k n | readSwClr c k n | readMaskSet c k n | readMaskClr c k n =>
    exact Effect.refl.readDrawn
  | writeIpiAck c k v => exact Effect.refl.writeSelector fun _ hu => hu.setIpiPend
  | writeIpiMaskSet c k v | writeIpiMaskClr c k v =>
    exact Effect.refl.writeSelector fun _ hu => hu.setIpiMask
  | writeTarget c k j v => exact Effect.refl.access.updLine fun _ => rfl
  | writeSwSet c k n v | writeSwClr c k n v | writeMaskSet c k n v | writeMaskClr c k n v =>
    exact Effect.refl.writeBank fun _ => rfl
  | vipiEnOr c t m => exact Effect.refl.execVipiEnOr ⟨c, t, m, rfl⟩
  | vipiEnAndn c t m => exact Effect.refl.execVipiEnAndn
  | vipiPendOr c t m => exact Effect.refl.execVipiPendOr ⟨c, t, m, rfl⟩
  | vipiPendXchg0 c t => exact Effect.refl.execVipiPendXchg0
  | fiqWriteArm c k v => exact Effect.refl.access.setArm
  | fenceW c | fenceR c => exact Effect.refl.note rfl
  | hwDisable c j | hwEnable c j | hwEoi c j | hwSetAffinity c j m => exact Effect.refl.onLine rfl
  | hwDispatch c j => exact Effect.refl.execHwDispatch
  | fiqMask c d | fiqUnmask c d | fiqEoi c d => exact Effect.refl.onFiq rfl
  | fiqPoll c => exact Effect.refl.execFiqPoll
  | silence c k => exact Effect.refl.call rfl
  | fiqDispatch c d => exact Effect.refl.execFiqDispatch
  | vipiSend c v dests => exact .ite (Effect.refl.call rfl) Effect.refl.refuse
  | vipiReceive c | drain c => exact .ite (Effect.refl.call rfl) .refl
  | vipiMask c v | vipiUnmask c v => exact Effect.refl.onVipi rfl
  | trap c => exact Effect.refl.takeTrap
  | classify c ev =>
    exact .ite (Effect.refl.call rfl) (.ite (Effect.refl.call rfl) (Effect.refl.call rfl))
  | resolve c kind index flags => exact Effect.refl.execResolve
  | bind c d idx n => exact Effect.refl.access.setBound
  | init c => exact .ite (Effect.refl.call rfl) Effect.refl.reply
  | cpuOnline c => exact Effect.refl.execCpuOnline

/-! ## The control steps -/

theorem Effect.pollTest (h : Effect c p e s t) {k : Nat} : Effect c p e s (t.pollTest c k) := by
  unfold State.pollTest
  split
  · split
    · exact h.call rfl
    · refine h.access.call ?_
      split <;> rfl
  · exact h

theorem Effect.sendNext (h : Effect c p e s t) {v : Nat} {rest kick : Word} :
    Effect c p e s (t.sendNext c v rest kick) := by
  unfold State.sendNext
  split
  · exact h.call rfl
  · next hc => exact (h.choose hc).call rfl

theorem Effect.sendTest (h : Effect c p e s t) {v d : Nat} {rest kick : Word} :
    Effect c p e s (t.sendTest c v d rest kick) := by
  unfold State.sendTest
  split <;> exact h.call rfl

theorem Effect.recvTake (h : Effect c p e s t) : Effect c p e s (t.recvTake c) :=
  h.call (by simp [SeqStep.plain, SeqStep.inAffinityRegion, SeqStep.isTrapExit])

theorem Effect.recvBit (h : Effect c p e s t) {b : Nat} : Effect c p e s (t.recvBit c b) := by
  refine h.access.call ?_
  split <;> rfl

theorem Effect.drainTest (h : Effect c p e s t) : Effect c p e s (t.drainTest c) := by
  unfold State.drainTest
  split
  · exact h
  · exact h.call rfl

theorem Effect.initLoops (h : Effect c p e s t) : Effect c p e s (t.initLoops c) :=
  h.call (by simp [initSteps, SeqStep.plain, SeqStep.inAffinityRegion, SeqStep.isTrapExit])

theorem Effect.onlineTest (h : Effect c p e s t) : Effect c p e s (t.onlineTest c) := by
  unfold State.onlineTest
  split
  · exact h
  · exact h.call rfl

/-- What the control step m of core c makes of s: the effect of an operation or of core c, or one of the
steps of HW_SET_AFFINITY about `aff_lock`, or the end of TRAP. -/
inductive ControlStep (c : Nat) : SeqStep → State → State → Prop
  | operation {i : Instr} {s t : State} (h : Effect i.core i.OrsPending i.OrsEnabled s t) :
    ControlStep c (.op i) s t
  | plain {m : SeqStep} {s t : State} (hm : m.plain = true) (h : Effect c False False s t) :
    ControlStep c m s t
  | takeLock {i : Nat} {w : Word} {s : State} (hfree : s.affLock = none) :
    ControlStep c (.affLock i w) s
      (((s.withAffLock (some c)).access c none [.affLock] [.affLock]).call c [.affChoose i w])
  | choose {i n : Nat} {w : Word} {m : SeqStep} {r : Result} {s : State} (hm : m.plain = true) :
    ControlStep c (.affChoose i w) s ((s.withDraws n).call c [m, .affUnlock, .ret r])
  | chooseNone {i : Nat} {w : Word} {s : State} :
    ControlStep c (.affChoose i w) s (s.call c [.affUnlock, .ret (.err .affinity)])
  | freeLock {s : State} : ControlStep c .affUnlock s (s.affUnlockStep c)
  | trapReturn {s : State} : ControlStep c .trapExit s (s.trapReturn c)

theorem affLockStep_control (c i : Nat) (w : Word) (s : State) :
    ControlStep c (.affLock i w) s (s.affLockStep c i w) := by
  unfold State.affLockStep
  split
  · next hfree => exact .takeLock hfree
  · exact .plain rfl (Effect.refl.call rfl)

theorem affChooseStep_control (c i : Nat) (w : Word) (s : State) :
    ControlStep c (.affChoose i w) s (s.affChooseStep c i w) := by
  unfold State.affChooseStep
  split
  · exact .chooseNone
  · next hc =>
    obtain ⟨-, n, rfl⟩ := State.choose_spec hc
    exact .choose rfl

/-- Every control step is one of those of `ControlStep`. -/
theorem seqStep_control (c : Nat) (m : SeqStep) (s : State) :
    NextSatisfies (ControlStep c m s) (seqStep c m s) := by
  cases m with
  | op i => exact (exec_effect i s).imp fun _ h => .operation h
  | affLock i w => exact affLockStep_control c i w s
  | affChoose i w => exact affChooseStep_control c i w s
  | affUnlock => exact .freeLock
  | trapExit => exact .trapReturn
  | ret r => exact .plain rfl Effect.refl.reply
  | setHwDisabled i v => exact .plain rfl (Effect.refl.access.updLine fun _ => rfl)
  | hwEoiRead i | fiqEoiRead d => exact .plain rfl Effect.refl.access.reply
  | hwEoiTest i =>
    exact .ite (.plain rfl .refl) (.plain rfl (Effect.refl.writeBank fun _ => rfl))
  | invoke dom idx => exact .plain rfl Effect.refl.invoke
  | running dom idx n => exact .plain rfl (Effect.refl.note rfl)
  | setFiqDisabled d v => exact .plain rfl Effect.refl.access.setFiqDisabled
  | fiqEoiTest d => exact .ite (.plain rfl .refl) (.plain rfl Effect.refl.access.setArm)
  | pollTest k => exact .plain rfl Effect.refl.pollTest
  | diag code info => exact .plain rfl Effect.refl.addDiag
  | sendNext v rest kick => exact .plain rfl Effect.refl.sendNext
  | sendTest v d rest kick => exact .plain rfl Effect.refl.sendTest
  | sendKick kick =>
    exact .ite (.plain rfl .refl) (Effect.refl.execWriteIpiSend.imp fun _ h => .plain rfl h)
  | recvTake => exact .plain rfl Effect.refl.recvTake
  | recvBit b => exact .plain rfl Effect.refl.recvBit
  | vipiMaskTest =>
    exact .ite (.plain rfl (Effect.refl.writeSelector fun _ hu => hu.setIpiMask)) (.plain rfl .refl)
  | drainTest => exact .plain rfl Effect.refl.drainTest
  | initLoops => exact .plain rfl Effect.refl.initLoops
  | setArmed => exact .plain rfl Effect.refl.withArmed.access
  | onlineTest => exact .plain rfl Effect.refl.onlineTest

/-! ## The moves -/

/-- What a move of core c makes of s, its next request or step taken off its list first. -/
inductive CoreStep (c : Nat) (s : State) : State → Prop
  | effect {t : State} (h : Effect c False False s t) : CoreStep c s t
  | operation {i : Instr} {u t : State} (hu : Effect c False False s u)
    (h : Effect i.core i.OrsPending i.OrsEnabled u t) : CoreStep c s t
  | memRead {u : State} {addr : Nat} (hu : Effect c False False s u) : CoreStep c s (u.memRead c addr)
  | memWrite {u : State} {addr : Nat} {v : Byte} (hu : Effect c False False s u) :
    CoreStep c s (u.memWrite (.core c) addr v)
  | control {m : SeqStep} {rest : List SeqStep} {u t : State} (hu : Effect c False False s u)
    (hseq : (u.core c).seq = m :: rest) (h : ControlStep c m (u.setSeq c rest) t) : CoreStep c s t

theorem advance_coreStep (h : Effect c False False s t) :
    NextSatisfies (CoreStep c s) (advance c t) := by
  unfold Machine.advance
  split
  · exact .effect h
  · next hseq => exact (seqStep_control c _ _).imp fun _ hm => .control h hseq hm

theorem runPacket_coreStep (h : Effect c False False s t) (q : Packet) :
    NextSatisfies (CoreStep c s) (runPacket c q t) := by
  unfold Machine.runPacket
  split
  · exact (exec_effect _ t).imp fun _ hi => .operation h hi
  · exact .effect h.refuse
  · exact .effect h.refuse
  · trivial

theorem fetch_coreStep (h : Effect c False False s t) : NextSatisfies (CoreStep c s) (fetch c t) := by
  unfold Machine.fetch
  split
  · exact advance_coreStep h
  · next r rest _ =>
    cases r with
    | packet q => exact runPacket_coreStep h.setQueue q
    | memRead addr => exact .memRead h.setQueue
    | memWrite addr v => exact .memWrite h.setQueue
    | handlerReturn => exact advance_coreStep h.setQueue

theorem coreMove_coreStep (h : Effect c False False s t) :
    NextSatisfies (CoreStep c s) (coreMove c t) := by
  refine .ite ?_ (.effect h)
  split
  · exact .ite (.effect h.takeTrap) (fetch_coreStep h)
  · exact fetch_coreStep h
  · exact advance_coreStep h

/-- t is s with inputs of the environment changed, and the model's own records and inputs. -/
def State.OnlyInputs (s t : State) : Prop :=
  (∃ l, t = { s with
    lines := t.lines, cores := t.cores, trace := s.trace ++ l, draws := t.draws, sched := t.sched }) ∧
  ∀ d, t.core d = { s.core d with
    cond := (t.core d).cond, arm := (t.core d).arm, accepts := (t.core d).accepts }

theorem State.onlyInputs_withSched (s : State) (l : List Mover) : s.OnlyInputs (s.withSched l) :=
  ⟨⟨[], by simp [State.withSched]⟩, fun _ => rfl⟩

theorem State.onlyInputs_withDraws (s : State) (n : Nat) : s.OnlyInputs (s.withDraws n) :=
  ⟨⟨[], by simp [State.withDraws]⟩, fun _ => rfl⟩

theorem State.OnlyInputs.note (h : s.OnlyInputs t) {ev : Event} : s.OnlyInputs (t.note ev) := by
  obtain ⟨⟨l, hl⟩, hcore⟩ := h
  refine ⟨⟨l ++ [ev], ?_⟩, hcore⟩
  rw [hl]
  simp [State.note]

theorem State.OnlyInputs.updLine (h : s.OnlyInputs t) {i : Nat} {f : Line → Line} :
    s.OnlyInputs (t.updLine i f) := by
  obtain ⟨⟨l, hl⟩, hcore⟩ := h
  exact ⟨⟨l, by rw [hl]; rfl⟩, hcore⟩

theorem State.OnlyInputs.updCore (h : s.OnlyInputs t) {f : CoreState → CoreState}
    (hf : ∀ k, f k = { k with cond := (f k).cond, arm := (f k).arm, accepts := (f k).accepts }) :
    s.OnlyInputs (t.updCore c f) := by
  obtain ⟨⟨l, hl⟩, hcore⟩ := h
  refine ⟨⟨l, by rw [hl]; rfl⟩, fun d => ?_⟩
  rw [State.updCore_core]
  split
  · rw [hf, hcore d]
  · exact hcore d

/-- What one step makes of s: the move of a core, or a change of inputs by the environment. -/
inductive MachineStep (s t : State) : Prop
  | core (c : Nat) (h : CoreStep c s t)
  | input (h : s.OnlyInputs t)

theorem levelInput_onlyInputs (h : s.OnlyInputs t) (i : Nat) (v : Bool) :
    s.OnlyInputs (t.levelInput i v) := by
  unfold State.levelInput
  split
  · exact h.note.updLine
  · exact h

theorem condInput_onlyInputs (h : s.OnlyInputs t) (c k : Nat) (v : Bool) :
    s.OnlyInputs (t.condInput c k v) := by
  unfold State.condInput
  split
  · exact h.note.updCore fun _ => rfl
  · exact h

theorem armInput_onlyInputs (h : s.OnlyInputs t) (c k : Nat) (v : Bool) :
    s.OnlyInputs (t.armInput c k v) := by
  unfold State.armInput
  split
  · exact h.note.updCore fun _ => rfl
  · exact h

theorem acceptInput_onlyInputs (h : s.OnlyInputs t) (c : Nat) (v : Bool) :
    s.OnlyInputs (t.acceptInput c v) := by
  unfold State.acceptInput
  split
  · exact h.note.updCore fun _ => rfl
  · exact h

/-- What the mover m makes of u, which is s but for the movers to come and the count of draws. -/
theorem move_machineStep {u : State} (he : ∀ c, Effect c False False s u) (hi : s.OnlyInputs u)
    (m : Mover) : NextSatisfies (MachineStep s) (move m u) := by
  cases m with
  | core c => exact (coreMove_coreStep (he c)).imp fun _ h => .core c h
  | level i v => exact .input (levelInput_onlyInputs hi i v)
  | cond c k v => exact .input (condInput_onlyInputs hi c k v)
  | arm c k v => exact .input (armInput_onlyInputs hi c k v)
  | accept c v => exact .input (acceptInput_onlyInputs hi c v)
  | devWrite i addr v => exact .ite (.input hi.note) (.input hi)

/-- Every step is one of those of `MachineStep`. -/
theorem step_machineStep (h : step s = .next t) : MachineStep s t := by
  refine NextSatisfies.of_eq_next ?_ h
  unfold Machine.step
  split
  · trivial
  · split
    · exact move_machineStep (fun _ => Effect.refl.withSched) (s.onlyInputs_withSched _) _
    · exact move_machineStep (fun _ => Effect.refl.withDraws) (s.onlyInputs_withDraws _) _

/-- With core c the next to move, a step is a move of core c. -/
theorem step_coreStep {movers : List Mover} (hs : s.sched = .core c :: movers)
    (h : step s = .next t) : CoreStep c s t := by
  refine NextSatisfies.of_eq_next ?_ h
  unfold Machine.step
  split
  · trivial
  · rw [hs]
    exact coreMove_coreStep Effect.refl.withSched

/-! ## Trap entry and a read of ordinary memory, as updates -/

/-- TRAP that may not start changes nothing; one that starts adds its steps, the last its end. -/
theorem takeTrap_eq (s : State) (c : Nat) : s.takeTrap c = s ∨
    ∃ n l, l.all SeqStep.plain = true ∧ s.takeTrap c =
      (((s.withDraws n).note (.trapEntry c)).setFe c .draining).call c (l ++ [.trapExit]) := by
  cases ha : s.trapAdmitted c with
  | false => exact .inl (takeTrap_not_admitted ha)
  | true =>
    obtain ⟨l, n, hl, ht⟩ := takeTrap_admitted ha
    exact .inr ⟨n, l, by rcases hl with rfl | rfl <;> rfl, ht⟩

/-- A read of ordinary memory is recorded and answered. -/
theorem memRead_eq (s : State) (c addr : Nat) : ∃ n src v,
    s.memRead c addr = ((s.withDraws n).note (.memRead c addr src)).reply c (.byte v) := by
  obtain ⟨src, n, hc, -⟩ := s.choose_of_ne (memSources_ne_nil s.trace c addr (s.handlerLine c))
  exact ⟨n, src, _, by rw [State.memRead, hc]⟩

/-- A core with a step to perform is one of the machine's. -/
theorem core_lt_of_seq {m : SeqStep} {rest : List SeqStep} (h : (s.core c).seq = m :: rest) :
    c < s.cores.length := by
  by_contra hc
  rw [State.core_def, List.getD_eq_default _ _ (Nat.not_lt.1 hc)] at h
  exact nomatch h

end Sys2Proof.Machine
end

section
/-!
PROOF. `aff_lock` is a mutual exclusion: what an operation does outside the region of HW_SET_AFFINITY
changes neither the lock nor how often a core stands in the region, and the steps of the region move both
together.
-/

namespace Sys2Proof.Machine

open Sys2Proof

/-- How many of core c's steps stand between the taking and the freeing of `aff_lock`. -/
def State.regionCount (s : State) (c : Nat) : Nat :=
  (s.core c).seq.countP SeqStep.inAffinityRegion

/-- The lock, and each core's place in its region, are the same in both states. -/
def State.SameRegion (s t : State) : Prop :=
  t.affLock = s.affLock ∧ ∀ d, t.regionCount d = s.regionCount d

variable {c : Nat} {p e : Prop} {s t u : State}

theorem State.LockHeldByRegion.of_sameRegion (hs : s.LockHeldByRegion) (h : s.SameRegion t) :
    t.LockHeldByRegion := by
  intro d
  rw [h.1]
  exact (h.2 d).trans (hs d)

/-- The steps a core is given count on top of those it has. -/
theorem regionCount_call (hc : c < s.cores.length) (l : List SeqStep) (d : Nat) :
    (s.call c l).regionCount d =
      s.regionCount d + if d = c then l.countP SeqStep.inAffinityRegion else 0 := by
  unfold State.regionCount
  by_cases hd : d = c
  · subst hd
    rw [State.call_core_self s d l hc, List.countP_append, if_pos rfl, Nat.add_comm]
  · simp [State.call_core, Ne.symm hd, hd]

/-- The step a core performs next counts until it is taken off. -/
theorem regionCount_setSeq {m : SeqStep} {rest : List SeqStep} (hseq : (s.core c).seq = m :: rest)
    (d : Nat) : s.regionCount d = (s.setSeq c rest).regionCount d +
      if d = c ∧ m.inAffinityRegion = true then 1 else 0 := by
  unfold State.regionCount
  by_cases hd : d = c
  · subst hd
    simp [State.setSeq_core_self s d rest (core_lt_of_seq hseq), hseq, List.countP_cons]
  · simp [State.setSeq_core, Ne.symm hd, hd]

theorem outside_of_plain {m : SeqStep} (hm : m.plain = true) : m.inAffinityRegion = false := by
  rw [SeqStep.plain, Bool.and_eq_true, Bool.not_eq_true'] at hm
  exact hm.1

theorem countP_region_of_plain {l : List SeqStep} (hl : l.all SeqStep.plain = true) :
    l.countP SeqStep.inAffinityRegion = 0 := by
  rw [List.countP_eq_zero]
  intro m hm
  rw [outside_of_plain (List.all_eq_true.1 hl m hm)]
  exact Bool.false_ne_true

/-- Steps outside the region change no count, on a core that is there or not. -/
theorem regionCount_call_outside (s : State) (c d : Nat) {l : List SeqStep}
    (hl : l.countP SeqStep.inAffinityRegion = 0) : (s.call c l).regionCount d = s.regionCount d := by
  unfold State.regionCount
  rw [State.call_core]
  split
  · rw [List.countP_append, hl, Nat.zero_add]
  · rfl

theorem State.SameRegion.of_seq (h : s.SameRegion t) (hlock : u.affLock = t.affLock)
    (hseq : ∀ d, (u.core d).seq = (t.core d).seq) : s.SameRegion u :=
  ⟨hlock.trans h.1, fun d => (congrArg _ (hseq d)).trans (h.2 d)⟩

theorem State.SameRegion.call (h : s.SameRegion t) {l : List SeqStep}
    (hl : l.countP SeqStep.inAffinityRegion = 0) : s.SameRegion (t.call c l) :=
  ⟨h.1, fun d => (regionCount_call_outside t c d hl).trans (h.2 d)⟩

theorem State.SameRegion.takeTrap (h : s.SameRegion t) : s.SameRegion (t.takeTrap c) := by
  rcases takeTrap_eq t c with ht | ⟨n, l, hl, ht⟩
  · rwa [ht]
  · have hfe : s.SameRegion (((t.withDraws n).note (.trapEntry c)).setFe c .draining) :=
      h.of_seq rfl (by simp)
    rw [ht]
    refine hfe.call ?_
    rw [List.countP_append, countP_region_of_plain hl]
    rfl

theorem State.SameRegion.sendIpi (h : s.SameRegion t) {f : Nat → CoreState → CoreState}
    (hf : ∀ d k, f d k = { k with ipiPend := (f d k).ipiPend }) : s.SameRegion (t.updCores f) := by
  refine h.of_seq rfl fun d => ?_
  rw [State.updCores_core]
  split
  · rw [hf]
  · rfl

/-- An operation's updates leave the lock and its region as they are. -/
theorem Effect.sameRegion (h : Effect c p e u t) (hu : s.SameRegion u) : s.SameRegion t := by
  induction h with
  | refl => exact hu
  | note _ _ ih | refuse _ ih | addDiag _ ih | withDraws _ ih | withSched _ ih | withArmed _ ih
  | updLine _ _ ih | updBank _ _ ih => exact ih
  | reply _ ih | setQueue _ ih | setBound _ ih | setFlags _ ih | setArm _ ih | setFiqDisabled _ ih
  | setIpiPend _ ih | setIpiMask _ ih | setPending _ _ ih | setEnabled _ _ ih =>
    exact ih.of_seq (by simp) (by simp)
  | call _ hl ih => exact ih.call (countP_region_of_plain hl)
  | sendIpi _ hf ih => exact ih.sendIpi hf
  | takeTrap _ ih => exact ih.takeTrap

theorem memRead_sameRegion (s : State) (c addr : Nat) : s.SameRegion (s.memRead c addr) := by
  obtain ⟨n, src, v, hr⟩ := memRead_eq s c addr
  rw [hr]
  exact .of_seq ⟨rfl, fun _ => rfl⟩ rfl (by simp)

theorem State.OnlyInputs.sameRegion (h : s.OnlyInputs t) : s.SameRegion t := by
  obtain ⟨⟨l, hl⟩, hcore⟩ := h
  exact .of_seq ⟨rfl, fun _ => rfl⟩ (by rw [hl]) fun d => by rw [hcore d]

/-- A step outside the region, taken off and performed, leaves the lock and its region as they are. -/
theorem sameRegion_of_outside {m : SeqStep} {rest : List SeqStep} (hseq : (s.core c).seq = m :: rest)
    (hm : m.inAffinityRegion = false) (h : (s.setSeq c rest).SameRegion t) : s.SameRegion t := by
  refine ⟨h.1, fun d => (h.2 d).trans ?_⟩
  rw [regionCount_setSeq hseq d]
  simp [hm]

/-- A step of the region, replaced by steps of which one stands in the region, leaves the region as it
is. -/
theorem sameRegion_of_replace {m : SeqStep} {rest l : List SeqStep} (hseq : (s.core c).seq = m :: rest)
    (hm : m.inAffinityRegion = true) (hl : l.countP SeqStep.inAffinityRegion = 1) :
    s.SameRegion ((s.setSeq c rest).call c l) := by
  refine ⟨rfl, fun d => ?_⟩
  rw [regionCount_call (by simpa using core_lt_of_seq hseq), regionCount_setSeq hseq d, hl]
  simp [hm]

/-- The free lock is taken by the core that enters the region. -/
theorem takeLock_keeps_lockHeld {i : Nat} {w : Word} {rest : List SeqStep} (hs : s.LockHeldByRegion)
    (hseq : (s.core c).seq = .affLock i w :: rest) (hfree : s.affLock = none) :
    ((((s.setSeq c rest).withAffLock (some c)).access c none [.affLock] [.affLock]).call c
      [.affChoose i w]).LockHeldByRegion := by
  have hempty : ∀ d, (s.setSeq c rest).regionCount d = 0 := fun d => by
    have hd : s.regionCount d = _ := hs d
    rw [regionCount_setSeq hseq d, hfree] at hd
    simpa [SeqStep.inAffinityRegion] using hd
  intro d
  refine (regionCount_call (by simpa using core_lt_of_seq hseq) _ d).trans ?_
  refine (congrArg (· + _) (hempty d)).trans ?_
  simp [SeqStep.inAffinityRegion, eq_comm]

/-- The core that frees the lock is the one that held it, and leaves the region. -/
theorem freeLock_keeps_lockHeld {rest : List SeqStep} (hs : s.LockHeldByRegion)
    (hseq : (s.core c).seq = .affUnlock :: rest) :
    ((s.setSeq c rest).affUnlockStep c).LockHeldByRegion := by
  have hcount : ∀ d, (s.setSeq c rest).regionCount d + (if d = c then 1 else 0) =
      if s.affLock = some d then 1 else 0 := fun d => by
    rw [← show s.regionCount d = _ from hs d, regionCount_setSeq hseq d]
    simp [SeqStep.inAffinityRegion]
  have hheld : s.affLock = some c := by
    by_contra hne
    have := hcount c
    rw [if_pos rfl, if_neg hne] at this
    omega
  intro d
  show (s.setSeq c rest).regionCount d = 0
  have hd := hcount d
  rw [hheld] at hd
  by_cases hdc : d = c
  · subst hdc
    simpa using hd
  · simpa [hdc, Ne.symm hdc] using hd

/-- Core c takes its next step off and performs it. -/
theorem ControlStep.keeps_lockHeld {m : SeqStep} {rest : List SeqStep} (hs : s.LockHeldByRegion)
    (hseq : (s.core c).seq = m :: rest) (h : ControlStep c m (s.setSeq c rest) t) :
    t.LockHeldByRegion := by
  have hrefl : (s.setSeq c rest).SameRegion (s.setSeq c rest) := ⟨rfl, fun _ => rfl⟩
  cases h with
  | operation h => exact hs.of_sameRegion (sameRegion_of_outside hseq rfl (h.sameRegion hrefl))
  | plain hm h =>
    exact hs.of_sameRegion (sameRegion_of_outside hseq (outside_of_plain hm) (h.sameRegion hrefl))
  | takeLock hfree => exact takeLock_keeps_lockHeld hs hseq hfree
  | @choose _ _ _ m' r _ hm =>
    have hone : [m', .affUnlock, .ret r].countP SeqStep.inAffinityRegion = 1 := by
      rw [List.countP_cons, outside_of_plain hm]
      rfl
    exact hs.of_sameRegion (sameRegion_of_replace hseq rfl hone)
  | chooseNone => exact hs.of_sameRegion (sameRegion_of_replace hseq rfl rfl)
  | freeLock => exact freeLock_keeps_lockHeld hs hseq
  | trapReturn =>
    refine hs.of_sameRegion (sameRegion_of_outside hseq rfl (hrefl.of_seq rfl fun d => ?_))
    simp [State.trapReturn]

/-- Every move of a core keeps `aff_lock` held by the core in its region. -/
theorem CoreStep.keeps_lockHeld (h : CoreStep c s t) (hs : s.LockHeldByRegion) :
    t.LockHeldByRegion := by
  have hrefl : s.SameRegion s := ⟨rfl, fun _ => rfl⟩
  cases h with
  | effect h => exact hs.of_sameRegion (h.sameRegion hrefl)
  | operation hu h => exact hs.of_sameRegion (h.sameRegion (hu.sameRegion hrefl))
  | memRead hu => exact (hs.of_sameRegion (hu.sameRegion hrefl)).of_sameRegion (memRead_sameRegion ..)
  | memWrite hu => exact hs.of_sameRegion (hu.sameRegion hrefl)
  | control hu hseq h => exact h.keeps_lockHeld (hs.of_sameRegion (hu.sameRegion hrefl)) hseq

/-- Settles O58: only the steps of HW_SET_AFFINITY move the lock, and each moves its core's place with it. -/
theorem stepKeepsAffinityExclusion : Obligations.StepKeepsAffinityExclusion := by
  unfold Obligations.StepKeepsAffinityExclusion
  intro s t hs ht
  cases step_machineStep ht with
  | core c h => exact h.keeps_lockHeld hs
  | input h => exact hs.of_sameRegion h.sameRegion

end Sys2Proof.Machine
end

section
/-!
PROOF. Whole-machine rules, each from what a step can do: the inputs change only by the environment, the
records only grow, and only the OR ports set vIPI bits.
-/

namespace Sys2Proof.Machine

open Sys2Proof

variable {c : Nat} {p e : Prop} {s t u : State}

/-! ## Inputs -/

/-- No level, no condition and no core's acceptance of interrupts differs. -/
def State.SameInputs (s t : State) : Prop :=
  (∀ i, (t.line i).level = (s.line i).level) ∧
  ∀ d, (t.core d).cond = (s.core d).cond ∧ (t.core d).accepts = (s.core d).accepts

theorem State.SameInputs.refl (s : State) : s.SameInputs s := ⟨fun _ => rfl, fun _ => ⟨rfl, rfl⟩⟩

theorem State.SameInputs.of_cores (h : s.SameInputs t) (hlines : u.lines = t.lines)
    (hcores : ∀ d, (u.core d).cond = (t.core d).cond ∧ (u.core d).accepts = (t.core d).accepts) :
    s.SameInputs u := by
  refine ⟨fun i => ?_, fun d => ⟨(hcores d).1.trans (h.2 d).1, (hcores d).2.trans (h.2 d).2⟩⟩
  rw [State.line_def, hlines]
  exact h.1 i

theorem State.SameInputs.updLine (h : s.SameInputs t) {i : Nat} {f : Line → Line}
    (hf : ∀ l, (f l).level = l.level) : s.SameInputs (t.updLine i f) := by
  refine ⟨fun j => ?_, h.2⟩
  rw [← h.1 j, State.updLine_line]
  split
  · exact hf _
  · rfl

theorem State.SameInputs.updBank (h : s.SameInputs t) {n : Nat} {v : Word} {f : Line → Line}
    (hf : ∀ l, (f l).level = l.level) : s.SameInputs (t.updBank n v f) := by
  refine ⟨fun j => ?_, h.2⟩
  rw [← h.1 j, State.updBank_line]
  split
  · exact hf _
  · rfl

theorem State.SameInputs.sendIpi (h : s.SameInputs t) {f : Nat → CoreState → CoreState}
    (hf : ∀ d k, f d k = { k with ipiPend := (f d k).ipiPend }) : s.SameInputs (t.updCores f) := by
  refine h.of_cores rfl fun d => ?_
  rw [State.updCores_core]
  split
  · rw [hf]
    exact ⟨rfl, rfl⟩
  · exact ⟨rfl, rfl⟩

theorem State.SameInputs.takeTrap (h : s.SameInputs t) : s.SameInputs (t.takeTrap c) := by
  rcases takeTrap_eq t c with ht | ⟨n, l, -, ht⟩
  · rwa [ht]
  · rw [ht]
    exact h.of_cores rfl (by simp)

/-- An operation's updates change no input. -/
theorem Effect.sameInputs (h : Effect c p e u t) (hu : s.SameInputs u) : s.SameInputs t := by
  induction h with
  | refl => exact hu
  | note _ _ ih | refuse _ ih | addDiag _ ih | withDraws _ ih | withSched _ ih | withArmed _ ih =>
    exact ih
  | reply _ ih | call _ _ ih | setQueue _ ih | setBound _ ih | setFlags _ ih | setArm _ ih
  | setFiqDisabled _ ih | setIpiPend _ ih | setIpiMask _ ih | setPending _ _ ih
  | setEnabled _ _ ih => exact ih.of_cores (by simp) (by simp)
  | updLine _ hf ih => exact ih.updLine hf
  | updBank _ hf ih => exact ih.updBank hf
  | sendIpi _ hf ih => exact ih.sendIpi hf
  | takeTrap _ ih => exact ih.takeTrap

theorem ControlStep.sameInputs {m : SeqStep} (h : ControlStep c m u t) (hu : s.SameInputs u) :
    s.SameInputs t := by
  cases h with
  | operation h | plain _ h => exact h.sameInputs hu
  | takeLock | choose | chooseNone | freeLock => exact hu.of_cores rfl (by simp [State.affUnlockStep])
  | trapReturn => exact hu.of_cores rfl (by simp [State.trapReturn])

theorem CoreStep.sameInputs (h : CoreStep c s t) : s.SameInputs t := by
  cases h with
  | effect h => exact h.sameInputs (.refl s)
  | operation hu h => exact h.sameInputs (hu.sameInputs (.refl s))
  | @memRead u addr hu =>
    obtain ⟨n, src, v, hr⟩ := memRead_eq u c addr
    rw [hr]
    exact (hu.sameInputs (.refl s)).of_cores rfl (by simp)
  | memWrite hu => exact hu.sameInputs (.refl s)
  | control hu _ h => exact h.sameInputs ((hu.sameInputs (.refl s)).of_cores rfl (by simp))

/-- Settles O52: a move of a core is made of updates none of which changes an input. -/
theorem onlyTheEnvironmentChangesInputs : Obligations.OnlyTheEnvironmentChangesInputs := by
  unfold Obligations.OnlyTheEnvironmentChangesInputs
  intro s t c movers hs ht
  exact (step_coreStep hs ht).sameInputs

/-! ## Records -/

/-- From s to t no diagnostic, handler or entry of the total order is lost, and no parameter changed. -/
def State.RecordsGrow (s t : State) : Prop :=
  t.cfg = s.cfg ∧ (∃ l, t.diag = s.diag ++ l) ∧ (∃ l, t.trace = s.trace ++ l) ∧
  ∀ dom idx, s.bound dom idx ≠ none → t.bound dom idx ≠ none

theorem State.RecordsGrow.refl (s : State) : s.RecordsGrow s :=
  ⟨rfl, ⟨[], (List.append_nil _).symm⟩, ⟨[], (List.append_nil _).symm⟩, fun _ _ h => h⟩

theorem State.RecordsGrow.note (h : s.RecordsGrow t) {ev : Event} : s.RecordsGrow (t.note ev) := by
  obtain ⟨hcfg, hdiag, ⟨l, hl⟩, hbound⟩ := h
  exact ⟨hcfg, hdiag, ⟨l ++ [ev], by rw [State.note_trace, hl, List.append_assoc]⟩, hbound⟩

theorem State.RecordsGrow.addDiag (h : s.RecordsGrow t) {code : DiagCode} {info : DiagInfo} :
    s.RecordsGrow (t.addDiag c code info) := by
  obtain ⟨hcfg, ⟨l, hl⟩, htrace, hbound⟩ := h.note (ev := .access c none [] [.diag])
  refine ⟨hcfg, ⟨l ++ [⟨c, code, info⟩], ?_⟩, htrace, hbound⟩
  rw [← List.append_assoc, ← hl]
  rfl

theorem getD_set_some_ne_none {l : List (Option Nat)} {i : Nat} (j n : Nat)
    (h : l.getD i none ≠ none) : (l.set j (some n)).getD i none ≠ none := by
  have hi : i < l.length := by
    by_contra hge
    exact h (List.getD_eq_default _ _ (Nat.not_lt.1 hge))
  rw [List.getD_eq_getElem _ _ (by simpa using hi), List.getElem_set]
  split
  · exact Option.some_ne_none n
  · rwa [List.getD_eq_getElem _ _ hi] at h

/-- Binding a line unbinds none. -/
theorem setBound_bound_ne_none {dom : Dom} {idx : Nat} (dom' : Dom) (idx' n : Nat)
    (h : s.bound dom idx ≠ none) : (s.setBound dom' idx' n).bound dom idx ≠ none := by
  by_cases hdom : dom' = dom
  · subst hdom
    cases dom' <;> exact getD_set_some_ne_none idx' n h
  · rwa [State.setBound_bound_other s n (fun hsame => hdom hsame.1)]

theorem State.RecordsGrow.setBound (h : s.RecordsGrow t) {dom : Dom} {idx n : Nat} :
    s.RecordsGrow (t.setBound dom idx n) := by
  obtain ⟨hcfg, hdiag, htrace, hbound⟩ := h
  exact ⟨by simpa, by simpa, by simpa, fun d i hb => setBound_bound_ne_none dom idx n (hbound d i hb)⟩

theorem State.RecordsGrow.setFlags (h : s.RecordsGrow t) {dom : Dom} {idx : Nat} {v : Word} :
    s.RecordsGrow (t.setFlags dom idx v) := by
  obtain ⟨hcfg, hdiag, htrace, hbound⟩ := h
  exact ⟨by simpa, by simpa, by simpa, fun d i hb => by simpa using hbound d i hb⟩

theorem State.RecordsGrow.takeTrap (h : s.RecordsGrow t) : s.RecordsGrow (t.takeTrap c) := by
  rcases takeTrap_eq t c with ht | ⟨n, l, -, ht⟩
  · rwa [ht]
  · rw [ht]
    exact h.note

/-- An operation's updates lose no record. -/
theorem Effect.recordsGrow (h : Effect c p e u t) (hu : s.RecordsGrow u) : s.RecordsGrow t := by
  induction h with
  | refl => exact hu
  | refuse _ ih | withDraws _ ih | withSched _ ih | withArmed _ ih | reply _ ih | call _ _ ih
  | setQueue _ ih | setArm _ ih | setFiqDisabled _ ih | setIpiPend _ ih | setIpiMask _ ih
  | setPending _ _ ih | setEnabled _ _ ih | updLine _ _ ih | updBank _ _ ih | sendIpi _ _ ih =>
    exact ih
  | note _ _ ih => exact ih.note
  | addDiag _ ih => exact ih.addDiag
  | setBound _ ih => exact ih.setBound
  | setFlags _ ih => exact ih.setFlags
  | takeTrap _ ih => exact ih.takeTrap

theorem ControlStep.recordsGrow {m : SeqStep} (h : ControlStep c m u t) (hu : s.RecordsGrow u) :
    s.RecordsGrow t := by
  cases h with
  | operation h | plain _ h => exact h.recordsGrow hu
  | takeLock | freeLock | trapReturn => exact hu.note
  | choose | chooseNone => exact hu

theorem CoreStep.recordsGrow (h : CoreStep c s t) : s.RecordsGrow t := by
  cases h with
  | effect h => exact h.recordsGrow (.refl s)
  | operation hu h => exact h.recordsGrow (hu.recordsGrow (.refl s))
  | @memRead u addr hu =>
    obtain ⟨n, src, v, hr⟩ := memRead_eq u c addr
    rw [hr]
    exact (hu.recordsGrow (.refl s)).note
  | memWrite hu => exact (hu.recordsGrow (.refl s)).note
  | control hu _ h => exact h.recordsGrow (hu.recordsGrow (.refl s))

theorem State.OnlyInputs.recordsGrow (h : s.OnlyInputs t) : s.RecordsGrow t := by
  obtain ⟨⟨l, hl⟩, -⟩ := h
  rw [hl]
  exact ⟨rfl, ⟨[], (List.append_nil _).symm⟩, ⟨l, rfl⟩, fun _ _ hb => hb⟩

/-- Settles O53: every update keeps the records, and every step is made of updates. -/
theorem recordsOnlyGrow : Obligations.RecordsOnlyGrow := by
  unfold Obligations.RecordsOnlyGrow
  intro s t ht
  cases step_machineStep ht with
  | core c h => exact h.recordsGrow
  | input h => exact h.recordsGrow

/-! ## vIPI bits -/

/-- A bit of a `pending` of t was set in s already, or is a vIPI line's and `p` holds; a bit of an `enabled`
was set already, or `e` holds. -/
def State.VipiBitsFrom (p e : Prop) (s t : State) : Prop :=
  t.cfg = s.cfg ∧ ∀ d b,
    ((t.core d).pending.getLsbD b = true →
      (s.core d).pending.getLsbD b = true ∨ p ∧ b < s.cfg.nrVipi) ∧
    ((t.core d).enabled.getLsbD b = true → (s.core d).enabled.getLsbD b = true ∨ e)

theorem State.VipiBitsFrom.refl (p e : Prop) (s : State) : s.VipiBitsFrom p e s :=
  ⟨rfl, fun _ _ => ⟨.inl, .inl⟩⟩

theorem State.VipiBitsFrom.of_same (h : s.VipiBitsFrom p e t) (hcfg : u.cfg = t.cfg)
    (hcores : ∀ d, (u.core d).pending = (t.core d).pending ∧ (u.core d).enabled = (t.core d).enabled) :
    s.VipiBitsFrom p e u := by
  refine ⟨hcfg.trans h.1, fun d b => ?_⟩
  rw [(hcores d).1, (hcores d).2]
  exact h.2 d b

theorem State.VipiBitsFrom.setPending (h : s.VipiBitsFrom p e t) {d : Nat} {v : Word}
    (hv : ∀ b, v.getLsbD b = true → (t.core d).pending.getLsbD b = true ∨ p ∧ b < t.cfg.nrVipi) :
    s.VipiBitsFrom p e (t.setPending d v) := by
  refine ⟨h.1, fun x b => ⟨fun hb => ?_, by simpa using (h.2 x b).2⟩⟩
  rw [State.setPending_core] at hb
  split at hb
  · next hx =>
    obtain ⟨rfl, -⟩ := hx
    rcases hv b hb with hold | hnew
    · exact (h.2 d b).1 hold
    · rw [h.1] at hnew
      exact .inr hnew
  · exact (h.2 x b).1 hb

theorem State.VipiBitsFrom.setEnabled (h : s.VipiBitsFrom p e t) {d : Nat} {v : Word}
    (hv : ∀ b, v.getLsbD b = true → (t.core d).enabled.getLsbD b = true ∨ e) :
    s.VipiBitsFrom p e (t.setEnabled d v) := by
  refine ⟨h.1, fun x b => ⟨by simpa using (h.2 x b).1, fun hb => ?_⟩⟩
  rw [State.setEnabled_core] at hb
  split at hb
  · next hx =>
    obtain ⟨rfl, -⟩ := hx
    exact (hv b hb).elim (h.2 d b).2 .inr
  · exact (h.2 x b).2 hb

theorem State.VipiBitsFrom.sendIpi (h : s.VipiBitsFrom p e t) {f : Nat → CoreState → CoreState}
    (hf : ∀ d k, f d k = { k with ipiPend := (f d k).ipiPend }) :
    s.VipiBitsFrom p e (t.updCores f) := by
  refine h.of_same rfl fun d => ?_
  rw [State.updCores_core]
  split
  · rw [hf]
    exact ⟨rfl, rfl⟩
  · exact ⟨rfl, rfl⟩

theorem State.VipiBitsFrom.takeTrap (h : s.VipiBitsFrom p e t) :
    s.VipiBitsFrom p e (t.takeTrap c) := by
  rcases takeTrap_eq t c with ht | ⟨n, l, -, ht⟩
  · rwa [ht]
  · rw [ht]
    exact h.of_same rfl (by simp)

/-- An operation's updates set only the vIPI bits they may. -/
theorem Effect.vipiBitsFrom (h : Effect c p e s t) : s.VipiBitsFrom p e t := by
  induction h with
  | refl => exact .refl p e s
  | note _ _ ih | refuse _ ih | addDiag _ ih | withDraws _ ih | withSched _ ih | withArmed _ ih
  | updLine _ _ ih | updBank _ _ ih => exact ih
  | reply _ ih | call _ _ ih | setQueue _ ih | setBound _ ih | setFlags _ ih | setArm _ ih
  | setFiqDisabled _ ih | setIpiPend _ ih | setIpiMask _ ih => exact ih.of_same (by simp) (by simp)
  | sendIpi _ hf ih => exact ih.sendIpi hf
  | setPending _ hv ih => exact ih.setPending hv
  | setEnabled _ hv ih => exact ih.setEnabled hv
  | takeTrap _ ih => exact ih.takeTrap

/-- A control step that performs no operation sets no vIPI bit. -/
theorem ControlStep.vipiBitsFrom {m : SeqStep} (hm : ∀ i, m ≠ .op i) (h : ControlStep c m s t) :
    s.VipiBitsFrom False False t := by
  cases h with
  | operation h => exact absurd rfl (hm _)
  | plain _ h => exact h.vipiBitsFrom
  | takeLock | choose | chooseNone | freeLock =>
    exact (State.VipiBitsFrom.refl _ _ s).of_same rfl (by simp [State.affUnlockStep])
  | trapReturn => exact (State.VipiBitsFrom.refl _ _ s).of_same rfl (by simp [State.trapReturn])

theorem State.PendingInRange.of_vipiBitsFrom (hs : s.PendingInRange) (h : s.VipiBitsFrom p e t) :
    t.PendingInRange := by
  intro d b hb
  rw [h.1] at hb
  by_contra hset
  rcases (h.2 d b).1 (by simpa using hset) with hold | ⟨-, hlt⟩
  · rw [hs d b hb] at hold
    exact Bool.false_ne_true hold
  · omega

/-- A state that agrees with s on the parameters and every `pending` has its pending bits in range too. -/
theorem State.PendingInRange.of_same (hs : s.PendingInRange) (hcfg : t.cfg = s.cfg)
    (hpend : ∀ d, (t.core d).pending = (s.core d).pending) : t.PendingInRange := by
  intro d b hb
  rw [hcfg] at hb
  rw [hpend]
  exact hs d b hb

theorem ControlStep.keeps_pendingInRange {m : SeqStep} (h : ControlStep c m s t)
    (hs : s.PendingInRange) : t.PendingInRange := by
  by_cases hm : ∀ i, m ≠ .op i
  · exact hs.of_vipiBitsFrom (h.vipiBitsFrom hm)
  · cases h with
    | operation h | plain _ h => exact hs.of_vipiBitsFrom h.vipiBitsFrom
    | takeLock | choose | chooseNone | freeLock | trapReturn => exact absurd (by simp) hm

theorem CoreStep.keeps_pendingInRange (h : CoreStep c s t) (hs : s.PendingInRange) :
    t.PendingInRange := by
  cases h with
  | effect h => exact hs.of_vipiBitsFrom h.vipiBitsFrom
  | operation hu h => exact (hs.of_vipiBitsFrom hu.vipiBitsFrom).of_vipiBitsFrom h.vipiBitsFrom
  | @memRead u addr hu =>
    obtain ⟨n, src, v, hr⟩ := memRead_eq u c addr
    rw [hr]
    exact (hs.of_vipiBitsFrom hu.vipiBitsFrom).of_same rfl (by simp)
  | memWrite hu => exact hs.of_vipiBitsFrom hu.vipiBitsFrom
  | control hu _ h =>
    exact h.keeps_pendingInRange ((hs.of_vipiBitsFrom hu.vipiBitsFrom).of_same rfl (by simp))

theorem State.OnlyInputs.keeps_pendingInRange (h : s.OnlyInputs t) (hs : s.PendingInRange) :
    t.PendingInRange := by
  obtain ⟨⟨l, hl⟩, hcore⟩ := h
  exact hs.of_same (by rw [hl]) fun d => by rw [hcore d]

/-- Settles O55: of the updates an operation is made of, only that of its own OR port sets a vIPI bit. -/
theorem onlyPortsSetVipiBits : Obligations.OnlyPortsSetVipiBits := by
  unfold Obligations.OnlyPortsSetVipiBits
  intro s t
  refine ⟨fun i d b hi => ?_, fun c m d b hm hc => ?_, fun hs ht => ?_⟩
  · have hbits := ((exec_effect i s).of_eq_next hi).vipiBitsFrom.2 d b
    refine ⟨fun hne hb => (hbits.1 hb).resolve_right fun h => ?_,
      fun hne hb => (hbits.2 hb).resolve_right fun h => ?_⟩
    · obtain ⟨⟨c, x, m, rfl⟩, -⟩ := h
      exact hne c x m rfl
    · obtain ⟨c, x, m, rfl⟩ := h
      exact hne c x m rfl
  · have hbits := (((seqStep_control c m s).of_eq_next hc).vipiBitsFrom hm).2 d b
    exact ⟨fun hb => (hbits.1 hb).resolve_right (·.1), fun hb => (hbits.2 hb).resolve_right id⟩
  · cases step_machineStep ht with
    | core c h => exact h.keeps_pendingInRange hs
    | input h => exact h.keeps_pendingInRange hs

end Sys2Proof.Machine
end

section
/-!
PROOF. The derived signals, the values at power-on with the invariants there, the steps of the environment,
and how a step picks its mover and performs its move.
-/

namespace Sys2Proof.Machine

open Sys2Proof

variable {c : Nat} {s s' : State}

/-! ## The two trap outputs -/

theorem irqOut_iff (s : State) (c : Nat) : s.irqOut c = true ↔
    (∃ i, i < s.cfg.nrHw ∧ s.hwElig i c = true) ∨ ∃ sel, s.ipiElig c sel = true := by
  simp only [State.irqOut, Bool.or_eq_true, List.any_eq_true, List.mem_range, or_assoc]
  refine or_congr_right ⟨?_, ?_⟩
  · rintro (h | h)
    · exact ⟨_, h⟩
    · exact ⟨_, h⟩
  · rintro ⟨sel | sel, h⟩
    · exact .inl h
    · exact .inr h

/-- Something waits for core c exactly when a line or a physical IPI line is eligible. -/
theorem events_ne_nil_iff (s : State) (c : Nat) : s.events c ≠ [] ↔
    (∃ i, i < s.cfg.nrHw ∧ s.hwElig i c = true) ∨ ∃ sel, s.ipiElig c sel = true := by
  rw [Ne, List.eq_nil_iff_forall_not_mem, not_forall_not]
  constructor
  · rintro ⟨i | sel, h⟩
    · exact .inl ⟨i, (events_hw s c i).1 h⟩
    · exact .inr ⟨sel, (events_ipi s c sel).1 h⟩
  · rintro (⟨i, h⟩ | ⟨sel, h⟩)
    · exact ⟨_, (events_hw s c i).2 h⟩
    · exact ⟨_, (events_ipi s c sel).2 h⟩

theorem hwElig_false {i : Nat} (h : (s.line i).mask = true ∨ (s.line i).target.getLsbD c = false) :
    s.hwElig i c = false := by
  rcases h with h | h <;> simp [State.hwElig, h]

theorem ipiElig_false {sel : Sel}
    (h : (s.core c).ipiMask.get sel = true ∨ (s.core c).ipiPend.get sel = false) :
    s.ipiElig c sel = false := by
  rcases h with h | h <;> simp [State.ipiElig, h]

/-- Settles O6: each output is 1 exactly when one of its causes is there. -/
theorem outputsFollowTheirCauses : Obligations.OutputsFollowTheirCauses := by
  unfold Obligations.OutputsFollowTheirCauses
  intro s c
  refine ⟨(irqOut_iff s c).trans (events_ne_nil_iff s c).symm, fun hlines hipis => ?_, ?_⟩
  · rw [Bool.eq_false_iff, Ne, irqOut_iff]
    rintro (⟨i, hi, h⟩ | ⟨sel, h⟩)
    · rw [hwElig_false (hlines i hi)] at h
      exact Bool.false_ne_true h
    · rw [ipiElig_false (hipis sel)] at h
      exact Bool.false_ne_true h
  · simp [State.fiqOut, State.fire]

/-! ## Power-on -/

theorem getD_map_range {α : Type} (f : Nat → α) (n i : Nat) (d : α) :
    ((List.range n).map f).getD i d = if i < n then f i else d := by
  by_cases h : i < n <;> simp [List.getD_eq_getElem?_getD, h]

theorem getD_replicate_none {α : Type} (n i : Nat) :
    (List.replicate n (none : Option α)).getD i none = none := by
  by_cases h : i < n <;> simp [List.getD_eq_getElem?_getD, h]

theorem powerOn_line (cfg : Config) (d : PowerOn) {i : Nat} (hi : i < cfg.nrHw) :
    (State.powerOn cfg d).line i = d.line i := by
  rw [State.line_def]
  exact (getD_map_range ..).trans (if_pos hi)

theorem powerOn_core (cfg : Config) (d : PowerOn) (c : Nat) :
    (State.powerOn cfg d).core c = if c < cfg.maxCores then d.core cfg c else default :=
  getD_map_range ..

theorem powerOn_core_lt (cfg : Config) (d : PowerOn) {c : Nat} (hc : c < cfg.maxCores) :
    (State.powerOn cfg d).core c = d.core cfg c :=
  (powerOn_core cfg d c).trans (if_pos hc)

/-- Where P holds of a core at power-on and of one that is not there, it holds of every core. -/
theorem powerOn_core_forall (cfg : Config) (d : PowerOn) {P : CoreState → Prop}
    (hcore : ∀ c, P (d.core cfg c)) (hnone : P default) (c : Nat) :
    P ((State.powerOn cfg d).core c) := by
  rw [powerOn_core]
  split
  · exact hcore c
  · exact hnone

theorem powerOn_bound (cfg : Config) (d : PowerOn) (dom : Dom) (idx : Nat) :
    (State.powerOn cfg d).bound dom idx = none := by
  cases dom <;> exact getD_replicate_none ..

theorem powerOn_flagsOf (cfg : Config) (d : PowerOn) (dom : Dom) (idx : Nat) :
    (State.powerOn cfg d).flagsOf dom idx = none := by
  cases dom <;> exact getD_replicate_none ..

/-- Settles O39: the entries of the lists of lines, cores, causes and indices, read by their index. -/
theorem powerOnValues : Obligations.PowerOnValues := by
  unfold Obligations.PowerOnValues
  intro cfg d
  refine ⟨rfl, fun i hi => powerOn_line cfg d hi, fun c hc => ?_,
    fun dom idx => ⟨powerOn_bound cfg d dom idx, powerOn_flagsOf cfg d dom idx⟩, rfl, rfl, rfl, rfl⟩
  simp only [State.arm, State.cond, State.fiqDisabled, powerOn_core_lt cfg d hc]
  refine ⟨rfl, rfl, rfl, rfl, rfl, rfl, rfl, fun k hk => ⟨?_, ?_⟩, fun f hf => ?_⟩
  · exact (getD_map_range ..).trans (if_pos hk)
  · exact (getD_map_range ..).trans (if_pos hk)
  · simp [PowerOn.core, List.getD_eq_getElem?_getD, hf]

theorem powerOn_shaped {cfg : Config} (d : PowerOn) (h : cfg.Wf) : (State.powerOn cfg d).Shaped := by
  refine ⟨h, by simp [State.powerOn], by simp [State.powerOn], List.length_replicate,
    List.length_replicate, List.length_replicate, List.length_replicate, List.length_replicate,
    List.length_replicate, fun k hk => ?_⟩
  obtain ⟨c, -, rfl⟩ := List.mem_map.1 hk
  exact ⟨by simp [PowerOn.core, State.powerOn], by simp [PowerOn.core, State.powerOn],
    List.length_replicate⟩

/-- Settles O56: at power-on every core is idle with nothing to perform, nothing pending, the lock free. -/
theorem invariantsHoldAtPowerOn : Obligations.InvariantsHoldAtPowerOn := by
  unfold Obligations.InvariantsHoldAtPowerOn
  intro cfg d hwf
  refine ⟨powerOn_shaped d hwf, ?_, ⟨?_, fun _ => ?_⟩, fun c b _ => ?_, rfl⟩
  · exact powerOn_core_forall cfg d (P := fun k => k.seq.countP _ = 0) (fun _ => rfl) rfl
  · exact powerOn_core_forall cfg d
      (P := fun k => k.seq.countP _ = if k.fe = .draining then 1 else 0) (fun _ => rfl) rfl
  · exact powerOn_core_forall cfg d (P := fun k => k.fe = .idle) (fun _ => rfl) rfl
  · exact powerOn_core_forall cfg d (P := fun k => k.pending.getLsbD b = false)
      (fun _ => BitVec.getLsbD_zero) BitVec.getLsbD_zero c

/-! ## The environment -/

/-- The input of line i changes, and is recorded. -/
theorem lineBecomes_input {i : Nat} (hi : i < s.lines.length) (m : Mover) (f : Line → Line) :
    s.LineBecomes ((s.note (.input m)).updLine i f) i (f (s.line i)) :=
  ⟨((State.SameRest.refl s).note (Event.quiet_input m)).updLine i f, rfl,
    fun _ hj => (s.note _).updLine_line_other f hj, (s.note _).updLine_line_self i f hi⟩

/-- An input of core c changes, and is recorded. -/
theorem coreBecomes_input (hc : c < s.cores.length) (m : Mover) (f : CoreState → CoreState) :
    s.CoreBecomes ((s.note (.input m)).updCore c f) c (f (s.core c)) :=
  ⟨((State.SameRest.refl s).note (Event.quiet_input m)).updCore c f, rfl,
    fun _ hd => (s.note _).updCore_core_other f hd, (s.note _).updCore_core_self c f hc⟩

theorem move_level (hs : s.Shaped) {i : Nat} (hi : i < s.cfg.nrHw) (v : Bool) :
    ∃ t, move (.level i v) s = .next t ∧ s.LineBecomes t i { s.line i with level := v } :=
  ⟨_, congrArg Host.Outcome.next (if_pos hi), lineBecomes_input (hs.line_lt hi) _ _⟩

theorem move_accept (hs : s.Shaped) (hc : c < s.cfg.maxCores) (v : Bool) :
    ∃ t, move (.accept c v) s = .next t ∧ s.CoreBecomes t c { s.core c with accepts := v } :=
  ⟨_, congrArg Host.Outcome.next (if_pos hc), coreBecomes_input (hs.core_lt hc) _ _⟩

theorem move_cond (hs : s.Shaped) (hc : c < s.cfg.maxCores) {k : Nat}
    (hk : k < s.cfg.causes.length) (v : Bool) : ∃ t, move (.cond c k v) s = .next t ∧
      s.CoreBecomes t c { s.core c with cond := (s.core c).cond.set k v } :=
  ⟨_, congrArg Host.Outcome.next (if_pos ⟨hc, hk⟩), coreBecomes_input (hs.core_lt hc) _ _⟩

theorem move_arm (hs : s.Shaped) (hc : c < s.cfg.maxCores) {k : Nat}
    (hk : k < s.cfg.causes.length) (hsource : (s.cfg.cause k).mkind = .source) (v : Bool) :
    ∃ t, move (.arm c k v) s = .next t ∧
      s.CoreBecomes t c { s.core c with arm := (s.core c).arm.set k v } :=
  ⟨_, congrArg Host.Outcome.next (if_pos ⟨hc, hk, hsource⟩),
    coreBecomes_input (hs.core_lt hc) _ (fun st => { st with arm := st.arm.set k v })⟩

/-- An ARM step that does not exist is a stutter (10_state R62). -/
theorem move_arm_stutter {k : Nat} (v : Bool)
    (h : ¬(c < s.cfg.maxCores ∧ k < s.cfg.causes.length ∧ (s.cfg.cause k).mkind = .source)) :
    move (.arm c k v) s = .next s :=
  congrArg Host.Outcome.next (if_neg h)

/-- Settles O40: each mover of the environment changes its one input where there is one. -/
theorem environmentSteps : Obligations.EnvironmentSteps := by
  unfold Obligations.EnvironmentSteps
  intro s c k i addr v b hs
  refine ⟨fun hi => ⟨move_level hs hi v, if_pos hi⟩, fun hi => ?_, fun hc => ?_, fun hc => ?_,
    fun hck => ?_⟩
  · exact ⟨congrArg Host.Outcome.next (if_neg (Nat.not_lt.2 hi)), if_neg (Nat.not_lt.2 hi)⟩
  · refine ⟨move_accept hs hc v, fun hk => ⟨move_cond hs hc hk v,
      fun hsource => move_arm hs hc hk hsource v, fun henable => move_arm_stutter v ?_⟩⟩
    rw [henable]
    simp
  · exact ⟨congrArg Host.Outcome.next (if_neg (Nat.not_lt.2 hc)), if_neg (Nat.not_lt.2 hc)⟩
  · exact ⟨congrArg Host.Outcome.next (if_neg (by omega)), move_arm_stutter v (by omega)⟩

/-! ## Which move a step performs -/

/-- Settles O46: the mark is the first thing a step looks at. -/
theorem refusedStateHasNoSuccessor : Obligations.RefusedStateHasNoSuccessor := by
  unfold Obligations.RefusedStateHasNoSuccessor
  intro s r h
  rw [step, h]

/-- Without a mark, the next mover moves. -/
theorem step_sched {m : Mover} {movers : List Mover} (hr : s.refused = none)
    (hs : s.sched = m :: movers) : step s = move m (s.withSched movers) := by
  rw [step, hr, hs]

/-- A core that may take a request, with no trap to take, takes the next one. -/
theorem coreMove_fetch (hc : c < s.cfg.maxCores) (hrec : s.receptive c = true)
    (htrap : s.trapDue c = false) : coreMove c s = fetch c s := by
  unfold State.receptive at hrec
  unfold coreMove
  rw [if_pos hc]
  split at hrec
  · simp [htrap]
  · rfl
  · exact absurd hrec Bool.false_ne_true

theorem fetch_nil (h : (s.core c).queue = []) : fetch c s = advance c s := by
  rw [fetch, h]

theorem fetch_cons {r : Request} {rest : List Request} (h : (s.core c).queue = r :: rest) :
    fetch c s = request c r (s.setQueue c rest) := by
  rw [fetch, h]

/-- A core inside a composite operation, and in no handler, goes on with it. -/
theorem coreMove_advance {m : SeqStep} {rest : List SeqStep} (hc : c < s.cfg.maxCores)
    (hseq : (s.core c).seq = m :: rest) (hm : ∀ dom idx h, m ≠ .running dom idx h) :
    coreMove c s = seqStep c m (s.setSeq c rest) := by
  have hadv : coreMove c s = advance c s := by
    unfold coreMove
    rw [if_pos hc]
    split
    · next h => exact absurd (hseq.symm.trans h) (by simp)
    · next h => exact absurd (List.cons.inj (hseq.symm.trans h)).1 (hm _ _ _)
    · rfl
  rw [hadv, advance_cons s hseq]

/-- A core about to perform the request r performs it on the state with mover and request taken off. -/
theorem step_of_aboutTo {r : Request} (h : s.AboutTo c r s') : step s = request c r s' := by
  obtain ⟨hr, hc, hrec, htrap, movers, rest, hsched, hqueue, rfl⟩ := h
  rw [step_sched hr hsched]
  exact (coreMove_fetch (s := s.withSched movers) hc hrec htrap).trans
    (fetch_cons (s := s.withSched movers) hqueue)

/-- A change of core c is known by what it makes of that core. -/
theorem updCore_congr {f g : CoreState → CoreState} (h : f (s.core c) = g (s.core c)) :
    s.updCore c f = s.updCore c g := by
  unfold State.updCore
  congr 1
  apply List.ext_getElem?
  intro d
  rw [List.getElem?_modify, List.getElem?_modify]
  by_cases hd : c = d
  · subst hd
    cases hk : s.cores[c]? with
    | none => rfl
    | some k =>
      rw [State.core_def, List.getD_eq_getElem?_getD, hk] at h
      simpa using h
  · simp [hd]

/-- A handler returns where its core's software asks for it, or has nothing left to ask for. -/
theorem fetch_handlerEnd {dom : Dom} {idx h : Nat} {rest : List SeqStep}
    (hseq : (s.core c).seq = .running dom idx h :: rest)
    (hq : (s.core c).queue = [] ∨ (s.core c).queue.head? = some .handlerReturn) :
    fetch c s = .next ((s.note (.handlerEnd c)).updCore c
      (fun k => { k with seq := rest, queue := k.queue.tail })) := by
  cases hqueue : (s.core c).queue with
  | nil =>
    rw [fetch_nil hqueue, advance_cons s hseq]
    refine congrArg Host.Outcome.next (updCore_congr (s := s.note (.handlerEnd c)) ?_)
    simp [hqueue]
  | cons r tail =>
    rw [hqueue] at hq
    obtain rfl : r = .handlerReturn := by simpa using hq
    rw [fetch_cons hqueue]
    show advance c (s.setQueue c tail) = _
    rw [advance_cons (s.setQueue c tail) (by simpa using hseq)]
    refine congrArg Host.Outcome.next (((s.note (.handlerEnd c)).updCore_updCore c _ _).trans
      (updCore_congr ?_))
    simp [hqueue]

/-- An idle core with nothing to perform and nothing to ask for does nothing. -/
theorem coreMove_idle (hseq : (s.core c).seq = []) (hqueue : (s.core c).queue = [])
    (htrap : s.trapDue c = false) : coreMove c s = .next s := by
  by_cases hc : c < s.cfg.maxCores
  · rw [coreMove_fetch hc (by rw [State.receptive, hseq]) htrap, fetch_nil hqueue, advance, hseq]
  · exact if_neg hc

/-- A core inside an operation takes no interrupt. -/
theorem trapDue_of_seq {m : SeqStep} {rest : List SeqStep} (hseq : (s.core c).seq = m :: rest) :
    s.trapDue c = false := by
  simp [State.trapDue, State.trapAdmitted, hseq]

/-- Settles O44: the mover's move is looked up in the order of `step`, `coreMove`, `fetch` and `request`. -/
theorem stepPerformsTheDecodedOperation : Obligations.StepPerformsTheDecodedOperation := by
  unfold Obligations.StepPerformsTheDecodedOperation
  refine ⟨fun s m movers hr hsched => step_sched hr hsched, fun s s' c q i h hdec => ?_,
    fun s s' c addr h => step_of_aboutTo h, fun s s' c addr v h => step_of_aboutTo h,
    fun s c m rest movers hr hsched hc hseq hm => ?_,
    fun s c dom idx h rest movers hr hsched hc hseq hq => ?_,
    fun s c movers hr hsched hseq htrap => ⟨fun hqueue => ?_, fun s' h => ?_⟩⟩
  · have hcfg : s'.cfg = s.cfg := by
      obtain ⟨-, -, -, -, -, -, -, -, rfl⟩ := h
      rfl
    rw [step_of_aboutTo h, request, runPacket, hcfg, hdec]
  · rw [step_sched hr hsched]
    exact coreMove_advance (s := s.withSched movers) hc hseq hm
  · rw [step_sched hr hsched]
    have hfetch := coreMove_fetch (s := s.withSched movers) hc (by simp [State.receptive, hseq])
      (trapDue_of_seq hseq)
    exact hfetch.trans (fetch_handlerEnd (s := s.withSched movers) hseq hq)
  · rw [step_sched hr hsched]
    exact coreMove_idle (s := s.withSched movers) hseq hqueue htrap
  · have hidle : (s'.core c).seq = [] := by
      obtain ⟨-, -, -, -, movers', rest, -, -, rfl⟩ := h
      exact (State.setQueue_core_seq (s.withSched movers') c c rest).trans hseq
    rw [step_of_aboutTo h, request, advance, hidle]

end Sys2Proof.Machine
end

section
/-!
PROOF. What the block does to the total order and to ordinary memory (spec/20_memory.md R90, R95): the
updates of an operation append no access to memory, and a step appends at most the one access its mover
asks for, which keeps the canonical form of the history.
-/

namespace Sys2Proof.Machine

open Sys2Proof

variable {c : Nat} {p e : Prop} {s t u : State}

/-- Settles O25: the meaning of a fence is the record of it. -/
theorem fencesAreRecordedOnly : Obligations.FencesAreRecordedOnly := by
  unfold Obligations.FencesAreRecordedOnly
  exact fun s c => ⟨rfl, rfl⟩

/-- The total order grew by entries none of which accesses ordinary memory. -/
def State.NoMemoryAccess (s t : State) : Prop :=
  ∃ es, t.trace = s.trace ++ es ∧ ∀ ev ∈ es, ev.isMemory = false

theorem State.NoMemoryAccess.refl (s : State) : s.NoMemoryAccess s :=
  ⟨[], (List.append_nil _).symm, by simp⟩

/-- Only the total order matters. -/
theorem State.NoMemoryAccess.of_trace (h : s.NoMemoryAccess t) (hu : u.trace = t.trace) :
    s.NoMemoryAccess u := by
  obtain ⟨es, hes, hquiet⟩ := h
  exact ⟨es, hu.trans hes, hquiet⟩

theorem State.NoMemoryAccess.note (h : s.NoMemoryAccess t) {ev : Event} (hev : ev.isMemory = false) :
    s.NoMemoryAccess (t.note ev) := by
  obtain ⟨es, hes, hquiet⟩ := h
  refine ⟨es ++ [ev], by rw [State.note_trace, hes, List.append_assoc], fun x hx => ?_⟩
  rcases List.mem_append.1 hx with hx | hx
  · exact hquiet x hx
  · rw [List.mem_singleton.1 hx, hev]

theorem State.NoMemoryAccess.takeTrap (h : s.NoMemoryAccess t) :
    s.NoMemoryAccess (t.takeTrap c) := by
  rcases takeTrap_eq t c with ht | ⟨n, l, -, ht⟩
  · rwa [ht]
  · rw [ht]
    exact h.note rfl

/-- An operation's updates access no ordinary memory. -/
theorem Effect.noMemoryAccess (h : Effect c p e u t) (hu : s.NoMemoryAccess u) :
    s.NoMemoryAccess t := by
  induction h with
  | refl => exact hu
  | note _ hev ih => exact ih.note hev
  | addDiag _ ih => exact ih.note rfl
  | refuse _ ih | withDraws _ ih | withSched _ ih | withArmed _ ih | reply _ ih | call _ _ ih
  | setQueue _ ih | setArm _ ih | setFiqDisabled _ ih | setIpiPend _ ih | setIpiMask _ ih
  | setPending _ _ ih | setEnabled _ _ ih | updLine _ _ ih | updBank _ _ ih | sendIpi _ _ ih =>
    exact ih
  | setBound _ ih | setFlags _ ih => exact ih.of_trace (by simp)
  | takeTrap _ ih => exact ih.takeTrap

/-- Nor does a control step. -/
theorem ControlStep.noMemoryAccess {m : SeqStep} (h : ControlStep c m u t) (hu : s.NoMemoryAccess u) :
    s.NoMemoryAccess t := by
  cases h with
  | operation h | plain _ h => exact h.noMemoryAccess hu
  | takeLock | freeLock | trapReturn => exact hu.note rfl
  | choose | chooseNone => exact hu

theorem Event.quiet_of_not_memory {ev : Event} (h : ev.isMemory = false) : ev.quiet := by
  rintro who addr v rfl
  exact nomatch h

/-- Where memory is not accessed, none is written. -/
theorem State.NoMemoryAccess.extends (h : s.NoMemoryAccess t) : s.Extends t := by
  obtain ⟨es, hes, hquiet⟩ := h
  exact ⟨es, hes, fun ev hev => Event.quiet_of_not_memory (hquiet ev hev)⟩

/-- Settles O50: operations and control steps are made of updates, none of which accesses memory. -/
theorem blockWritesNoOrdinaryMemory : Obligations.BlockWritesNoOrdinaryMemory := by
  unfold Obligations.BlockWritesNoOrdinaryMemory
  intro s t
  refine ⟨fun i h => ?_, fun c m h => ?_⟩
  · exact (((exec_effect i s).of_eq_next h).noMemoryAccess (.refl s)).extends
  · exact (((seqStep_control c m s).of_eq_next h).noMemoryAccess (.refl s)).extends

/-! ## The canonical form of the history -/

theorem State.NoMemoryAccess.keeps_memoryWf (h : s.NoMemoryAccess t)
    (hs : Memory.wf s.trace = true) : Memory.wf t.trace = true := by
  obtain ⟨es, hes, hquiet⟩ := h
  rw [hes]
  clear hes
  induction es using List.reverseRecOn with
  | nil => rwa [List.append_nil]
  | append_singleton es ev ih =>
    rw [← List.append_assoc]
    refine Memory.wf_snoc (ih fun x hx => hquiet x (by simp [hx])) ?_
    rintro c addr w rfl
    exact nomatch hquiet (.memRead c addr (some w)) (by simp)

/-- A core's move keeps the canonical form: it accesses memory only as its software asks. -/
theorem CoreStep.keeps_memoryWf (h : CoreStep c s t) (hs : Memory.wf s.trace = true) :
    Memory.wf t.trace = true := by
  have hrefl := State.NoMemoryAccess.refl s
  cases h with
  | effect h => exact (h.noMemoryAccess hrefl).keeps_memoryWf hs
  | operation hu h => exact (h.noMemoryAccess (hu.noMemoryAccess hrefl)).keeps_memoryWf hs
  | memRead hu => exact Memory.wf_memRead _ _ ((hu.noMemoryAccess hrefl).keeps_memoryWf hs)
  | memWrite hu => exact Memory.wf_memWrite _ _ _ ((hu.noMemoryAccess hrefl).keeps_memoryWf hs)
  | control hu _ h =>
    exact (h.noMemoryAccess ((hu.noMemoryAccess hrefl).of_trace rfl)).keeps_memoryWf hs

/-- An input that may not exist keeps the canonical form: where it exists it is recorded, and is no access
to memory. -/
theorem memoryWf_input {q : Prop} [Decidable q] (hs : Memory.wf s.trace = true) (m : Mover)
    (ht : t.trace = s.trace ++ [.input m]) : Memory.wf (if q then t else s).trace = true := by
  split
  · rw [ht]
    exact Memory.wf_note hs (by simp)
  · exact hs

/-- Every move keeps the canonical form. -/
theorem move_keeps_memoryWf (hs : Memory.wf s.trace = true) (m : Mover) :
    NextSatisfies (fun t => Memory.wf t.trace = true) (move m s) := by
  cases m with
  | core c => exact (coreMove_coreStep .refl).imp fun _ h => h.keeps_memoryWf hs
  | level i v => exact memoryWf_input hs (.level i v) rfl
  | cond c k v => exact memoryWf_input hs (.cond c k v) rfl
  | arm c k v => exact memoryWf_input hs (.arm c k v) rfl
  | accept c v => exact memoryWf_input hs (.accept c v) rfl
  | devWrite i addr v => exact .ite (Memory.wf_memWrite _ _ _ hs) hs

/-- Settles O60: a step is a move of one agent, taken off the list of movers or drawn. -/
theorem stepKeepsMemoryHistory : Obligations.StepKeepsMemoryHistory := by
  unfold Obligations.StepKeepsMemoryHistory
  intro s t hs ht
  refine NextSatisfies.of_eq_next (P := fun t => Memory.wf t.trace = true) ?_ ht
  unfold Machine.step
  split
  · trivial
  · split
    · exact move_keeps_memoryWf (s := s.withSched _) (by exact hs) _
    · exact move_keeps_memoryWf (s := s.withDraws _) (by exact hs) _

end Sys2Proof.Machine
end

section
/-!
PROOF. What a read of ordinary memory returns when a write to its address is visible to the reader
(spec/20_memory.md R93, R94): that write or a later one.
-/

namespace Sys2Proof.Machine

open Sys2Proof

variable {tr : List Event} {s : State}

/-! ## Positions of the total order -/

theorem entryAt_of_eq {n : Nat} {ev : Event} {q : Event → Bool} (h : tr[n]? = some ev)
    (hq : q ev = true) : entryAt tr n q = true := by
  rw [entryAt, h]
  exact hq

theorem lt_length_of_entryAt {n : Nat} {q : Event → Bool} (h : entryAt tr n q = true) :
    n < tr.length := by
  by_contra hn
  rw [entryAt, List.getElem?_eq_none (Nat.not_lt.1 hn)] at h
  exact nomatch h

theorem somewhere_iff {lo hi : Nat} {q : Nat → Bool} :
    somewhere lo hi q = true ↔ ∃ n, lo ≤ n ∧ n < hi ∧ q n = true := by
  simp only [somewhere, List.any_eq_true, List.mem_range, Bool.and_eq_true, decide_eq_true_eq]
  exact exists_congr fun n => and_left_comm

/-- A write to an address is a recorded write. -/
theorem exists_memWrite_of_entryAt {n addr : Nat}
    (h : entryAt tr n (Event.isMemWriteTo addr) = true) :
    ∃ who v, tr[n]? = some (.memWrite who addr v) := by
  unfold entryAt at h
  split at h
  · exact nomatch h
  · next ev hev =>
    cases ev with
    | memWrite who a v =>
      obtain rfl : a = addr := by simpa [Event.isMemWriteTo] using h
      exact ⟨who, v, hev⟩
    | _ => exact nomatch h

/-! ## The pairing rule and device-write visibility, from their steps -/

theorem paired_of {b c w f x r g : Nat} (hwf : w < f) (hf : tr[f]? = some (.fence b .w)) (hfx : f < x)
    (hx : entryAt tr x (Event.writtenBy b) = true) (hxr : x < r)
    (hr : entryAt tr r (Event.readBy c) = true) (hobs : observes tr x r = true) (hrg : r < g)
    (hg : tr[g]? = some (.fence c .r)) : paired tr b c w = true := by
  have hf := entryAt_of_eq (q := (· == Event.fence b .w)) hf (by simp)
  have hg := entryAt_of_eq (q := (· == Event.fence c .r)) hg (by simp)
  simp only [paired, somewhere_iff, Bool.and_eq_true]
  exact ⟨f, hwf, lt_length_of_entryAt hf, hf, x, hfx, lt_length_of_entryAt hx, hx,
    r, hxr, lt_length_of_entryAt hr, ⟨hr, hobs⟩, g, hrg, lt_length_of_entryAt hg, hg⟩

theorem deviceSeen_of {i c w l r : Nat} (hwl : w < l) (hl : tr[l]? = some (.input (.level i true)))
    (hlr : l < r) (hr : tr[r]? = some (.report c .ordered (.hw i))) :
    deviceSeen tr i c w = true := by
  have hl := entryAt_of_eq (q := (· == Event.input (.level i true))) hl (by simp)
  have hr := entryAt_of_eq (q := (· == Event.report c .ordered (.hw i))) hr (by simp)
  simp only [deviceSeen, somewhere_iff, Bool.and_eq_true]
  exact ⟨l, hwl, lt_length_of_entryAt hl, hl, r, hlr, lt_length_of_entryAt hr, hr⟩

/-! ## The sources of a read -/

/-- The writes to an address stand oldest first. -/
theorem memWrites_pairwise_lt (tr : List Event) (addr : Nat) :
    (memWrites tr addr).Pairwise (· < ·) :=
  List.pairwise_lt_range.filter _

/-- Every source of a read is a write not older than one to its address that the reader must see. -/
theorem source_not_older {c addr w : Nat} {line : Option Nat} {src : Option Nat}
    (hw : w ∈ memWrites tr addr) (hm : mustSee tr c line w = true)
    (hsrc : src ∈ memSources tr c line addr) : ∃ n ∈ memWrites tr addr, w ≤ n ∧ src = some n := by
  have hvis : w ∈ (memWrites tr addr).filter (mustSee tr c line) := List.mem_filter.2 ⟨hw, hm⟩
  unfold memSources at hsrc
  split at hsrc
  · next hlast =>
    rw [List.getLast?_eq_none_iff.1 hlast] at hvis
    exact nomatch hvis
  · next last hlast =>
    have hold : w ≤ last := by
      obtain ⟨older, holder⟩ := List.getLast?_eq_some_iff.1 hlast
      have hsorted := (memWrites_pairwise_lt tr addr).filter (mustSee tr c line)
      rw [holder, List.pairwise_append] at hsorted
      obtain ⟨-, -, hbefore⟩ := hsorted
      rw [holder, List.mem_append, List.mem_singleton] at hvis
      rcases hvis with hvis | rfl
      · exact (hbefore w hvis last (by simp)).le
      · exact le_rfl
    obtain ⟨n, hn, rfl⟩ := List.mem_map.1 hsrc
    obtain ⟨hn, hle⟩ := List.mem_filter.1 hn
    exact ⟨n, hn, hold.trans (of_decide_eq_true hle), rfl⟩

/-- A read by a core that must see a write to the address returns that write or a later one. -/
theorem memRead_of_mustSee {c addr w : Nat} {who : MemAgent} {v : Byte} (hc : c < s.cores.length)
    (hw : s.trace[w]? = some (.memWrite who addr v))
    (hm : mustSee s.trace c (s.handlerLine c) w = true) :
    ∃ n who b, w ≤ n ∧ s.trace[n]? = some (.memWrite who addr b) ∧
      (s.memRead c addr).trace = s.trace ++ [.memRead c addr (some n)] ∧
      ((s.memRead c addr).core c).ret = .byte b := by
  have hat := entryAt_of_eq (q := Event.isMemWriteTo addr) hw (by simp [Event.isMemWriteTo])
  obtain ⟨src, k, hchoose, hsrc⟩ :=
    s.choose_of_ne (memSources_ne_nil s.trace c addr (s.handlerLine c))
  obtain ⟨n, hn, hle, rfl⟩ :=
    source_not_older (mem_memWrites.2 ⟨lt_length_of_entryAt hat, hat⟩) hm hsrc
  obtain ⟨who', b, hb⟩ := exists_memWrite_of_entryAt (mem_memWrites.1 hn).2
  refine ⟨n, who', b, hle, hb, ?_, ?_⟩
  · rw [State.memRead, hchoose]
    rfl
  · rw [State.memRead, hchoose]
    simp [State.reply_core, hc, memValue, hb]

/-- Settles O47: the rule's steps make the write one that core c must see. -/
theorem pairedFencesMakeWritesVisible : Obligations.PairedFencesMakeWritesVisible := by
  unfold Obligations.PairedFencesMakeWritesVisible
  intro s a c addr w f x r g v hs hc hw hwf hf hfx hx hxr hr hobs hrg hg
  refine memRead_of_mustSee (hs.core_lt hc) hw ?_
  simp [mustSee, hw, paired_of hwf hf hfx hx hxr hr hobs hrg hg]

/-- Settles O48: the handler of line i must see what the device of line i wrote. -/
theorem orderedEventReadShowsDeviceWrites : Obligations.OrderedEventReadShowsDeviceWrites := by
  unfold Obligations.OrderedEventReadShowsDeviceWrites
  intro s c i addr w l r h v rest hs hc hw hwl hl hlr hr hseq
  refine memRead_of_mustSee (hs.core_lt hc) hw ?_
  have hline : s.handlerLine c = some i := by rw [State.handlerLine, hseq]
  simp [mustSee, hw, hline, deviceSeen_of hwl hl hlr hr]

end Sys2Proof.Machine
end

section
/-!
PROOF. Register transactions (spec/20_memory.md R81, R82, R85): one that is no aligned 32-bit access to a
register is refused and has no other effect, and a second write of the same value changes nothing but
the total order.
-/

namespace Sys2Proof

variable {cfg : Config} {p : Packet}

/-! ## Decoding a transaction -/

/-- The offset of a register lies in its range of the register map. -/
theorem exists_range_of_valid {r : Reg} (hr : r.Valid cfg) :
    ∃ q ∈ cfg.ranges, q.1 ≤ offsetOf cfg r ∧ offsetOf cfg r < q.1 + 4 * q.2 := by
  cases r <;> simp only [Reg.Valid] at hr <;> simp [Config.ranges, offsetOf] <;> omega

/-- There is no register at an offset outside every range. -/
theorem regAt_eq_none (h : cfg.RegmapWf) {off : Nat} (hoff : off % 4 = 0)
    (hout : ∀ q ∈ cfg.ranges, ¬(q.1 ≤ off ∧ off < q.1 + 4 * q.2)) : regAt cfg off = none := by
  cases hreg : regAt cfg off with
  | none => rfl
  | some r =>
    obtain ⟨hvalid, rfl⟩ := offsetOf_regAt h hoff hreg
    obtain ⟨q, hq, hin⟩ := exists_range_of_valid hvalid
    exact absurd hin (hout q hq)

theorem exists_kindOfBits {n : Nat} (h : n ≤ 1) : ∃ k, kindOfBits n = some k := by
  match n, h with
  | 0, _ => exact ⟨.relaxed, rfl⟩
  | 1, _ => exact ⟨.ordered, rfl⟩

/-- A packet of operation code 1 or 2 with no unused operand is a register transaction. -/
theorem exists_decodeRaw_eq_decodeBus (cfg : Config) (c : Nat)
    (hcode : (p.code = 1 ∧ p.b = 0) ∨ p.code = 2) (hd : p.d = 0) :
    ∃ make, decodeRaw cfg c p = decodeBus cfg p make := by
  rcases hcode with ⟨hcode, hb⟩ | hcode
  · exact ⟨busRead c, by simp [decodeRaw, hcode, hb, hd]⟩
  · exact ⟨fun k => busWrite c k p.b, by simp [decodeRaw, hcode, hd]⟩

theorem decodeBus_badWidthOrAlignment (make : AccessKind → Reg → Instr) (hk : p.kindBits ≤ 1)
    (hbad : p.width ≠ 4 ∨ p.a.toNat % 4 ≠ 0) :
    decodeBus cfg p make = .reject .badWidthOrAlignment := by
  obtain ⟨k, hk⟩ := exists_kindOfBits hk
  rw [decodeBus, hk]
  exact if_pos hbad

theorem decodeBus_unmappedOffset (make : AccessKind → Reg → Instr) (hk : p.kindBits ≤ 1)
    (hwidth : p.width = 4) (halign : p.a.toNat % 4 = 0) (hreg : regAt cfg p.a.toNat = none) :
    decodeBus cfg p make = .reject .unmappedOffset := by
  obtain ⟨k, hk⟩ := exists_kindOfBits hk
  rw [decodeBus, hk]
  simp [hwidth, halign, hreg]

end Sys2Proof

namespace Sys2Proof.Machine

open Sys2Proof

variable {c : Nat} {s s' t : State}

theorem State.AboutTo.cfg {r : Request} (h : s.AboutTo c r s') : s'.cfg = s.cfg := by
  obtain ⟨-, -, -, -, -, -, -, -, rfl⟩ := h
  rfl

/-- Settles O45: decoding rejects the transaction, and the step records the reason. -/
theorem badAccessesAreRefused : Obligations.BadAccessesAreRefused := by
  unfold Obligations.BadAccessesAreRefused
  intro s s' c p hs h hcode hd hk
  obtain ⟨make, hraw⟩ := exists_decodeRaw_eq_decodeBus s.cfg c hcode hd
  obtain ⟨⟨-, -, -, hmap, -⟩, -⟩ := hs
  have hreject : ∀ r, decodeBus s.cfg p make = .reject r → decode s'.cfg c p = .reject r :=
    fun r hr => by rw [h.cfg, decode, hraw, hr]
  rw [step_of_aboutTo h, request, runPacket]
  refine ⟨fun hbad => ?_, fun hwidth halign hout => ?_⟩
  · rw [hreject _ (decodeBus_badWidthOrAlignment make hk hbad)]
    rfl
  · rw [hreject _ (decodeBus_unmappedOffset make hk hwidth halign (regAt_eq_none hmap halign hout))]
    rfl

/-! ## Updates performed twice -/

theorem mapFrom_mapFrom_self {α : Type} {f : Nat → α → α} (hf : ∀ i x, f i (f i x) = f i x) (n : Nat)
    (l : List α) : mapFrom f n (mapFrom f n l) = mapFrom f n l := by
  induction l generalizing n with
  | nil => rfl
  | cons x l ih => rw [mapFrom, mapFrom, hf, ih]

theorem State.updBank_updBank_self (s : State) (n : Nat) (v : Word) {f : Line → Line}
    (hf : ∀ l, f (f l) = f l) : (s.updBank n v f).updBank n v f = s.updBank n v f := by
  unfold State.updBank
  dsimp only
  rw [mapFrom_mapFrom_self]
  intro i l
  split
  · exact hf l
  · rfl

theorem State.updCores_updCores_self (s : State) {f : Nat → CoreState → CoreState}
    (hf : ∀ d k, f d (f d k) = f d k) : (s.updCores f).updCores f = s.updCores f := by
  unfold State.updCores
  dsimp only
  rw [mapFrom_mapFrom_self hf]

theorem State.updLine_updLine_self (s : State) (i : Nat) {f : Line → Line}
    (hf : ∀ l, f (f l) = f l) : (s.updLine i f).updLine i f = s.updLine i f := by
  simp [State.updLine, modify_modify, hf]

theorem IpiBits.assign_assign_self (b : IpiBits) (which : Sel → Bool) (v : Bool) :
    (b.assign which v).assign which v = b.assign which v := by
  simp only [IpiBits.assign, IpiBits.mk.injEq]
  constructor <;> split <;> rfl

/-- The selected pending bits of core c become v (42_physical_ipi R283). -/
def State.assignIpiPend (c : Nat) (v : Word) (b : Bool) (s : State) : State :=
  s.setIpiPend c ((s.core c).ipiPend.assign (s.cfg.selects v) b)

/-- The selected mask bits of core c become v (42_physical_ipi R285, R286). -/
def State.assignIpiMask (c : Nat) (v : Word) (b : Bool) (s : State) : State :=
  s.setIpiMask c ((s.core c).ipiMask.assign (s.cfg.selects v) b)

theorem State.assignIpiPend_twice (s : State) (c : Nat) (v : Word) (b : Bool) :
    (s.assignIpiPend c v b).assignIpiPend c v b = s.assignIpiPend c v b := by
  refine (s.updCore_updCore c _ _).trans (updCore_congr ?_)
  rw [State.assignIpiPend, State.setIpiPend_core]
  split <;> simp [IpiBits.assign_assign_self]

theorem State.assignIpiMask_twice (s : State) (c : Nat) (v : Word) (b : Bool) :
    (s.assignIpiMask c v b).assignIpiMask c v b = s.assignIpiMask c v b := by
  refine (s.updCore_updCore c _ _).trans (updCore_congr ?_)
  rw [State.assignIpiMask, State.setIpiMask_core]
  split <;> simp [IpiBits.assign_assign_self]

/-! ## Register writes -/

/-- The meaning of the register write op: it is refused with r for the parameters where `bad`, else it is
recorded as ev and makes the update g, which takes no notice of the record and makes no difference when made
again. -/
structure IsRegisterWrite (op : Instr) (bad : Config → Bool) (r : RefuseReason) (ev : Config → Event)
    (g : State → State) : Prop where
  exec_eq : ∀ s, exec op s = .next (if bad s.cfg then s.refuse r else g (s.note (ev s.cfg)))
  cfg : ∀ s, (g s).cfg = s.cfg
  note : ∀ s e, g (s.note e) = (g s).note e
  twice : ∀ s, g (g s) = g s

/-- A register write made again changes nothing but the total order. -/
theorem IsRegisterWrite.again {op : Instr} {bad : Config → Bool} {r : RefuseReason}
    {ev : Config → Event} {g : State → State} (h : IsRegisterWrite op bad r ev g)
    (ht : exec op s = .next t) : ∃ u, exec op t = .next u ∧ u = { t with trace := u.trace } := by
  rw [h.exec_eq, Host.Outcome.next.injEq] at ht
  have hagain := h.exec_eq t
  by_cases hbad : bad s.cfg = true
  · rw [if_pos hbad] at ht
    subst ht
    rw [State.refuse_cfg, if_pos hbad] at hagain
    exact ⟨_, hagain, rfl⟩
  · rw [if_neg hbad] at ht
    have hcfg : t.cfg = s.cfg := by rw [← ht, h.cfg, State.note_cfg]
    have htwice : g t = t := by rw [← ht, h.twice]
    rw [hcfg, if_neg hbad, h.note, htwice] at hagain
    exact ⟨_, hagain, rfl⟩

/-- A write to a read-only register is refused for all parameters, so that its record and update do not
matter. -/
theorem isRegisterWrite_readOnly {op : Instr} (h : ∀ s, exec op s = .next (s.refuse .writeReadOnly)) :
    IsRegisterWrite op (fun _ => true) .writeReadOnly (fun _ => .handlerEnd 0) id :=
  ⟨h, fun _ => rfl, fun _ _ => rfl, fun _ => rfl⟩

/-- A write to a bank register is refused for no parameters. -/
theorem isRegisterWrite_bank {op : Instr} {k : AccessKind} {n : Nat} {v : Word} {loc : Nat → Loc}
    {f : Line → Line} (h : ∀ s, exec op s = .next (s.writeBank c k n v loc f))
    (hf : ∀ l, f (f l) = f l) :
    IsRegisterWrite op (fun _ => false) .reservedBit
      (fun cfg => .access c (some k) [] ((cfg.bankLines n v).map loc)) (fun s => s.updBank n v f) :=
  ⟨h, fun _ => rfl, fun _ _ => rfl, fun s => s.updBank_updBank_self n v hf⟩

theorem isRegisterWrite_target (c : Nat) (k : AccessKind) (i : Nat) (v : Word) :
    IsRegisterWrite (.writeTarget c k i v) (fun _ => false) .reservedBit
      (fun _ => .access c (some k) [] [.target i]) (fun s => s.updLine i fun l => { l with target := v }) :=
  ⟨fun _ => rfl, fun _ => rfl, fun _ _ => rfl, fun s => s.updLine_updLine_self i fun _ => rfl⟩

theorem isRegisterWrite_ipiSend (c : Nat) (k : AccessKind) (v : Word) :
    IsRegisterWrite (.writeIpiSend c k v) (fun cfg => cfg.badDestination v) .reservedBit
      (fun cfg => .access c (some k) [] ((setBits cfg.maxCores v).map fun t => .ipiPend t .other))
      (fun s => s.updCores fun t st =>
        if v.getLsbD t then { st with ipiPend := { st.ipiPend with other := true } } else st) := by
  refine ⟨fun s => (apply_ite Host.Outcome.next _ _ _).symm, fun _ => rfl, fun _ _ => rfl,
    fun s => s.updCores_updCores_self fun d k => ?_⟩
  split <;> rfl

theorem isRegisterWrite_ipiAck (c : Nat) (k : AccessKind) (v : Word) :
    IsRegisterWrite (.writeIpiAck c k v) (fun cfg => cfg.badSelector v) .reservedBit
      (fun cfg => .access c (some k) [] ((cfg.selected v).map (.ipiPend c)))
      (fun s => s.assignIpiPend c v false) :=
  ⟨fun _ => rfl, fun _ => rfl, fun _ _ => rfl, fun s => s.assignIpiPend_twice c v false⟩

/-- The two writes to the mask of the physical IPI lines (42_physical_ipi R285, R286). -/
theorem isRegisterWrite_ipiMask {op : Instr} {k : AccessKind} {v : Word} {b : Bool}
    (h : ∀ s, exec op s = .next (s.writeSelector c k v (.ipiMask c)
      fun t => t.setIpiMask c ((s.core c).ipiMask.assign (s.cfg.selects v) b))) :
    IsRegisterWrite op (fun cfg => cfg.badSelector v) .reservedBit
      (fun cfg => .access c (some k) [] ((cfg.selected v).map (.ipiMask c)))
      (fun s => s.assignIpiMask c v b) :=
  ⟨h, fun _ => rfl, fun _ _ => rfl, fun s => s.assignIpiMask_twice c v b⟩

/-- Settles O51: each register write is refused again, or makes again an update that makes no further
difference. -/
theorem registerWritesAreIdempotent : Obligations.RegisterWritesAreIdempotent := by
  unfold Obligations.RegisterWritesAreIdempotent
  intro s t c n i k v op hop ht
  simp only [List.mem_cons, List.not_mem_nil, or_false] at hop
  rcases hop with rfl | rfl | rfl | rfl | rfl | rfl | rfl | rfl | rfl | rfl | rfl | rfl
  · exact (isRegisterWrite_readOnly fun _ => rfl).again ht
  · exact (isRegisterWrite_readOnly fun _ => rfl).again ht
  · exact (isRegisterWrite_readOnly fun _ => rfl).again ht
  · exact (isRegisterWrite_ipiSend c k v).again ht
  · exact (isRegisterWrite_ipiAck c k v).again ht
  · exact (isRegisterWrite_ipiMask (b := true) fun _ => rfl).again ht
  · exact (isRegisterWrite_ipiMask (b := false) fun _ => rfl).again ht
  · exact (isRegisterWrite_target c k i v).again ht
  all_goals exact (isRegisterWrite_bank (fun _ => by rfl) fun _ => by rfl).again ht

end Sys2Proof.Machine
end

section
/-!
PROOF. The packets of operations (spec/30_encoding.md R110, R111, R124, R125): decoding after encoding
gives the operation back, encoding after decoding the packet; and the reads of write-action registers
(R127).
-/

namespace Sys2Proof

variable {cfg : Config} {c n used : Nat} {p : Packet} {i j : Instr}

/-! ## The check of an operation -/

theorem failUnless_eq_none {q : Prop} [Decidable q] {e : Reject} : failUnless q e = none ↔ q := by
  simp [failUnless]

theorem ite_failUnless_eq_none {q r : Prop} [Decidable q] [Decidable r] {e e' : Reject} :
    (if q then failUnless r e else some e') = none ↔ q ∧ r := by
  by_cases hq : q <;> simp [hq]

theorem Instr.Wf.checkOperands_eq_none (h : i.Wf cfg) : i.checkOperands cfg = none := by
  rw [Instr.Wf, Instr.check] at h
  split at h
  · exact h
  · cases h

/-- Decoding answers an operation that the packet names and that exists. -/
theorem decode_eq_ok_iff : decode cfg c p = .ok i ↔ decodeRaw cfg c p = .ok i ∧ i.Wf cfg := by
  cases hraw : decodeRaw cfg c p with
  | reject e => simp [decode, hraw]
  | ok j =>
    rw [Decoded.ok.injEq]
    cases hj : j.check cfg with
    | none =>
      simp only [decode, hraw, hj]
      exact ⟨fun h => ⟨Decoded.ok.inj h, Decoded.ok.inj h ▸ hj⟩, fun h => congrArg _ h.1⟩
    | some e =>
      simp only [decode, hraw, hj]
      exact ⟨fun h => (nomatch h), fun ⟨h, hi⟩ => nomatch (h ▸ hj).symm.trans hi⟩

/-! ## Register transactions -/

theorem encode_busRead (cfg : Config) (c : Nat) (k : AccessKind) (r : Reg) :
    encode cfg (busRead c k r) = readPacket cfg k r := by
  cases r <;> rfl

theorem encode_busWrite (cfg : Config) (c : Nat) (k : AccessKind) (v : Word) (r : Reg) :
    encode cfg (busWrite c k v r) = writePacket cfg k r v := by
  cases r <;> rfl

theorem core_busRead (c : Nat) (k : AccessKind) (r : Reg) : (busRead c k r).core = c := by
  cases r <;> rfl

theorem core_busWrite (c : Nat) (k : AccessKind) (v : Word) (r : Reg) :
    (busWrite c k v r).core = c := by
  cases r <;> rfl

theorem decodeRaw_readPacket (h : cfg.RegmapWf) {k : AccessKind} {r : Reg} (hr : r.Valid cfg) :
    decodeRaw cfg c (readPacket cfg k r) = .ok (busRead c k r) := by
  have hcode : (readPacket cfg k r).code = 1 := (busPacket_fields cfg k r 0 (by decide)).1
  rw [decodeRaw, hcode]
  exact (if_pos ⟨rfl, rfl⟩).trans (decodeBus_busPacket h 0 _ (by decide) hr)

theorem decodeRaw_writePacket (h : cfg.RegmapWf) {k : AccessKind} {r : Reg} {v : Word}
    (hr : r.Valid cfg) : decodeRaw cfg c (writePacket cfg k r v) = .ok (busWrite c k v r) := by
  have hcode : (writePacket cfg k r v).code = 2 := (busPacket_fields cfg k r v (by decide)).1
  rw [decodeRaw, hcode]
  exact (if_pos rfl).trans (decodeBus_busPacket h v _ (by decide) hr)

/-- A packet that decodes as a register transaction is the packet of that register. -/
theorem eq_busPacket_of_decodeBus (h : cfg.RegmapWf) (hcode : p.code = n) (hd : p.d = 0)
    {make : AccessKind → Reg → Instr} (hi : decodeBus cfg p make = .ok i) :
    ∃ k r, i = make k r ∧ p = busPacket cfg n k r p.b := by
  obtain ⟨k, r, -, hmake, -, hp⟩ := busPacket_decodeBus h hi
  rw [hcode, hd] at hp
  exact ⟨k, r, hmake, hp⟩

/-! ## Operations named by their code -/

/-- Decoding such an operation's packet, when the operands read from its words are the operation's own. -/
theorem decodePlain_plainPacket {a b d : Word} (hn : n < 256)
    (hused : (a = 0 ∨ 1 ≤ used) ∧ (b = 0 ∨ 2 ≤ used) ∧ (d = 0 ∨ 3 ≤ used)) (hij : j = i) :
    decodePlain (plainPacket n a b d) used j = .ok i := by
  obtain ⟨ha, hb, hd⟩ := hused
  rw [hij]
  exact decodePlain_ok (plainPacket_code a b d hn).2 ha hb hd

/-- A packet that decodes as such an operation is zero beyond the operands used. -/
theorem eq_plainPacket_of_decodePlain (hcode : p.code = n) (hi : decodePlain p used i = .ok j) :
    j = i ∧ p = plainPacket n (if 1 ≤ used then p.a else 0) (if 2 ≤ used then p.b else 0)
      (if 3 ≤ used then p.d else 0) := by
  obtain ⟨hj, hh, ha, hb, hd⟩ := decodePlain_eq hi
  rw [hcode] at hh
  have keep : ∀ {m : Nat} {w : Word}, w = 0 ∨ m ≤ used → w = if m ≤ used then w else 0 := by
    rintro m w (rfl | h)
    · exact (ite_self _).symm
    · exact (if_pos h).symm
  refine ⟨hj, ?_⟩
  rw [plainPacket, ← hh, ← keep ha, ← keep hb, ← keep hd]

/-- Encoding again what such a packet decodes to. -/
theorem encode_of_decodePlain (hcode : p.code = n) (hi : decodePlain p used i = .ok j)
    (hencode : encode cfg i = plainPacket n (if 1 ≤ used then p.a else 0)
      (if 2 ≤ used then p.b else 0) (if 3 ≤ used then p.d else 0))
    (hcore : i.core = c) : encode cfg j = p ∧ j.core = c := by
  obtain ⟨rfl, hp⟩ := eq_plainPacket_of_decodePlain hcode hi
  exact ⟨hencode.trans hp.symm, hcore⟩

theorem boolCode_of {w : Word} {v : Bool} (h : boolOfCode w.toNat = some v) : boolCode v = w := by
  apply BitVec.eq_of_toNat_eq
  match hw : w.toNat, h with
  | 0, rfl => rfl
  | 1, rfl => rfl

theorem domCode_of {w : Word} {dom : Dom} (h : domOfCode w.toNat = some dom) : domCode dom = w := by
  apply BitVec.eq_of_toNat_eq
  match hw : w.toNat, h with
  | 0, rfl => rfl
  | 1, rfl => rfl
  | 2, rfl => rfl

theorem toNat_ofNat_word {t : Nat} (h : t < 2 ^ 32) : (BitVec.ofNat 32 t).toNat = t :=
  Nat.mod_eq_of_lt h

/-! ## Decoding after encoding -/

/-- The operand words hold what the check of each operation bounds: a register that exists, or numbers
below 2^32. -/
theorem decodeRaw_encode (h : cfg.Wf) (hi : i.Wf cfg) :
    decodeRaw cfg i.core (encode cfg i) = .ok i := by
  obtain ⟨hhw, -, ⟨-, hcores⟩, hmap, -⟩ := h
  have hops := hi.checkOperands_eq_none
  clear hi
  cases i with
  | readInfo c k | readWhoami c k | readEvent c k | readIpiSend c k | readIpiAck c k
  | readIpiMaskSet c k | readIpiMaskClr c k => exact decodeRaw_readPacket hmap trivial
  | writeInfo c k v | writeWhoami c k v | writeEvent c k v | writeIpiSend c k v | writeIpiAck c k v
  | writeIpiMaskSet c k v | writeIpiMaskClr c k v => exact decodeRaw_writePacket hmap trivial
  | readTarget c k n | readSwSet c k n | readSwClr c k n | readMaskSet c k n | readMaskClr c k n =>
    have hn := failUnless_eq_none.1 hops
    exact decodeRaw_readPacket hmap hn
  | writeTarget c k n v | writeSwSet c k n v | writeSwClr c k n v | writeMaskSet c k n v
  | writeMaskClr c k n v =>
    have hn := failUnless_eq_none.1 hops
    exact decodeRaw_writePacket hmap hn
  | fenceW c | fenceR c | fiqPoll c | vipiReceive c | trap c | drain c | classify c e | init c
  | cpuOnline c => exact decodePlain_plainPacket (by decide) (by simp) rfl
  | vipiEnRead c t | vipiEnOr c t m | vipiEnAndn c t m | vipiPendOr c t m | vipiPendXchg0 c t
  | hwDispatch c t | hwDisable c t | hwEnable c t | hwEoi c t | hwSetAffinity c t m | fiqMask c t
  | fiqUnmask c t | fiqEoi c t | vipiMask c t | vipiUnmask c t | fiqReadCause c t | silence c t
  | fiqDispatch c t | vipiSend c t m =>
    have ht : t < 2 ^ 32 := by
      simp only [Instr.checkOperands, failUnless_eq_none, ite_failUnless_eq_none] at hops
      omega
    exact decodePlain_plainPacket (by decide) (by simp)
      (by simp only [Instr.core, encode, plainPacket, toNat_ofNat_word ht])
  | fiqWriteArm c t v =>
    obtain ⟨-, ht⟩ := ite_failUnless_eq_none.1 hops
    cases v <;> exact decodePlain_plainPacket (by decide) (by simp)
      (by simp only [Instr.core, encode, plainPacket, toNat_ofNat_word ht])
  | resolve c kind index flags =>
    obtain ⟨hkind, hindex⟩ := failUnless_eq_none.1 hops
    exact decodePlain_plainPacket (by decide) (by simp)
      (by simp only [Instr.core, encode, plainPacket, toNat_ofNat_word hkind, toNat_ofNat_word hindex])
  | bind c dom idx h =>
    obtain ⟨-, hidx, hh⟩ := ite_failUnless_eq_none.1 hops
    cases dom <;> exact decodePlain_plainPacket (by decide) (by simp)
      (congrArg₂ _ (toNat_ofNat_word hidx) (toNat_ofNat_word hh))

/-- Settles O41: a well-formed operation's packet names it, and the check passes it. -/
theorem decodeOfEncode : Obligations.DecodeOfEncode := by
  unfold Obligations.DecodeOfEncode
  intro cfg i h hi
  exact decode_eq_ok_iff.2 ⟨decodeRaw_encode h hi, hi⟩

/-! ## Encoding after decoding -/

/-- Codes 1 and 2 are register transactions; codes 9 and 31 have an operand word of few values. -/
theorem encode_decodeRaw (h : cfg.RegmapWf) (hi : decodeRaw cfg c p = .ok i) :
    encode cfg i = p ∧ i.core = c := by
  unfold decodeRaw at hi
  split at hi
  case h_1 hcode =>
    split at hi
    · rename_i hzero
      obtain ⟨k, r, rfl, hp⟩ := eq_busPacket_of_decodeBus h hcode hzero.2 hi
      rw [hzero.1] at hp
      exact ⟨(encode_busRead ..).trans hp.symm, core_busRead ..⟩
    · cases hi
  case h_2 hcode =>
    split at hi
    · rename_i hzero
      obtain ⟨k, r, rfl, hp⟩ := eq_busPacket_of_decodeBus h hcode hzero hi
      exact ⟨(encode_busWrite ..).trans hp.symm, core_busWrite ..⟩
    · cases hi
  case h_9 hcode =>
    split at hi
    · cases hi
    · rename_i v hv
      exact encode_of_decodePlain hcode hi (by simp [encode, boolCode_of hv]) rfl
  case h_31 hcode =>
    split at hi
    · cases hi
    · rename_i dom hdom
      exact encode_of_decodePlain hcode hi (by simp [encode, domCode_of hdom]) rfl
  case h_34 => cases hi
  all_goals
    rename_i hcode
    exact encode_of_decodePlain hcode hi (by simp [encode]) rfl

/-- Settles O42: the packet's operation code and operands are those the encoder gives. -/
theorem encodeOfDecode : Obligations.EncodeOfDecode := by
  unfold Obligations.EncodeOfDecode
  intro cfg c p i h hi
  obtain ⟨-, -, -, hmap, -⟩ := h
  obtain ⟨hraw, hwf⟩ := decode_eq_ok_iff.1 hi
  obtain ⟨hp, hcore⟩ := encode_decodeRaw hmap hraw
  exact ⟨hp, hcore, hwf⟩

/-- Settles O43: each transaction, written out, evaluated. -/
theorem sampleTransactionsDecode : Obligations.SampleTransactionsDecode := by
  unfold Obligations.SampleTransactionsDecode
  decide

end Sys2Proof

namespace Sys2Proof.Machine

open Sys2Proof

/-- Settles O8: the meaning of each of these reads is the read of a drawn word. -/
theorem writeActionReadsAreDraws : Obligations.WriteActionReadsAreDraws := by
  unfold Obligations.WriteActionReadsAreDraws
  intro s c n k hs hc
  obtain ⟨-, -, hcores, -⟩ := hs
  have hdrawn : s.Answers (s.readDrawn c k) c (.word (Config.freeWord s.draws)) ∧
      (s.readDrawn c k).draws = s.draws + 1 := ⟨answers_readDrawn (hcores ▸ hc) k, rfl⟩
  constructor
  · intro i hi
    simp only [List.mem_cons, List.not_mem_nil, or_false] at hi
    rcases hi with rfl | rfl | rfl | rfl <;> exact ⟨_, rfl, hdrawn⟩
  · intro _ i hi
    simp only [List.mem_cons, List.not_mem_nil, or_false] at hi
    rcases hi with rfl | rfl | rfl | rfl <;> exact ⟨_, rfl, hdrawn⟩

end Sys2Proof.Machine
end

section
/-!
PROOF. The status-mux, identity and information registers (40_status_mux): what an EVENT word names, what
waits for a core, and what one EVENT read answers and masks.
-/

namespace Sys2Proof

open Sys2Proof.Machine

variable {cfg : Config} {w : Word} {e e' : EventKind}

/-- The word w is read as the event e, by its type and index fields (30_encoding R115, R116). -/
def Config.WordNames (cfg : Config) (w : Word) : EventKind → Prop
  | .hw i => eventType w = cfg.evTypeHw ∧ (eventIndex w).toNat = i
  | .ipi .other => eventType w = cfg.evTypeIpi ∧ eventIndex w = cfg.evIpiOther
  | .ipi .self => eventType w = cfg.evTypeIpi ∧ eventIndex w = cfg.evIpiSelf

/-- An event's word names it, where the number of a line fits the index field. -/
theorem wordNames_eventWord (cfg : Config) (h : ∀ i, e = .hw i → i < 2 ^ 16) :
    cfg.WordNames (cfg.eventWord e) e := by
  match e with
  | .hw i =>
    refine ⟨eventType_append .., ?_⟩
    rw [Config.eventWord, eventIndex_append, BitVec.toNat_ofNat, Nat.mod_eq_of_lt (h i rfl)]
  | .ipi .other | .ipi .self => exact ⟨eventType_append .., eventIndex_append ..⟩

/-- A word is not read as two events: the types differ, and of one type the indices do. -/
theorem Config.WordNames.unique (h : cfg.CodesWf) (he : cfg.WordNames w e) (he' : cfg.WordNames w e') :
    e = e' := by
  obtain ⟨htype, -, -, hindex, -⟩ := h
  match e, e' with
  | .hw _, .hw _ => exact congrArg EventKind.hw (he.2.symm.trans he'.2)
  | .hw _, .ipi .other | .hw _, .ipi .self => exact absurd (he.1.symm.trans he'.1) htype
  | .ipi .other, .hw _ | .ipi .self, .hw _ => exact absurd (he'.1.symm.trans he.1) htype
  | .ipi .other, .ipi .self => exact absurd (he.2.symm.trans he'.2) hindex
  | .ipi .self, .ipi .other => exact absurd (he'.2.symm.trans he.2) hindex
  | .ipi .other, .ipi .other | .ipi .self, .ipi .self => rfl

end Sys2Proof

namespace Sys2Proof.Machine

open Sys2Proof

variable {c : Nat} {k : AccessKind} {e : EventKind} {s t : State}

/-! ## Identity and information registers -/

/-- Settles O1: both reads answer a word and record the access; INFO is its two halves. -/
theorem identityReads : Obligations.IdentityReads := by
  unfold Obligations.IdentityReads
  intro s c k hs hc
  have hlt := hs.core_lt hc
  refine ⟨⟨_, rfl, answers_access hlt ..⟩, ⟨_, rfl, answers_access hlt ..⟩, ?_, high_append ..⟩
  obtain ⟨⟨hnr, -⟩, -⟩ := hs
  rw [lineCount, Config.info, low_append, BitVec.toNat_ofNat, Nat.mod_eq_of_lt (by omega)]

/-- Settles O2: the meaning of each of the three writes is the refusal. -/
theorem readOnlyWritesRefused : Obligations.ReadOnlyWritesRefused := by
  unfold Obligations.ReadOnlyWritesRefused
  intro s c k v i hi
  simp only [List.mem_cons, List.not_mem_nil, or_false] at hi
  rcases hi with rfl | rfl | rfl <;> rfl

/-! ## What waits for a core -/

theorem hwElig_iff (s : State) (i c : Nat) : s.hwElig i c = true ↔
    c < s.cfg.maxCores ∧ ((s.line i).level = true ∨ (s.line i).sw = true) ∧
      (s.line i).mask = false ∧ (s.line i).target.getLsbD c = true := by
  simp [State.hwElig, State.hwReq, and_assoc]

theorem ipiElig_iff (s : State) (c : Nat) (sel : Sel) : s.ipiElig c sel = true ↔
    (s.core c).ipiPend.get sel = true ∧ (s.core c).ipiMask.get sel = false := by
  simp [State.ipiElig]

/-- Settles O5: membership in EV(c) is eligibility, written out for a line and for each physical IPI line. -/
theorem waitingEventsAreTheEligibleOnes : Obligations.WaitingEventsAreTheEligibleOnes := by
  unfold Obligations.WaitingEventsAreTheEligibleOnes
  intro s c
  refine ⟨fun i => ?_, ?_, ?_⟩
  · rw [events_hw, hwElig_iff]
  · exact (events_ipi ..).trans (ipiElig_iff ..)
  · exact (events_ipi ..).trans (ipiElig_iff ..)

/-- What waits does not depend on the answer a core has. -/
theorem events_reply (s : State) (c d : Nat) (r : Result) : (s.reply c r).events d = s.events d := by
  simp [State.events, State.hwElig, State.hwReq, State.ipiElig]

/-- The word of an event that waits names it. -/
theorem wordNames_of_mem_events (hs : s.Shaped) (he : e ∈ s.events c) :
    s.cfg.WordNames (s.cfg.eventWord e) e := by
  obtain ⟨⟨hnr, -⟩, -⟩ := hs
  refine wordNames_eventWord _ ?_
  rintro i rfl
  have hi := ((events_hw s c i).1 he).1
  omega

/-- An event that is masked for a core does not wait for it (40_status_mux R208). -/
theorem not_mem_events_autoMask (hs : s.Shaped) (hc : c < s.cfg.maxCores) (e : EventKind) :
    e ∉ (s.autoMask c e).events c := by
  cases e with
  | hw i =>
    rw [events_hw]
    rintro ⟨hi, helig⟩
    have hmask : ((s.autoMask c (.hw i)).line i).mask = true := by
      rw [State.autoMask, State.updLine_line_self _ _ _ (hs.line_lt hi)]
    rw [hwElig_false (.inl hmask)] at helig
    cases helig
  | ipi sel =>
    rw [events_ipi]
    have hmask : (((s.autoMask c (.ipi sel)).core c).ipiMask).get sel = true := by
      rw [State.autoMask, State.setIpiMask_core_self _ _ _ (hs.core_lt hc)]
      cases sel <;> rfl
    rw [ipiElig_false (.inl hmask)]
    exact Bool.false_ne_true

/-! ## EVENT reads -/

theorem exec_readEvent (c : Nat) (k : AccessKind) (s : State) : exec (.readEvent c k) s =
    .next ((s.readEvent c k).2.reply c (.word (s.readEvent c k).1)) := rfl

theorem exec_readEvent_empty (k : AccessKind) (h : s.events c = []) :
    exec (.readEvent c k) s = .next ((s.access c (some k) [] []).reply c (.word 0)) := by
  rw [exec_readEvent, readEvent_none k h]

/-- With an event waiting, the read answers the word of one of them and masks it. -/
theorem exec_readEvent_waiting (k : AccessKind) (h : s.events c ≠ []) :
    ∃ e n, e ∈ s.events c ∧ exec (.readEvent c k) s =
      .next ((((s.withDraws n).note (.report c k e)).autoMask c e).reply c
        (.word (s.cfg.eventWord e))) := by
  obtain ⟨e, n, he, hread⟩ := readEvent_some k h
  exact ⟨e, n, he, by rw [exec_readEvent, hread]⟩

/-- Settles O3: the read answers 0 and records the access. -/
theorem emptyEventRead : Obligations.EmptyEventRead := by
  unfold Obligations.EmptyEventRead
  intro s c k hs hc hempty
  exact ⟨_, exec_readEvent_empty k hempty, answers_access (hs.core_lt hc) ..⟩

theorem otherCores_autoMask_reply (s : State) (c : Nat) (e : EventKind) (r : Result) :
    s.OtherCores ((s.autoMask c e).reply c r) c := by
  intro d hd
  rw [State.reply, State.updCore_core_other _ _ hd]
  cases e with
  | hw i => rfl
  | ipi sel => exact State.updCore_core_other _ _ hd

theorem autoMask_ipi_reply_core (hc : c < s.cores.length) (sel : Sel) (r : Result) :
    ((s.autoMask c (.ipi sel)).reply c r).core c = { s.core c with
      ret := r, ipiMask := (s.core c).ipiMask.assign (· == sel) true } := by
  simp [State.autoMask, State.reply_core, State.setIpiMask_core, hc]

/-- Settles O4: the word of the reported event names it, and the auto-mask is of its kind. -/
theorem eventReadReportsAndMasks : Obligations.EventReadReportsAndMasks := by
  unfold Obligations.EventReadReportsAndMasks
  intro s c k hs hc hne
  obtain ⟨e, n, he, hexec⟩ := exec_readEvent_waiting k hne
  have hname := wordNames_of_mem_events hs he
  have hcore := hs.core_lt hc
  refine ⟨_, e, s.cfg.eventWord e, hexec, he,
    ((((State.SameRest.refl s).withDraws n).note (Event.quiet_report c k e)).autoMask c e).reply c _,
    otherCores_autoMask_reply ((s.withDraws n).note (.report c k e)) c e _, ?_⟩
  match e with
  | .hw i =>
    have hline := hs.line_lt ((events_hw s c i).1 he).1
    exact ⟨hname, fun j hj => State.updLine_line_other _ _ hj, State.updLine_line_self _ _ _ hline,
      State.updCore_core_self _ _ _ hcore⟩
  | .ipi .other | .ipi .self =>
    exact ⟨hname, rfl,
      autoMask_ipi_reply_core (s := (s.withDraws n).note (.report c k _)) hcore _ _⟩

/-- What an EVENT read answers: 0, or the word of an event that waited and does not wait after it. -/
theorem exec_readEvent_ret (hs : s.Shaped) (hc : c < s.cfg.maxCores)
    (h : exec (.readEvent c k) s = .next t) : t.cfg = s.cfg ∧
    ((t.core c).ret = .word 0 ∨
      ∃ e ∈ s.events c, (t.core c).ret = .word (s.cfg.eventWord e) ∧ e ∉ t.events c) := by
  have hcore := hs.core_lt hc
  by_cases hev : s.events c = []
  · rw [exec_readEvent_empty k hev] at h
    cases h
    exact ⟨rfl, .inl (State.reply_core_self _ _ _ hcore)⟩
  · obtain ⟨e, n, he, hexec⟩ := exec_readEvent_waiting k hev
    rw [hexec] at h
    cases h
    have hu : ((s.withDraws n).note (.report c k e)).Shaped := hs
    refine ⟨((State.SameRest.refl _).autoMask c e).cfg, .inr ⟨e, he, ?_, ?_⟩⟩
    · rw [State.reply_core_self _ _ _ (hu.autoMask.core_lt ?_)]
      cases e <;> exact hc
    · rw [events_reply]
      exact not_mem_events_autoMask hu hc e

/-- Settles O7: the event a word names is masked once the word is answered, so it does not wait for the
next read, and no other event has this word. -/
theorem noDuplicateReport : Obligations.NoDuplicateReport := by
  unfold Obligations.NoDuplicateReport
  intro s t u c k k' w hs hc ht hw hne hu hdup
  have hst : t.Shaped := (hs.exec _).of_eq_next ht
  obtain ⟨hcfg, hzero | ⟨e, he, hret, hgone⟩⟩ := exec_readEvent_ret hs hc ht
  · exact hne (Result.word.inj (hw.symm.trans hzero))
  obtain ⟨-, hzero | ⟨e', he', hret', -⟩⟩ := exec_readEvent_ret hst (hcfg ▸ hc) hu
  · exact hne (Result.word.inj (hdup.symm.trans hzero))
  have hname : s.cfg.WordNames w e := by
    rw [Result.word.inj (hw.symm.trans hret)]
    exact wordNames_of_mem_events hs he
  have hname' : s.cfg.WordNames w e' := by
    rw [Result.word.inj (hdup.symm.trans hret'), ← hcfg]
    exact wordNames_of_mem_events hst he'
  obtain ⟨-, -, -, -, hcodes, -⟩ := hs.1
  exact hgone (hname.unique hcodes hname' ▸ he')

end Sys2Proof.Machine
end

section
/-!
PROOF. The hardware lines (41_hw_lines): the bank registers and TARGET, and the composite operations of
the hardware IRQ domain performed alone to their end.
-/

namespace Sys2Proof.Machine

open Sys2Proof

variable {c i n : Nat} {m : Word} {l : Line} {r : Result} {s t : State}

/-! ## The line and bank registers -/

/-- Settles O9: both writes are the write to a bank register. -/
theorem maskBankWrites : Obligations.MaskBankWrites := by
  unfold Obligations.MaskBankWrites
  intro s c n k v hs _ _
  obtain ⟨-, hlines, -⟩ := hs
  exact ⟨⟨_, rfl, bankChanged_writeBank hlines ..⟩, ⟨_, rfl, bankChanged_writeBank hlines ..⟩⟩

/-- Settles O10: both writes are the write to a bank register. -/
theorem softwareTriggerBankWrites : Obligations.SoftwareTriggerBankWrites := by
  unfold Obligations.SoftwareTriggerBankWrites
  intro s c n k v hs _ _
  obtain ⟨-, hlines, -⟩ := hs
  exact ⟨⟨_, rfl, bankChanged_writeBank hlines ..⟩, ⟨_, rfl, bankChanged_writeBank hlines ..⟩⟩

/-- A write to TARGET changes its line, and is recorded. -/
theorem lineBecomes_writeTarget (hi : i < s.lines.length) (c : Nat) (k : AccessKind) (v : Word) :
    s.LineBecomes ((s.access c (some k) [] [.target i]).updLine i fun l => { l with target := v }) i
      { s.line i with target := v } :=
  ⟨((State.SameRest.refl s).access ..).updLine i _, rfl,
    fun _ hj => (s.access ..).updLine_line_other _ hj, (s.access ..).updLine_line_self i _ hi⟩

/-- Settles O11: the read answers the line's word, the write stores all of its data. -/
theorem targetRegister : Obligations.TargetRegister := by
  unfold Obligations.TargetRegister
  intro s c i k v hs hc hi
  exact ⟨⟨_, rfl, answers_access (hs.core_lt hc) ..⟩,
    ⟨_, rfl, lineBecomes_writeTarget (hs.line_lt hi) ..⟩⟩

/-! ## A line changed and an answer given, update by update -/

theorem State.LineBecomesWith.refl (s : State) (i c : Nat) :
    s.LineBecomesWith s i (s.line i) c (s.core c).ret :=
  ⟨.refl s, fun _ _ => rfl, rfl, fun _ _ => rfl, rfl⟩

theorem State.LineBecomesWith.access (h : s.LineBecomesWith t i l c r) {b : Nat}
    {k : Option AccessKind} {rs ws : List Loc} : s.LineBecomesWith (t.access b k rs ws) i l c r := by
  obtain ⟨hrest, hother, hline, hcores, hcore⟩ := h
  exact ⟨hrest.access .., hother, hline, hcores, hcore⟩

theorem State.LineBecomesWith.withDraws (h : s.LineBecomesWith t i l c r) :
    s.LineBecomesWith (t.withDraws n) i l c r := by
  obtain ⟨hrest, hother, hline, hcores, hcore⟩ := h
  exact ⟨hrest.withDraws n, hother, hline, hcores, hcore⟩

theorem State.LineBecomesWith.updLine (h : s.LineBecomesWith t i l c r) (hi : i < s.lines.length)
    (f : Line → Line) : s.LineBecomesWith (t.updLine i f) i (f l) c r := by
  obtain ⟨hrest, hother, hline, hcores, hcore⟩ := h
  obtain ⟨-, hlen, -⟩ := id hrest
  refine ⟨hrest.updLine i f, fun j hj => ?_, ?_, hcores, hcore⟩
  · rw [State.updLine_line_other _ _ hj, hother j hj]
  · rw [State.updLine_line_self _ _ _ (hlen ▸ hi), hline]

/-- A write of the bit of line i to its bank changes line i alone (30_encoding R119). -/
theorem State.updBank_bitOf (s : State) (i : Nat) (f : Line → Line) :
    s.updBank (bankOf i) (bitOf i) f = s.updLine i f := by
  unfold State.updBank State.updLine
  congr 1
  apply List.ext_getElem?
  intro j
  rw [getElem?_mapFrom, List.getElem?_modify, Nat.zero_add, inBank_bitOf]
  by_cases hj : j = i <;> simp [hj, Ne.symm]

theorem State.LineBecomesWith.writeBit (h : s.LineBecomesWith t i l c r) (hi : i < s.lines.length)
    {b : Nat} {k : AccessKind} {loc : Nat → Loc} (f : Line → Line) :
    s.LineBecomesWith (t.writeBank b k (bankOf i) (bitOf i) loc f) i (f l) c r := by
  rw [State.writeBank, State.updBank_bitOf]
  exact h.access.updLine hi f

theorem State.LineBecomesWith.reply (h : s.LineBecomesWith t i l c r) (hc : c < s.cores.length)
    (r' : Result) : s.LineBecomesWith (t.reply c r') i l c r' := by
  obtain ⟨hrest, hother, hline, hcores, hcore⟩ := h
  obtain ⟨-, -, hlen, -⟩ := id hrest
  refine ⟨hrest.reply c r', hother, hline, fun d hd => ?_, ?_⟩
  · rw [State.reply, State.updCore_core_other _ _ hd, hcores d hd]
  · rw [State.reply, State.updCore_core_self _ _ _ (hlen ▸ hc), hcore]

/-- What is the frame while the lock is held is the frame once it is free again, as it was before. -/
theorem State.SameRest.unlock {o : Option Nat} (hfree : s.affLock = none)
    (h : (s.withAffLock o).SameRest t) : s.SameRest (t.withAffLock none) := by
  obtain ⟨hext, hlines, hcores, heq⟩ := h
  refine ⟨hext, hlines, hcores, ?_⟩
  rw [heq, ← hfree]
  rfl

theorem State.LineBecomesWith.unlock {o : Option Nat} (hfree : s.affLock = none)
    (h : (s.withAffLock o).LineBecomesWith t i l c r) :
    s.LineBecomesWith (t.withAffLock none) i l c r := by
  obtain ⟨hrest, hother, hline, hcores, hcore⟩ := h
  exact ⟨hrest.unlock hfree, hother, hline, hcores, hcore⟩

/-- Core c is changed by f, after records only. -/
theorem coreBecomes_updCore (h : s.SameRest t) (hlines : t.lines = s.lines) (hcores : t.cores = s.cores)
    (hc : c < s.cores.length) (f : CoreState → CoreState) :
    s.CoreBecomes (t.updCore c f) c (f (s.core c)) := by
  have hcore : ∀ d, t.core d = s.core d := fun d => by rw [State.core_def, State.core_def, hcores]
  refine ⟨h.updCore c f, hlines, fun d hd => ?_, ?_⟩
  · rw [State.updCore_core_other _ _ hd, hcore]
  · rw [State.updCore_core_self _ _ _ (hcores ▸ hc), hcore]

/-! ## The control steps, with steps still to perform after them -/

theorem seqStep_setHwDisabled (s : State) (c i : Nat) (v : Bool) (q : List SeqStep) :
    seqStep c (.setHwDisabled i v) (s.call c q) = .next ((s.setHwDisabled c i v).call c q) := rfl

theorem seqStep_ret (s : State) (c : Nat) (r : Result) (q : List SeqStep) :
    seqStep c (.ret r) (s.call c q) = .next ((s.reply c r).call c q) :=
  congrArg Host.Outcome.next (s.call_reply c c q r)

theorem seqStep_hwEoiRead (s : State) (c i : Nat) (q : List SeqStep) :
    seqStep c (.hwEoiRead i) (s.call c q) = .next ((s.hwEoiRead c i).call c q) :=
  congrArg Host.Outcome.next ((s.access c none [.hwDisabled i] []).call_reply c c q _)

/-- The test of HW_EOI leaves a disabled line as it is. -/
theorem seqStep_hwEoiTest_disabled (h : (s.core c).ret = .bit true) (q : List SeqStep) :
    seqStep c (.hwEoiTest i) (s.call c q) = .next (s.call c q) :=
  if_pos (by rw [State.call_core_ret, h]; rfl)

/-- The test of HW_EOI unmasks a line that is not disabled. -/
theorem seqStep_hwEoiTest_enabled (h : (s.core c).ret = .bit false) (q : List SeqStep) :
    seqStep c (.hwEoiTest i) (s.call c q) = .next ((s.writeBank c .relaxed (bankOf i) (bitOf i) .mask
      fun l => { l with mask := false }).call c q) :=
  if_neg (by rw [State.call_core_ret, h]; exact Bool.false_ne_true)

theorem seqStep_affUnlock (s : State) (c : Nat) (q : List SeqStep) :
    seqStep c .affUnlock (s.call c q) = .next ((s.affUnlockStep c).call c q) := rfl

theorem seqStep_writeTarget (s : State) (c i : Nat) (v : Word) (q : List SeqStep) :
    seqStep c (.op (.writeTarget c .relaxed i v)) (s.call c q) =
      .next (((s.access c (some .relaxed) [] [.target i]).updLine i
        fun l => { l with target := v }).call c q) := rfl

/-- One step, then the others. -/
theorem alone_step {x : SeqStep} {q : List SeqStep} {u : State} (hc : c < s.cores.length)
    (hstep : seqStep c x (s.call c q) = .next t) (hrest : alone c n t = .next u) :
    alone c (n + 1) (s.call c (x :: q)) = .next u :=
  (alone_call s n hc hstep).trans hrest

theorem alone_done (s : State) (c : Nat) : alone c 0 (s.call c []) = .next s :=
  congrArg Host.Outcome.next (s.call_nil c)

/-! ## HW_DISABLE, HW_ENABLE and HW_EOI -/

/-- The steps of HW_DISABLE and HW_ENABLE: the value v goes to both flags of the line. -/
theorem alone_setMaskAndDisabled {write : Instr} {v : Bool}
    (hwrite : ∀ (u : State) (q : List SeqStep), seqStep c (.op write) (u.call c q) = .next
      ((u.writeBank c .relaxed (bankOf i) (bitOf i) .mask fun l => { l with mask := v }).call c q))
    (hc : c < s.cores.length) (hi : i < s.lines.length) :
    ∃ t, alone c 3 (s.call c [.setHwDisabled i v, .op write, .ret .ok]) = .next t ∧
      s.LineBecomesWith t i { s.line i with mask := v, hwDisabled := v } c .ok :=
  ⟨_, alone_step hc (seqStep_setHwDisabled ..) <| alone_step hc (hwrite ..) <|
    alone_step hc (seqStep_ret ..) (alone_done ..),
    (((State.LineBecomesWith.refl s i c).access.updLine hi _).writeBit hi _).reply hc _⟩

/-- Settles O12: both operations write the two flags of the line, with one value. -/
theorem hwDisableAndEnable : Obligations.HwDisableAndEnable := by
  unfold Obligations.HwDisableAndEnable
  intro s c i hs hc hi
  have hlt := hs.core_lt hc
  have hline := hs.line_lt hi
  exact ⟨⟨_, onLine_lt hi c _, alone_setMaskAndDisabled (fun _ _ => rfl) hlt hline⟩,
    ⟨_, onLine_lt hi c _, alone_setMaskAndDisabled (fun _ _ => rfl) hlt hline⟩⟩

/-- Settles O13: the test of the bit read decides whether the line is unmasked. -/
theorem hwEoiRestoresTheLine : Obligations.HwEoiRestoresTheLine := by
  unfold Obligations.HwEoiRestoresTheLine
  intro s c i hs hc hi
  have hline := hs.line_lt hi
  have hlt := hs.core_lt hc
  have hread : s.LineBecomesWith (s.hwEoiRead c i) i (s.line i) c (.bit (s.line i).hwDisabled) :=
    (State.LineBecomesWith.refl s i c).access.reply hlt _
  have hret : ((s.hwEoiRead c i).core c).ret = .bit (s.line i).hwDisabled :=
    State.reply_core_self _ _ _ hlt
  have hlt' : c < (s.hwEoiRead c i).cores.length := by simpa [State.hwEoiRead] using hlt
  refine ⟨_, onLine_lt hi c _, ?_⟩
  cases hdis : (s.line i).hwDisabled with
  | true =>
    exact ⟨_, alone_step hlt (seqStep_hwEoiRead ..) <|
      alone_step hlt' (seqStep_hwEoiTest_disabled (hdis ▸ hret) _) <|
      alone_step hlt' (seqStep_ret ..) (alone_done ..), hread.reply hlt .ok⟩
  | false =>
    exact ⟨_, alone_step hlt (seqStep_hwEoiRead ..) <|
      alone_step hlt' (seqStep_hwEoiTest_enabled (hdis ▸ hret) _) <|
      alone_step hlt' (seqStep_ret ..) (alone_done ..), (hread.writeBit hline _).reply hlt .ok⟩

/-! ## HW_SET_AFFINITY -/

theorem mem_onlineOf (cfg : Config) (m : Word) (τ : Nat) : τ ∈ Config.onlineOf cfg m ↔
    τ < cfg.maxCores ∧ m.getLsbD τ = true ∧ cfg.online.getLsbD τ = true := by
  simp only [Config.onlineOf, List.mem_filter, mem_setBits, Config.isOnline, Bool.and_eq_true,
    decide_eq_true_eq]
  tauto

/-- Core c takes `aff_lock`, which is free. -/
def State.takeAffLock (s : State) (c : Nat) : State :=
  (s.withAffLock (some c)).access c none [.affLock] [.affLock]

theorem seqStep_affLock_free (h : s.affLock = none) (c i : Nat) (m : Word) :
    seqStep c (.affLock i m) (s.call c []) = .next ((s.takeAffLock c).call c [.affChoose i m]) := by
  rw [State.call_nil, seqStep, State.affLockStep, h, State.takeAffLock]

/-- A core waits at the step while the lock is held. -/
theorem seqStep_affLock_held {d : Nat} (h : s.affLock = some d) (c i : Nat) (m : Word) :
    seqStep c (.affLock i m) (s.call c []) = .next (s.call c [.affLock i m]) := by
  rw [State.call_nil, seqStep, State.affLockStep, h]

/-- A step that leaves itself to perform is performed over and over, to no effect. -/
theorem alone_stutter {x : SeqStep} {q : List SeqStep} (hc : c < s.cores.length)
    (h : seqStep c x (s.call c q) = .next (s.call c (x :: q))) (n : Nat) :
    alone c n (s.call c (x :: q)) = .next (s.call c (x :: q)) := by
  induction n with
  | zero => rfl
  | succ n ih => exact alone_step hc h ih

theorem seqStep_affChoose_none (h : Config.onlineOf s.cfg m = []) (c i : Nat) :
    seqStep c (.affChoose i m) (s.call c []) =
      .next (s.call c [.affUnlock, .ret (.err .affinity)]) := by
  rw [State.call_nil, seqStep, State.affChooseStep, h]
  rfl

theorem seqStep_affChoose_some {τ : Nat}
    (h : s.choose (Config.onlineOf s.cfg m) = some (τ, s.withDraws n)) (c i : Nat) :
    seqStep c (.affChoose i m) (s.call c []) = .next ((s.withDraws n).call c
      [.op (.writeTarget c .relaxed i (oneBit τ)), .affUnlock, .ret (.core τ)]) := by
  rw [State.call_nil, seqStep, State.affChooseStep, h]

/-- Settles O14: the lock is taken and freed around the choice of an online core of m, or around the test
that finds none; a core that finds the lock held leaves itself the same step. -/
theorem hwSetAffinity : Obligations.HwSetAffinity := by
  unfold Obligations.HwSetAffinity
  intro s c i m hs hc hi
  have hlt := hs.core_lt hc
  have hline := hs.line_lt hi
  refine ⟨fun hfree hsome => ?_, fun hfree hnone => ?_, fun d n hheld => ?_⟩
  · obtain ⟨τ₀, hτ₀⟩ := hsome
    obtain ⟨τ, n, hchoose, hτ⟩ := (s.takeAffLock c).choose_of_ne
      (List.ne_nil_of_mem ((mem_onlineOf s.cfg m τ₀).2 hτ₀))
    obtain ⟨hlow, hmem, honline⟩ := (mem_onlineOf s.cfg m τ).1 hτ
    exact ⟨τ, hlow, hmem, honline, _, onLine_lt hi c _, _,
      alone_step hlt (seqStep_affLock_free hfree ..) <|
      alone_step hlt (seqStep_affChoose_some hchoose ..) <|
      alone_step hlt (seqStep_writeTarget ..) <| alone_step hlt (seqStep_affUnlock ..) <|
      alone_step hlt (seqStep_ret ..) (alone_done ..),
      (((State.LineBecomesWith.refl (s.withAffLock (some c)) i c).access.withDraws.access.updLine
        hline _).unlock hfree).access.reply hlt _⟩
  · have hempty : Config.onlineOf s.cfg m = [] := List.eq_nil_iff_forall_not_mem.2 fun τ hτ => by
      obtain ⟨hlow, hmem, honline⟩ := (mem_onlineOf s.cfg m τ).1 hτ
      rw [hnone τ hlow hmem] at honline
      cases honline
    exact ⟨_, onLine_lt hi c _, _,
      alone_step hlt (seqStep_affLock_free hfree ..) <|
      alone_step hlt (seqStep_affChoose_none (s := s.takeAffLock c) hempty ..) <|
      alone_step hlt (seqStep_affUnlock ..) <| alone_step hlt (seqStep_ret ..) (alone_done ..),
      coreBecomes_updCore ((((State.SameRest.refl (s.withAffLock (some c))).access ..).unlock
        hfree).access ..) rfl rfl hlt _⟩
  · exact ⟨_, onLine_lt hi c _, _, alone_stutter hlt (seqStep_affLock_held hheld c i m) n,
      coreBecomes_updCore (.refl s) rfl rfl hlt _⟩

/-! ## HW_DISPATCH -/

theorem exec_hwDispatch_unbound (hfe : (s.core c).fe = .draining) (h : s.bound .hw i = none) :
    exec (.hwDispatch c i) s =
      .next ((s.access c none [.bound .hw i] []).call c [.diag .unboundLine (.line .hw i)]) := by
  simp [exec, execHwDispatch, State.draining, hfe, h]

theorem exec_hwDispatch_bound (hfe : (s.core c).fe = .draining) (h : s.bound .hw i = some n) :
    exec (.hwDispatch c i) s =
      .next ((s.access c none [.bound .hw i] []).call c [.invoke .hw i, .op (.hwEoi c i)]) := by
  simp [exec, execHwDispatch, State.draining, hfe, h]

theorem seqStep_diag (s : State) (c : Nat) (code : DiagCode) (info : DiagInfo) (q : List SeqStep) :
    seqStep c (.diag code info) (s.call c q) = .next ((s.addDiag c code info).call c q) := rfl

/-- A bound line's handler begins before the steps that are still to perform. -/
theorem seqStep_invoke_bound {dom : Dom} {idx : Nat} (h : s.bound dom idx = some n) (c : Nat)
    (q : List SeqStep) : seqStep c (.invoke dom idx) (s.call c q) =
      .next ((s.note (.handler c dom idx n)).call c (.running dom idx n :: q)) := by
  rw [seqStep, invoke_bound (s := s.call c q) h, State.call_note, State.call_call]
  rfl

/-- Settles O15: the read of `bound` leads to the one or the other first step, which is then performed. -/
theorem hwDispatch : Obligations.HwDispatch := by
  unfold Obligations.HwDispatch
  intro s c i hs hc _ hfe
  have hlt := hs.core_lt hc
  refine ⟨fun hunbound => ?_, fun h hbound => ?_⟩
  · exact ⟨_, exec_hwDispatch_unbound hfe hunbound, _,
      alone_step hlt (seqStep_diag ..) (alone_done ..),
      ((State.Extends.refl s).note (Event.quiet_access _ _ _ _)).addDiag .., rfl⟩
  · exact ⟨_, exec_hwDispatch_bound hfe hbound, _,
      alone_step hlt
        (seqStep_invoke_bound ((State.access_bound s _ _ _ _ _ _).trans hbound) ..) rfl, ⟨[_], rfl⟩,
      coreBecomes_updCore (((State.SameRest.refl s).access ..).note (Event.quiet_handler _ _ _ _))
        rfl rfl hlt _⟩

end Sys2Proof.Machine
end

section
/-!
PROOF. The physical IPI unit (42_physical_ipi): what a write to IPI_SEND and a write to each of the three
selector registers changes, and when each is refused.
-/

namespace Sys2Proof.Machine

open Sys2Proof

variable {c : Nat} {k : AccessKind} {v : Word} {s : State}

/-! ## IPI_SEND -/

theorem badDestination_true (cfg : Config) (v : Word) :
    cfg.badDestination v = true ↔ ∃ b, v.getLsbD b = true ∧ cfg.maxCores ≤ b := by
  rw [← Bool.not_eq_false, badDestination_false]
  simp only [not_forall, not_lt, exists_prop]

theorem exec_writeIpiSend_ok (h : s.cfg.badDestination v = false) (c : Nat) (k : AccessKind) :
    exec (.writeIpiSend c k v) s = .next
      ((s.access c (some k) [] ((setBits s.cfg.maxCores v).map fun t => .ipiPend t .other)).updCores
        fun t st => if v.getLsbD t then { st with ipiPend := { st.ipiPend with other := true } } else st) :=
  if_neg (by rw [h]; exact Bool.false_ne_true)

theorem exec_writeIpiSend_bad (h : s.cfg.badDestination v = true) (c : Nat) (k : AccessKind) :
    exec (.writeIpiSend c k v) s = .next (s.refuse .reservedBit) := if_pos h

/-- Settles O17: a bit at or above MAX_CORES decides whether the write is refused; if not, each core's bit of
v is ored into its other IPI. -/
theorem ipiSend : Obligations.IpiSend := by
  unfold Obligations.IpiSend
  intro s c k v hs _
  refine ⟨fun hin => ?_, fun hout => exec_writeIpiSend_bad ((badDestination_true ..).2 hout) c k⟩
  refine ⟨_, exec_writeIpiSend_ok ((badDestination_false ..).2 hin) c k,
    ((State.SameRest.refl s).access ..).updCores _, rfl, fun d hd => ?_⟩
  rw [State.updCores_core, State.access_cores, if_pos (hs.core_lt hd), State.access_core]
  cases v.getLsbD d <;> simp

/-! ## IPI_ACK, IPI_MASK_SET and IPI_MASK_CLR -/

theorem badSelector_true (cfg : Config) (v : Word) : cfg.badSelector v = true ↔
    ∃ b, v.getLsbD b = true ∧ b ≠ cfg.ipiOtherBit ∧ b ≠ cfg.ipiSelfBit := by
  rw [← Bool.not_eq_false, badSelector_false]
  simp only [not_forall, not_or, exists_prop, ne_eq]

theorem IpiBits.assign_selects_true (b : IpiBits) (cfg : Config) (v : Word) :
    b.assign (cfg.selects v) true =
      ⟨b.other || v.getLsbD cfg.ipiOtherBit, b.self || v.getLsbD cfg.ipiSelfBit⟩ := by
  have hset : ∀ on old : Bool, (if on then true else old) = (old || on) := by decide
  exact congrArg₂ IpiBits.mk (hset ..) (hset ..)

theorem IpiBits.assign_selects_false (b : IpiBits) (cfg : Config) (v : Word) :
    b.assign (cfg.selects v) false =
      ⟨b.other && !v.getLsbD cfg.ipiOtherBit, b.self && !v.getLsbD cfg.ipiSelfBit⟩ := by
  have hclear : ∀ off old : Bool, (if off then false else old) = (old && !off) := by decide
  exact congrArg₂ IpiBits.mk (hclear ..) (hclear ..)

/-- A write with selector bits only, to a register that acts on the accessing core by f, changes that core by
f and no other. -/
theorem coreBecomes_writeSelector (hv : s.cfg.badSelector v = false) (hc : c < s.cores.length)
    (k : AccessKind) (loc : Sel → Loc) (f : CoreState → CoreState) :
    s.CoreBecomes (s.writeSelector c k v loc fun t => t.updCore c f) c (f (s.core c)) := by
  rw [writeSelector_ok hv]
  exact coreBecomes_updCore ((State.SameRest.refl s).access ..) rfl rfl hc f

/-- Settles O18: a bit that is no selector decides whether each write is refused; if not, each assigns the
selected bits of the accessing core. -/
theorem ipiSelectorWrites : Obligations.IpiSelectorWrites := by
  unfold Obligations.IpiSelectorWrites
  intro s c k v hs hc
  have hlt := hs.core_lt hc
  refine ⟨fun hsel => ?_, fun hother i hi => ?_⟩
  · have hok := (badSelector_false ..).2 hsel
    simp only [← IpiBits.assign_selects_true, ← IpiBits.assign_selects_false]
    exact ⟨⟨_, rfl, coreBecomes_writeSelector hok hlt ..⟩,
      ⟨_, rfl, coreBecomes_writeSelector hok hlt ..⟩,
      ⟨_, rfl, coreBecomes_writeSelector hok hlt ..⟩⟩
  · have hbad := (badSelector_true ..).2 hother
    simp only [List.mem_cons, List.not_mem_nil, or_false] at hi
    rcases hi with rfl | rfl | rfl <;> exact congrArg Host.Outcome.next (writeSelector_bad hbad ..)

end Sys2Proof.Machine
end

section
/-!
PROOF. The FIQ cause mux (43_fiq): the accesses to a cause, the composite operations of the fast-path domain
performed alone, and that no core changes the FIQ state of another.
-/

namespace Sys2Proof.Machine

open Sys2Proof

variable {c d k : Nat} {p e : Prop} {st st' : CoreState} {s t u : State}

/-! ## One core changed, update by update -/

theorem State.CoreBecomes.refl (s : State) (c : Nat) : s.CoreBecomes s c (s.core c) :=
  ⟨.refl s, rfl, fun _ _ => rfl, rfl⟩

theorem State.CoreBecomes.trans (h : s.CoreBecomes t c st) (h' : t.CoreBecomes u c st') :
    s.CoreBecomes u c st' := by
  obtain ⟨hrest, hlines, hothers, -⟩ := h
  obtain ⟨hrest', hlines', hothers', hcore'⟩ := h'
  exact ⟨hrest.trans hrest', hlines'.trans hlines,
    fun x hx => (hothers' x hx).trans (hothers x hx), hcore'⟩

theorem State.CoreBecomes.core_eq (h : s.CoreBecomes t c st) : t.core c = st := by
  obtain ⟨-, -, -, hcore⟩ := h
  exact hcore

theorem State.CoreBecomes.core_lt (h : s.CoreBecomes t c st) (hc : c < s.cores.length) :
    c < t.cores.length := by
  obtain ⟨⟨-, -, hlen, -⟩, -⟩ := h
  rwa [hlen]

theorem State.CoreBecomes.note (h : s.CoreBecomes t c st) {ev : Event} (hev : ev.quiet) :
    s.CoreBecomes (t.note ev) c st := by
  obtain ⟨hrest, hlines, hothers, hcore⟩ := h
  exact ⟨hrest.note hev, hlines, hothers, hcore⟩

theorem State.CoreBecomes.access (h : s.CoreBecomes t c st) {b : Nat} {kind : Option AccessKind}
    {rs ws : List Loc} : s.CoreBecomes (t.access b kind rs ws) c st :=
  h.note (Event.quiet_access b kind rs ws)

theorem State.CoreBecomes.updCore (h : s.CoreBecomes t c st) (hc : c < s.cores.length)
    (f : CoreState → CoreState) : s.CoreBecomes (t.updCore c f) c (f st) := by
  have hf := h.trans (coreBecomes_updCore (.refl t) rfl rfl (h.core_lt hc) f)
  rwa [h.core_eq] at hf

theorem State.CoreBecomes.reply (h : s.CoreBecomes t c st) (hc : c < s.cores.length) (r : Result) :
    s.CoreBecomes (t.reply c r) c { st with ret := r } :=
  h.updCore hc _

theorem State.CoreBecomes.call (h : s.CoreBecomes t c st) (hc : c < s.cores.length)
    (l : List SeqStep) : s.CoreBecomes (t.call c l) c { st with seq := l ++ st.seq } :=
  h.updCore hc _

/-! ## FIQ_READ_CAUSE and FIQ_WRITE_ARM -/

/-- The state after FIQ_READ_CAUSE(k) by core c. -/
def State.readCause (s : State) (c k : Nat) : State :=
  (s.access c none [.arm c k] []).reply c (.causeState (s.cond c k) (s.arm c k))

/-- The state after FIQ_WRITE_ARM(k, v) by core c. -/
def State.writeArm (s : State) (c k : Nat) (v : Bool) : State :=
  (s.access c none [] [.arm c k]).setArm c k v

theorem exec_fiqReadCause (c k : Nat) (s : State) :
    exec (.fiqReadCause c k) s = .next (s.readCause c k) := rfl

theorem exec_fiqWriteArm (c k : Nat) (v : Bool) (s : State) :
    exec (.fiqWriteArm c k v) s = .next (s.writeArm c k v) := rfl

/-- The read answers the pair of its core. -/
theorem State.CoreBecomes.readCause (h : s.CoreBecomes t c st) (hc : c < s.cores.length) (k : Nat) :
    s.CoreBecomes (t.readCause c k) c
      { st with ret := .causeState (st.cond.getD k false) (st.arm.getD k false) } := by
  rw [← h.core_eq]
  rw [← h.core_eq] at h
  exact h.access.reply hc _

theorem State.CoreBecomes.writeArm (h : s.CoreBecomes t c st) (hc : c < s.cores.length) (k : Nat)
    (v : Bool) : s.CoreBecomes (t.writeArm c k v) c { st with arm := st.arm.set k v } :=
  h.access.updCore hc _

theorem State.writeArm_arm_self (hc : c < s.cores.length) (hk : k < (s.core c).arm.length) (v : Bool) :
    (s.writeArm c k v).arm c k = v := by
  rw [State.arm, ((State.CoreBecomes.refl s c).writeArm hc k v).core_eq]
  simp [List.getD_eq_getElem?_getD, hk]

/-- Settles O19: the read answers the pair and is recorded, the write sets its bit and is recorded. -/
theorem fiqCauseAccesses : Obligations.FiqCauseAccesses := by
  unfold Obligations.FiqCauseAccesses
  intro s c k v hs hc hk
  have hlt := hs.core_lt hc
  obtain ⟨-, harm, -⟩ := hs.core_shaped hc
  have hself := State.CoreBecomes.refl s c
  exact ⟨⟨_, exec_fiqReadCause c k s, hself.readCause hlt k⟩,
    _, exec_fiqWriteArm c k v s, hself.writeArm hlt k v, State.writeArm_arm_self hlt (harm ▸ hk) v⟩

/-! ## The control steps, with steps still to perform after them -/

theorem seqStep_fiqReadCause (s : State) (c k : Nat) (q : List SeqStep) :
    seqStep c (.op (.fiqReadCause c k)) (s.call c q) = .next ((s.readCause c k).call c q) := by
  simp [seqStep, exec_fiqReadCause, State.readCause]

theorem seqStep_fiqWriteArm (s : State) (c k : Nat) (v : Bool) (q : List SeqStep) :
    seqStep c (.op (.fiqWriteArm c k v)) (s.call c q) = .next ((s.writeArm c k v).call c q) := by
  simp [seqStep, exec_fiqWriteArm, State.writeArm]

theorem seqStep_setFiqDisabled (s : State) (c d : Nat) (v : Bool) (q : List SeqStep) :
    seqStep c (.setFiqDisabled d v) (s.call c q) = .next ((s.setFiqDisabledStep c d v).call c q) := by
  simp [seqStep, State.setFiqDisabledStep]

theorem seqStep_fiqEoiRead (s : State) (c d : Nat) (q : List SeqStep) :
    seqStep c (.fiqEoiRead d) (s.call c q) = .next ((s.fiqEoiRead c d).call c q) := by
  simp [seqStep, State.fiqEoiRead]

/-- The test of FIQ_EOI leaves a disabled index as it is. -/
theorem seqStep_fiqEoiTest_disabled (h : (s.core c).ret = .bit true) (d : Nat) (q : List SeqStep) :
    seqStep c (.fiqEoiTest d) (s.call c q) = .next (s.call c q) :=
  if_pos (by rw [State.call_core_ret, h]; rfl)

/-- The test of FIQ_EOI arms the cause of an index that is not disabled. -/
theorem seqStep_fiqEoiTest_enabled (h : (s.core c).ret = .bit false) (d : Nat) (q : List SeqStep) :
    seqStep c (.fiqEoiTest d) (s.call c q) =
      .next ((s.writeArm c (s.cfg.causeOf d) true).call c q) :=
  (if_neg (by rw [State.call_core_ret, h]; exact Bool.false_ne_true)).trans
    (seqStep_fiqWriteArm s c (s.cfg.causeOf d) true q)

/-! ## FIQ_MASK, FIQ_UNMASK and FIQ_EOI -/

/-- The steps of FIQ_MASK and FIQ_UNMASK: the index is disabled or enabled, then its cause disarmed or
armed. -/
theorem alone_setDisabledAndArm (hc : c < s.cores.length) (d k : Nat) (dis on : Bool) :
    ∃ t, alone c 3 (s.call c [.setFiqDisabled d dis, .op (.fiqWriteArm c k on), .ret .ok]) = .next t ∧
      s.CoreBecomes t c { s.core c with
        fiqDisabled := (s.core c).fiqDisabled.set d dis, arm := (s.core c).arm.set k on, ret := .ok } := by
  have hset : s.CoreBecomes (s.setFiqDisabledStep c d dis) c
      { s.core c with fiqDisabled := (s.core c).fiqDisabled.set d dis } :=
    (State.CoreBecomes.refl s c).access.updCore hc _
  have harm := hset.writeArm hc k on
  exact ⟨_, alone_step hc (seqStep_setFiqDisabled ..) <|
    alone_step (hset.core_lt hc) (seqStep_fiqWriteArm ..) <|
    alone_step (harm.core_lt hc) (seqStep_ret ..) (alone_done ..), harm.reply hc .ok⟩

/-- The steps of FIQ_EOI: the bit read decides whether the cause is armed. -/
theorem alone_fiqEoi (hc : c < s.cores.length) (d : Nat) :
    ∃ t, alone c 3 (s.call c [.fiqEoiRead d, .fiqEoiTest d, .ret .ok]) = .next t ∧
      s.CoreBecomes t c { s.core c with
        arm := if s.fiqDisabled c d = true then (s.core c).arm
          else (s.core c).arm.set (s.cfg.causeOf d) true
        ret := .ok } := by
  have hread : s.CoreBecomes (s.fiqEoiRead c d) c
      { s.core c with ret := .bit (s.fiqDisabled c d) } :=
    (State.CoreBecomes.refl s c).access.reply hc _
  have hret : ((s.fiqEoiRead c d).core c).ret = .bit (s.fiqDisabled c d) :=
    State.reply_core_self _ _ _ hc
  have hlt := hread.core_lt hc
  cases hdis : s.fiqDisabled c d with
  | true =>
    exact ⟨_, alone_step hc (seqStep_fiqEoiRead ..) <|
      alone_step hlt (seqStep_fiqEoiTest_disabled (hdis ▸ hret) ..) <|
      alone_step hlt (seqStep_ret ..) (alone_done ..), hread.reply hc .ok⟩
  | false =>
    have harm := hread.writeArm hc (s.cfg.causeOf d) true
    exact ⟨_, alone_step hc (seqStep_fiqEoiRead ..) <|
      alone_step hlt (seqStep_fiqEoiTest_enabled (hdis ▸ hret) ..) <|
      alone_step (harm.core_lt hc) (seqStep_ret ..) (alone_done ..), harm.reply hc .ok⟩

/-- Settles O20: each operation's steps, for the one cause of the index. -/
theorem fiqMaskUnmaskEoi : Obligations.FiqMaskUnmaskEoi := by
  unfold Obligations.FiqMaskUnmaskEoi
  intro s c d k hs hc hd hk
  have hlt := hs.core_lt hc
  obtain rfl := causeOf_eq hs.1 hd hk
  exact ⟨⟨_, onFiq_lt hd c _, alone_setDisabledAndArm hlt ..⟩,
    ⟨_, onFiq_lt hd c _, alone_setDisabledAndArm hlt ..⟩, _, onFiq_lt hd c _, alone_fiqEoi hlt d⟩

/-! ## SILENCE and FIQ_DISPATCH -/

/-- Settles O21: the write of the arm bit changes core c alone, and the diagnostic is appended after it. -/
theorem silenceDisarmsWithDiagnostic : Obligations.SilenceDisarmsWithDiagnostic := by
  unfold Obligations.SilenceDisarmsWithDiagnostic
  intro s c k hs hc _
  have hlt := hs.core_lt hc
  have harm := (State.CoreBecomes.refl s c).writeArm hlt k false
  have hsteps := alone_step hlt (seqStep_fiqWriteArm ..) <|
    alone_step (harm.core_lt hlt) (seqStep_diag _ c .unsupportedFiq (.cause (s.cfg.cause k).name) [])
      (alone_done ..)
  obtain ⟨⟨hext, -⟩, -, hothers, hcore⟩ := harm
  exact ⟨_, rfl, _, hsteps, hext.addDiag .., rfl, hothers, hcore⟩

theorem exec_fiqDispatch_bound {h : Nat} (hb : s.bound .fiq d = some h) (c : Nat) :
    exec (.fiqDispatch c d) s = .next ((s.access c none [.bound .fiq d] []).call c
      [.op (.fiqWriteArm c (s.cfg.causeOf d) false), .invoke .fiq d, .op (.fiqEoi c d)]) := by
  simp [exec, execFiqDispatch, hb]

/-- Settles O22: the cause is disarmed, then the bound handler begins before FIQ_EOI. -/
theorem fiqDispatch : Obligations.FiqDispatch := by
  unfold Obligations.FiqDispatch
  intro s c d k h hs hc hd hk hb
  have hlt := hs.core_lt hc
  obtain rfl := causeOf_eq hs.1 hd hk
  have hread : s.CoreBecomes (s.access c none [.bound .fiq d] []) c (s.core c) :=
    (State.CoreBecomes.refl s c).access
  have hdisarm := hread.writeArm hlt (s.cfg.causeOf d) false
  have hbound : ((s.access c none [.bound .fiq d] []).writeArm c (s.cfg.causeOf d) false).bound .fiq d
      = some h := hb
  refine ⟨_, exec_fiqDispatch_bound hb c, _,
    alone_step hlt (seqStep_fiqWriteArm ..) <|
    alone_step (hdisarm.core_lt hlt) (seqStep_invoke_bound hbound ..) (alone_zero _ c), ?_,
    (hdisarm.note (Event.quiet_handler c .fiq d h)).call hlt [.running .fiq d h, .op (.fiqEoi c d)]⟩
  obtain ⟨⟨⟨es, hes, -⟩, -⟩, -⟩ := hdisarm
  exact ⟨es, congrArg (· ++ [Event.handler c .fiq d h]) hes⟩

/-! ## FIQ_POLL -/

theorem exec_fiqPoll_draining (hfe : (s.core c).fe = .draining) : exec (.fiqPoll c) s =
    .next (s.call c ((List.range s.cfg.causes.length).flatMap
      fun k => [.op (.fiqReadCause c k), .pollTest k])) :=
  if_pos (decide_eq_true hfe)

/-- The test of a pair that has not both its bits set does nothing. -/
theorem seqStep_pollTest_quiet (h : (s.core c).ret.fired = false) (k : Nat) (q : List SeqStep) :
    seqStep c (.pollTest k) (s.call c q) = .next (s.call c q) :=
  congrArg Host.Outcome.next
    (if_neg (by rw [State.call_core_ret, h]; exact Bool.false_ne_true))

/-- What is done with cause k that was read as firing: its line is dispatched when it is bound, else the
cause is silenced (43_fiq R317). -/
def State.firingStep (s : State) (c k : Nat) : SeqStep :=
  if (s.cfg.cause k).dom.any (fun d => (s.bound .fiq d).isSome) = true then
    .op (.fiqDispatch c ((s.cfg.cause k).dom.getD 0))
  else .op (.silence c k)

/-- The test of a pair with both its bits set leads to what is done with the cause. -/
theorem coreBecomes_pollTest_fired (hc : c < s.cores.length) (h : (s.core c).ret.fired = true)
    (k : Nat) : s.CoreBecomes (s.pollTest c k) c
      { s.core c with seq := s.firingStep c k :: (s.core c).seq } := by
  unfold State.pollTest State.firingStep
  rw [if_pos h]
  cases (s.cfg.cause k).dom with
  | none => exact (State.CoreBecomes.refl s c).call hc _
  | some d => exact (State.CoreBecomes.refl s c).access.call hc _

/-- The reads and tests of causes none of which fires answer the last read and do nothing else. -/
theorem alone_pollQuiet (hc : c < s.cores.length) (ks : List Nat)
    (hquiet : ∀ k ∈ ks, s.fire c k = false) {r : Result} (h : s.Answers t c r) :
    ∃ u, alone c (2 * ks.length)
        (t.call c (ks.flatMap fun k => [.op (.fiqReadCause c k), .pollTest k])) = .next u ∧
      ∃ r, s.Answers u c r := by
  induction ks generalizing t r with
  | nil => exact ⟨t, alone_done t c, r, h⟩
  | cons k ks ih =>
    have hread : s.Answers (t.readCause c k) c (.causeState (s.cond c k) (s.arm c k)) :=
      h.readCause hc k
    have hfired : ((t.readCause c k).core c).ret.fired = false := by
      rw [hread.core_eq]
      exact hquiet k (List.mem_cons_self ..)
    obtain ⟨u, hu, hanswers⟩ := ih (fun x hx => hquiet x (List.mem_cons_of_mem _ hx)) hread
    exact ⟨u, alone_step (h.core_lt hc) (seqStep_fiqReadCause ..) <|
      alone_step (hread.core_lt hc) (seqStep_pollTest_quiet hfired ..) hu, hanswers⟩

/-- The steps a core has to perform, parted into the next ones and the rest. -/
theorem State.call_setSeq_rest {l rest : List SeqStep} (h : (s.core c).seq = l ++ rest) :
    (s.setSeq c rest).call c l = s := by
  refine (s.updCore_updCore c _ _).trans ((updCore_congr (g := id) ?_).trans
    (s.updCore_same c id fun _ => rfl))
  rw [← h]
  rfl

/-- One cause read and tested: what is done with it stands before the next read. -/
theorem alone_pollOne (hc : c < s.cores.length) {rest : List SeqStep}
    (hseq : (s.core c).seq = .op (.fiqReadCause c k) :: .pollTest k :: rest) :
    ∃ t, alone c 2 s = .next t ∧ s.CoreBecomes t c { s.core c with
      ret := .causeState (s.cond c k) (s.arm c k)
      seq := if (s.cond c k && s.arm c k) = true then s.firingStep c k :: rest else rest } := by
  have hpop : s.CoreBecomes (s.setSeq c rest) c { s.core c with seq := rest } :=
    (State.CoreBecomes.refl s c).updCore hc _
  have hread := hpop.readCause hc k
  have hlt := hread.core_lt hc
  have hret : (((s.setSeq c rest).readCause c k).core c).ret.fired = (s.cond c k && s.arm c k) := by
    rw [hread.core_eq]
    rfl
  have hsteps {t : State} (htest : seqStep c (.pollTest k)
      (((s.setSeq c rest).readCause c k).call c []) = .next t) : alone c 2 s = .next t := by
    have hfirst := alone_step (hpop.core_lt hc) (seqStep_fiqReadCause ..) <|
      alone_step hlt htest (alone_zero t c)
    rwa [State.call_setSeq_rest (l := [_, _]) hseq] at hfirst
  cases hfire : s.cond c k && s.arm c k with
  | true =>
    have htest := hread.trans (coreBecomes_pollTest_fired hlt (hret.trans hfire) k)
    rw [hread.core_eq] at htest
    exact ⟨_, hsteps (by rw [State.call_nil]; rfl), htest⟩
  | false =>
    exact ⟨_, hsteps (seqStep_pollTest_quiet (hret.trans hfire) k []), by rwa [State.call_nil]⟩

/-- Settles O23: the quiet poll by its reads, one after another; the steps set out; one read and its test. -/
theorem fiqPollTakesCausesInOrder : Obligations.FiqPollTakesCausesInOrder := by
  unfold Obligations.FiqPollTakesCausesInOrder
  intro s c hs hc
  have hlt := hs.core_lt hc
  refine ⟨fun hfe hquiet => ⟨_, exec_fiqPoll_draining hfe, ?_⟩,
    fun hfe => ⟨_, exec_fiqPoll_draining hfe, (State.CoreBecomes.refl s c).call hlt _⟩,
    fun k rest _ hseq => alone_pollOne hlt hseq⟩
  have hpoll := alone_pollQuiet hlt (List.range s.cfg.causes.length)
    (fun k hk => hquiet k (List.mem_range.1 hk)) (State.CoreBecomes.refl s c)
  rwa [List.length_range] at hpoll

/-! ## The FIQ state of the other cores -/

/-- Core d has the same conditions, arm bits and fiq_disabled bits in t as in s (43_fiq R310). -/
def State.SameFiq (s t : State) (d : Nat) : Prop :=
  (t.core d).cond = (s.core d).cond ∧ (t.core d).arm = (s.core d).arm ∧
  (t.core d).fiqDisabled = (s.core d).fiqDisabled

theorem State.SameFiq.refl (s : State) (d : Nat) : s.SameFiq s d := ⟨rfl, rfl, rfl⟩

theorem State.SameFiq.trans (h : s.SameFiq t d) (h' : t.SameFiq u d) : s.SameFiq u d := by
  obtain ⟨hcond, harm, hdis⟩ := h
  obtain ⟨hcond', harm', hdis'⟩ := h'
  exact ⟨hcond'.trans hcond, harm'.trans harm, hdis'.trans hdis⟩

theorem State.SameFiq.of_core_eq (h : t.core d = s.core d) : s.SameFiq t d := by
  rw [State.SameFiq, h]
  exact ⟨rfl, rfl, rfl⟩

theorem sameFiq_sendIpi (s : State) (d : Nat) {f : Nat → CoreState → CoreState}
    (hf : ∀ d k, f d k = { k with ipiPend := (f d k).ipiPend }) : s.SameFiq (s.updCores f) d := by
  rw [State.SameFiq, State.updCores_core]
  split
  · rw [hf]
    exact ⟨rfl, rfl, rfl⟩
  · exact ⟨rfl, rfl, rfl⟩

theorem sameFiq_takeTrap (s : State) (c d : Nat) : s.SameFiq (s.takeTrap c) d := by
  rcases takeTrap_eq s c with ht | ⟨n, l, -, ht⟩
  · rw [ht]
    exact .refl s d
  · rw [ht]
    simp [State.SameFiq]

/-- An operation's updates leave the FIQ state of the cores but its own as it is. -/
theorem Effect.sameFiq (h : Effect c p e s t) (hd : d ≠ c) : s.SameFiq t d := by
  induction h with
  | refl => exact .refl s d
  | note _ _ ih | refuse _ ih | addDiag _ ih | withDraws _ ih | withSched _ ih | withArmed _ ih
  | updLine _ _ ih | updBank _ _ ih => exact ih
  | reply _ ih | call _ _ ih | setQueue _ ih | setIpiPend _ ih | setIpiMask _ ih | setArm _ ih
  | setFiqDisabled _ ih => exact ih.trans (.of_core_eq (State.updCore_core_other _ _ hd))
  | setBound _ ih | setFlags _ ih => exact ih.trans (.of_core_eq (by simp))
  | setPending _ _ ih | setEnabled _ _ ih => exact ih.trans (by simp [State.SameFiq])
  | sendIpi _ hf ih => exact ih.trans (sameFiq_sendIpi _ d hf)
  | takeTrap _ ih => exact ih.trans (sameFiq_takeTrap _ c d)

/-- So does a control step that performs no operation. -/
theorem ControlStep.sameFiq {m : SeqStep} (hm : ∀ i, m ≠ .op i) (h : ControlStep c m s t)
    (hd : d ≠ c) : s.SameFiq t d := by
  cases h with
  | operation h => exact absurd rfl (hm _)
  | plain _ h => exact h.sameFiq hd
  | freeLock => exact .refl s d
  | takeLock | choose | chooseNone | trapReturn =>
    exact .of_core_eq (State.updCore_core_other _ _ hd)

/-- Settles O54: of the updates operations and control steps are made of, those of FIQ state are of the
own core's. -/
theorem fiqStateIsCoreLocal : Obligations.FiqStateIsCoreLocal := by
  unfold Obligations.FiqStateIsCoreLocal
  intro s t d
  exact ⟨fun i h hd => ((exec_effect i s).of_eq_next h).sameFiq hd,
    fun c m hm h hd => ((seqStep_control c m s).of_eq_next h).sameFiq hm hd⟩

end Sys2Proof.Machine
end

section
/-!
PROOF. The vIPI arbiter (44_vipi_arbiter): its five ports, and the composite operations of the vIPI domain
performed alone; what a send publishes to the core that receives it.
-/

namespace Sys2Proof.Machine

open Sys2Proof

variable {c d n v : Nat} {m rest kick : Word} {st : CoreState} {s t u : State}

/-! ## The ports -/

/-- The state after VIPI_EN_READ of core d's mask by core c. -/
def State.enRead (s : State) (c d : Nat) : State :=
  (s.access c none [.enabled d] []).reply c (.word (s.core d).enabled)

/-- The state after VIPI_EN_OR of m into core d's mask by core c. -/
def State.enOr (s : State) (c d : Nat) (m : Word) : State :=
  (s.access c none [] [.enabled d]).setEnabled d ((s.core d).enabled ||| m)

/-- The state after VIPI_EN_ANDN of m from core d's mask by core c. -/
def State.enAndn (s : State) (c d : Nat) (m : Word) : State :=
  ((s.access c none [.enabled d] [.enabled d]).setEnabled d ((s.core d).enabled &&& ~~~m)).reply c
    (.word ((s.core d).enabled &&& ~~~m))

/-- The state after VIPI_PEND_OR of m into core d's pending bits by core c. -/
def State.pendOr (s : State) (c d : Nat) (m : Word) : State :=
  (s.access c none [] [.pending d]).setPending d ((s.core d).pending ||| s.cfg.vipiBits m)

/-- The state after VIPI_PEND_XCHG0 of core d's pending bits by core c. -/
def State.pendXchg (s : State) (c d : Nat) : State :=
  ((s.access c none [.pending d] [.pending d]).setPending d 0).reply c (.word (s.core d).pending)

theorem exec_vipiEnRead (s : State) (c d : Nat) :
    exec (.vipiEnRead c d) s = .next (s.enRead c d) := rfl

theorem exec_vipiEnOr (s : State) (c d : Nat) (m : Word) :
    exec (.vipiEnOr c d m) s = .next (s.enOr c d m) := rfl

theorem exec_vipiEnAndn (s : State) (c d : Nat) (m : Word) :
    exec (.vipiEnAndn c d m) s = .next (s.enAndn c d m) := rfl

theorem exec_vipiPendOr (s : State) (c d : Nat) (m : Word) :
    exec (.vipiPendOr c d m) s = .next (s.pendOr c d m) := rfl

theorem exec_vipiPendXchg0 (s : State) (c d : Nat) :
    exec (.vipiPendXchg0 c d) s = .next (s.pendXchg c d) := rfl

theorem State.CoreBecomes.enOr (h : s.CoreBecomes t d st) (hd : d < s.cores.length) (c : Nat)
    (m : Word) : s.CoreBecomes (t.enOr c d m) d { st with enabled := st.enabled ||| m } := by
  obtain rfl := h.core_eq
  exact h.access.updCore hd _

theorem State.CoreBecomes.pendOr (h : s.CoreBecomes t d st) (hd : d < s.cores.length) (c : Nat)
    (m : Word) : s.CoreBecomes (t.pendOr c d m) d
      { st with pending := st.pending ||| t.cfg.vipiBits m } := by
  obtain rfl := h.core_eq
  exact h.access.updCore hd _

/-- The port of a core's own mask that answers its new value. -/
theorem State.CoreBecomes.enAndn (h : s.CoreBecomes t c st) (hc : c < s.cores.length) (m : Word) :
    s.CoreBecomes (t.enAndn c c m) c
      { st with enabled := st.enabled &&& ~~~m, ret := .word (st.enabled &&& ~~~m) } := by
  obtain rfl := h.core_eq
  exact (h.access.updCore hc _).reply hc _

/-- The port that takes a core's own pending bits. -/
theorem State.CoreBecomes.pendXchg (h : s.CoreBecomes t c st) (hc : c < s.cores.length) :
    s.CoreBecomes (t.pendXchg c c) c { st with pending := 0, ret := .word st.pending } := by
  obtain rfl := h.core_eq
  exact (h.access.updCore hc _).reply hc _

theorem State.enAndn_core {x : Nat} (hx : x < s.cores.length) (c d : Nat) (m : Word) :
    (s.enAndn c d m).core x = { s.core x with
      enabled := if x = d then (s.core d).enabled &&& ~~~m else (s.core x).enabled
      ret := if x = c then .word ((s.core d).enabled &&& ~~~m) else (s.core x).ret } := by
  rcases eq_or_ne x d with rfl | hd <;> rcases eq_or_ne x c with rfl | hc <;>
    simp [State.enAndn, State.reply_core, State.setEnabled_core, Ne.symm, *]

theorem State.pendXchg_core {x : Nat} (hx : x < s.cores.length) (c d : Nat) :
    (s.pendXchg c d).core x = { s.core x with
      pending := if x = d then 0 else (s.core x).pending
      ret := if x = c then .word (s.core d).pending else (s.core x).ret } := by
  rcases eq_or_ne x d with rfl | hd <;> rcases eq_or_ne x c with rfl | hc <;>
    simp [State.pendXchg, State.reply_core, State.setPending_core, Ne.symm, *]

theorem State.SameRest.enRead (h : s.SameRest t) (c d : Nat) : s.SameRest (t.enRead c d) :=
  (h.access ..).reply ..

theorem State.SameRest.enAndn (h : s.SameRest t) (c d : Nat) (m : Word) :
    s.SameRest (t.enAndn c d m) :=
  ((h.access ..).setEnabled ..).reply ..

theorem State.SameRest.pendOr (h : s.SameRest t) (c d : Nat) (m : Word) :
    s.SameRest (t.pendOr c d m) :=
  (h.access ..).setPending ..

theorem State.SameRest.pendXchg (h : s.SameRest t) (c d : Nat) :
    s.SameRest (t.pendXchg c d) :=
  ((h.access ..).setPending ..).reply ..

/-- Settles O24: each port changes the masks it names and answers, one core after another. -/
theorem vipiPorts : Obligations.VipiPorts := by
  unfold Obligations.VipiPorts
  intro s c d m hs hc hd
  have hlt := hs.core_lt hd
  have hpend := (State.CoreBecomes.refl s d).pendOr hlt c m
  refine ⟨⟨_, exec_vipiEnRead s c d, answers_access (hs.core_lt hc) ..⟩,
    ⟨_, exec_vipiEnOr s c d m, (State.CoreBecomes.refl s d).enOr hlt c m⟩,
    ⟨_, exec_vipiEnAndn s c d m, (State.SameRest.refl s).enAndn c d m, rfl,
      fun x hx => State.enAndn_core (hs.core_lt hx) c d m⟩,
    ⟨_, exec_vipiPendOr s c d m, hpend⟩,
    fun hm => ⟨_, exec_vipiPendOr s c d m, ?_⟩,
    ⟨_, exec_vipiPendXchg0 s c d, (State.SameRest.refl s).pendXchg c d, rfl,
      fun x hx => State.pendXchg_core (hs.core_lt hx) c d⟩⟩
  rwa [vipiBits_eq hm] at hpend

/-! ## The physical other line -/

/-- The state after core c acknowledged its other IPI (42_physical_ipi R283). -/
def State.ackOther (s : State) (c : Nat) : State :=
  (s.access c (some .relaxed) [] [.ipiPend c .other]).updCore c
    fun k => { k with ipiPend := { k.ipiPend with other := false } }

/-- The state after core c wrote b to the mask bit of its other line (42_physical_ipi R285, R286). -/
def State.setOtherMask (s : State) (c : Nat) (b : Bool) : State :=
  (s.access c (some .relaxed) [] [.ipiMask c .other]).updCore c
    fun k => { k with ipiMask := { k.ipiMask with other := b } }

theorem selected_otherBit {cfg : Config} (hw : cfg.CodesWf) : cfg.selected cfg.otherBit = [.other] := by
  rw [Config.selected, selects_otherBit cfg hw]
  rfl

theorem exec_writeIpiAck_other (hw : s.cfg.CodesWf) (c : Nat) :
    exec (.writeIpiAck c .relaxed s.cfg.otherBit) s = .next (s.ackOther c) := by
  rw [exec, execWriteIpiAck, writeSelector_ok (badSelector_otherBit _), selected_otherBit hw,
    selects_otherBit _ hw]
  exact congrArg Host.Outcome.next (updCore_congr rfl)

/-- The write of the other line's selector to one of the two mask registers. -/
theorem writeSelector_otherMask (hw : s.cfg.CodesWf) (c : Nat) (b : Bool) :
    s.writeSelector c .relaxed s.cfg.otherBit (.ipiMask c)
      (fun t => t.setIpiMask c ((s.core c).ipiMask.assign (s.cfg.selects s.cfg.otherBit) b)) =
    s.setOtherMask c b := by
  rw [writeSelector_ok (badSelector_otherBit _), selected_otherBit hw, selects_otherBit _ hw]
  exact updCore_congr rfl

theorem exec_writeIpiMaskSet_other (hw : s.cfg.CodesWf) (c : Nat) :
    exec (.writeIpiMaskSet c .relaxed s.cfg.otherBit) s = .next (s.setOtherMask c true) :=
  congrArg Host.Outcome.next (writeSelector_otherMask hw c true)

theorem exec_writeIpiMaskClr_other (hw : s.cfg.CodesWf) (c : Nat) :
    exec (.writeIpiMaskClr c .relaxed s.cfg.otherBit) s = .next (s.setOtherMask c false) :=
  congrArg Host.Outcome.next (writeSelector_otherMask hw c false)

theorem State.CoreBecomes.ackOther (h : s.CoreBecomes t c st) (hc : c < s.cores.length) :
    s.CoreBecomes (t.ackOther c) c { st with ipiPend := { st.ipiPend with other := false } } :=
  h.access.updCore hc _

theorem State.CoreBecomes.setOtherMask (h : s.CoreBecomes t c st) (hc : c < s.cores.length) (b : Bool) :
    s.CoreBecomes (t.setOtherMask c b) c { st with ipiMask := { st.ipiMask with other := b } } :=
  h.access.updCore hc _

/-! ## The control steps, with steps still to perform after them -/

theorem State.call_ackOther (s : State) (c d : Nat) (q : List SeqStep) :
    (s.call c q).ackOther d = (s.ackOther d).call c q :=
  (s.access ..).call_updCore c d q _ (fun _ _ => rfl) fun _ => rfl

theorem State.call_setOtherMask (s : State) (c d : Nat) (b : Bool) (q : List SeqStep) :
    (s.call c q).setOtherMask d b = (s.setOtherMask d b).call c q :=
  (s.access ..).call_updCore c d q _ (fun _ _ => rfl) fun _ => rfl

theorem seqStep_ackOther (hw : s.cfg.CodesWf) (c : Nat) (q : List SeqStep) :
    seqStep c (.op (.writeIpiAck c .relaxed s.cfg.otherBit)) (s.call c q) =
      .next ((s.ackOther c).call c q) :=
  (exec_writeIpiAck_other (s := s.call c q) hw c).trans
    (congrArg Host.Outcome.next (s.call_ackOther c c q))

theorem seqStep_unmaskOther (hw : s.cfg.CodesWf) (c : Nat) (q : List SeqStep) :
    seqStep c (.op (.writeIpiMaskClr c .relaxed s.cfg.otherBit)) (s.call c q) =
      .next ((s.setOtherMask c false).call c q) :=
  (exec_writeIpiMaskClr_other (s := s.call c q) hw c).trans
    (congrArg Host.Outcome.next (s.call_setOtherMask c c false q))

theorem seqStep_vipiEnRead (s : State) (c d : Nat) (q : List SeqStep) :
    seqStep c (.op (.vipiEnRead c d)) (s.call c q) = .next ((s.enRead c d).call c q) := by
  simp [seqStep, exec_vipiEnRead, State.enRead]

theorem seqStep_vipiEnOr (s : State) (c d : Nat) (m : Word) (q : List SeqStep) :
    seqStep c (.op (.vipiEnOr c d m)) (s.call c q) = .next ((s.enOr c d m).call c q) := by
  simp [seqStep, exec_vipiEnOr, State.enOr]

theorem seqStep_vipiEnAndn (s : State) (c d : Nat) (m : Word) (q : List SeqStep) :
    seqStep c (.op (.vipiEnAndn c d m)) (s.call c q) = .next ((s.enAndn c d m).call c q) := by
  simp [seqStep, exec_vipiEnAndn, State.enAndn]

theorem seqStep_vipiPendOr (s : State) (c d : Nat) (m : Word) (q : List SeqStep) :
    seqStep c (.op (.vipiPendOr c d m)) (s.call c q) = .next ((s.pendOr c d m).call c q) := by
  simp [seqStep, exec_vipiPendOr, State.pendOr]

theorem seqStep_vipiPendXchg0 (s : State) (c d : Nat) (q : List SeqStep) :
    seqStep c (.op (.vipiPendXchg0 c d)) (s.call c q) = .next ((s.pendXchg c d).call c q) := by
  simp [seqStep, exec_vipiPendXchg0, State.pendXchg]

theorem seqStep_fenceW (s : State) (c : Nat) (q : List SeqStep) :
    seqStep c (.op (.fenceW c)) (s.call c q) = .next ((s.note (.fence c .w)).call c q) := rfl

theorem seqStep_fenceR (s : State) (c : Nat) (q : List SeqStep) :
    seqStep c (.op (.fenceR c)) (s.call c q) = .next ((s.note (.fence c .r)).call c q) := rfl

/-- The test of VIPI_MASK masks the physical line once no vIPI line is enabled. -/
theorem seqStep_vipiMaskTest_none (hw : s.cfg.CodesWf) (h : (s.core c).ret.toWord = 0)
    (q : List SeqStep) :
    seqStep c .vipiMaskTest (s.call c q) = .next ((s.setOtherMask c true).call c q) :=
  (if_pos (by rwa [State.call_core_ret])).trans <|
    (exec_writeIpiMaskSet_other (s := s.call c q) hw c).trans
      (congrArg Host.Outcome.next (s.call_setOtherMask c c true q))

/-- It does nothing while one is. -/
theorem seqStep_vipiMaskTest_some (h : (s.core c).ret.toWord ≠ 0) (q : List SeqStep) :
    seqStep c .vipiMaskTest (s.call c q) = .next (s.call c q) :=
  if_neg (by rwa [State.call_core_ret])

/-! ## VIPI_MASK and VIPI_UNMASK -/

/-- The steps of VIPI_MASK: the value the port answers decides whether the physical line is masked. -/
theorem alone_vipiMask (hw : s.cfg.CodesWf) (hc : c < s.cores.length) (m : Word) :
    ∃ t, alone c 3 (s.call c [.op (.vipiEnAndn c c m), .vipiMaskTest, .ret .ok]) = .next t ∧
      s.CoreBecomes t c { s.core c with
        enabled := (s.core c).enabled &&& ~~~m
        ipiMask := { (s.core c).ipiMask with
          other := (s.core c).ipiMask.other || decide ((s.core c).enabled &&& ~~~m = 0) }
        ret := .ok } := by
  have hclear := (State.CoreBecomes.refl s c).enAndn hc m
  have hlt := hclear.core_lt hc
  have hret : ((s.enAndn c c m).core c).ret.toWord = (s.core c).enabled &&& ~~~m := by
    rw [hclear.core_eq]
    rfl
  by_cases hzero : (s.core c).enabled &&& ~~~m = 0
  · have hmask := hclear.setOtherMask hc true
    rw [decide_eq_true hzero, Bool.or_true]
    exact ⟨_, alone_step hc (seqStep_vipiEnAndn ..) <|
      alone_step hlt (seqStep_vipiMaskTest_none (s := s.enAndn c c m) hw (hret.trans hzero) _) <|
      alone_step (hmask.core_lt hc) (seqStep_ret ..) (alone_done ..), hmask.reply hc .ok⟩
  · rw [decide_eq_false hzero, Bool.or_false]
    exact ⟨_, alone_step hc (seqStep_vipiEnAndn ..) <|
      alone_step hlt (seqStep_vipiMaskTest_some (hret ▸ hzero) _) <|
      alone_step hlt (seqStep_ret ..) (alone_done ..), hclear.reply hc .ok⟩

/-- The steps of VIPI_UNMASK: the bits are set, then the physical line is unmasked. -/
theorem alone_vipiUnmask (hw : s.cfg.CodesWf) (hc : c < s.cores.length) (m : Word) :
    ∃ t, alone c 3 (s.call c [.op (.vipiEnOr c c m),
        .op (.writeIpiMaskClr c .relaxed s.cfg.otherBit), .ret .ok]) = .next t ∧
      s.CoreBecomes t c { s.core c with
        enabled := (s.core c).enabled ||| m
        ipiMask := { (s.core c).ipiMask with other := false }
        ret := .ok } := by
  have hset := (State.CoreBecomes.refl s c).enOr hc c m
  have hunmask := hset.setOtherMask hc false
  exact ⟨_, alone_step hc (seqStep_vipiEnOr ..) <|
    alone_step (hset.core_lt hc) (seqStep_unmaskOther (s := s.enOr c c m) hw c _) <|
    alone_step (hunmask.core_lt hc) (seqStep_ret ..) (alone_done ..), hunmask.reply hc .ok⟩

/-- Settles O29: both operations on the bit of a line in range. -/
theorem vipiMaskAndUnmask : Obligations.VipiMaskAndUnmask := by
  unfold Obligations.VipiMaskAndUnmask
  intro s c v hs hc hv
  have hlt := hs.core_lt hc
  obtain ⟨⟨-, -, -, -, hw, -⟩, -⟩ := hs
  exact ⟨⟨_, onVipi_lt hv c _, alone_vipiMask hw hlt (oneBit v)⟩,
    ⟨_, onVipi_lt hv c _, alone_vipiUnmask hw hlt (oneBit v)⟩⟩

/-! ## VIPI_RECEIVE -/

/-- The dispatch of a bit reads `bound` and leaves what follows from it. -/
theorem seqStep_recvBit_bound {h b : Nat} (hb : s.bound .ipi b = some h) (c : Nat)
    (q : List SeqStep) : seqStep c (.recvBit b) (s.call c q) =
      .next ((s.access c none [.bound .ipi b] []).call c (.invoke .ipi b :: q)) := by
  simp [seqStep, State.recvBit, hb]

theorem seqStep_recvBit_unbound {b : Nat} (hb : s.bound .ipi b = none) (c : Nat) (q : List SeqStep) :
    seqStep c (.recvBit b) (s.call c q) = .next
      ((s.access c none [.bound .ipi b] []).call c (.diag .unboundLine (.line .ipi b) :: q)) := by
  simp [seqStep, State.recvBit, hb]

/-- Settles O28: the read of `bound` leads to the handler or to the diagnostic, which is then performed. -/
theorem vipiBitDispatch : Obligations.VipiBitDispatch := by
  unfold Obligations.VipiBitDispatch
  intro s c b rest hs hc hseq
  have hlt := hs.core_lt hc
  have hpop : s.CoreBecomes (s.setSeq c rest) c { s.core c with seq := rest } :=
    (State.CoreBecomes.refl s c).updCore hlt _
  have hread := hpop.access (b := c) (kind := none) (rs := [.bound .ipi b]) (ws := [])
  have hstart := State.call_setSeq_rest (l := [.recvBit b]) hseq
  refine ⟨fun h hbound => ?_, fun hunbound => ?_⟩
  · have hbound' : ((s.setSeq c rest).access c none [.bound .ipi b] []).bound .ipi b = some h := hbound
    have hbegun := (hread.note (Event.quiet_handler c .ipi b h)).call hlt [.running .ipi b h]
    have hsteps := alone_step (hpop.core_lt hlt)
      (seqStep_recvBit_bound (s := s.setSeq c rest) hbound c []) <|
      alone_step (hread.core_lt hlt) (seqStep_invoke_bound hbound' c []) (alone_zero _ c)
    rw [hstart] at hsteps
    exact ⟨_, hsteps, ⟨[_], rfl⟩, hbegun⟩
  · have hsteps := alone_step (hpop.core_lt hlt)
      (seqStep_recvBit_unbound (s := s.setSeq c rest) hunbound c []) <|
      alone_step (hread.core_lt hlt) (seqStep_diag ..) (alone_done ..)
    rw [hstart] at hsteps
    obtain ⟨⟨hext, -⟩, -, hothers, hcore⟩ := hread
    exact ⟨_, hsteps, hext.addDiag .., hothers, hcore, rfl⟩

/-- The state after the first five steps of VIPI_RECEIVE by core c, up to what it leaves to perform. -/
def State.received (s : State) (c : Nat) : State :=
  (((s.ackOther c).note (.fence c .r)).pendXchg c c).note (.fence c .r)

theorem exec_vipiReceive_draining (hfe : (s.core c).fe = .draining) : exec (.vipiReceive c) s =
    .next (s.call c [.op (.writeIpiAck c .relaxed s.cfg.otherBit), .op (.fenceR c),
      .op (.vipiPendXchg0 c c), .recvTake]) :=
  if_pos (decide_eq_true hfe)

theorem coreBecomes_received (hc : c < s.cores.length) : s.CoreBecomes (s.received c) c
    { s.core c with
      ipiPend := { (s.core c).ipiPend with other := false }
      pending := 0
      ret := .word (s.core c).pending } :=
  ((((State.CoreBecomes.refl s c).ackOther hc).note (Event.quiet_fence _ _)).pendXchg hc).note
    (Event.quiet_fence _ _)

theorem State.received_trace (s : State) (c : Nat) : (s.received c).trace = s.trace ++
    [Event.access c (some .relaxed) [] [.ipiPend c .other], Event.fence c .r,
      Event.access c none [.pending c] [.pending c], Event.fence c .r] := by
  simp [State.received, State.ackOther, State.pendXchg]

/-- The value exchanged stands in the answer; its bits are dispatched before the re-arm. -/
theorem seqStep_recvTake (h : (s.core c).ret = .word m) (q : List SeqStep) :
    seqStep c .recvTake (s.call c q) = .next (s.call c (.op (.fenceR c) ::
      (setBits 32 m).map .recvBit ++ .op (.writeIpiMaskClr c .relaxed s.cfg.otherBit) :: q)) := by
  rw [seqStep, State.recvTake, State.call_call, State.call_core_ret, h]
  simp [Result.toWord]

/-- The first steps of VIPI_RECEIVE leave the bits that were pending to dispatch, and the re-arm. -/
theorem alone_vipiReceive (hw : s.cfg.CodesWf) (hc : c < s.cores.length) :
    alone c 5 (s.call c [.op (.writeIpiAck c .relaxed s.cfg.otherBit), .op (.fenceR c),
      .op (.vipiPendXchg0 c c), .recvTake]) =
    .next ((s.received c).call c ((setBits 32 (s.core c).pending).map .recvBit ++
      [.op (.writeIpiMaskClr c .relaxed s.cfg.otherBit)])) := by
  have hack := ((State.CoreBecomes.refl s c).ackOther hc).note (Event.quiet_fence c .r)
  have htaken := hack.pendXchg hc
  have hlt := htaken.core_lt hc
  have hret := congrArg CoreState.ret htaken.core_eq
  exact alone_step hc (seqStep_ackOther hw c _) <|
    alone_step (hack.core_lt hc) (seqStep_fenceR ..) <|
    alone_step (hack.core_lt hc) (seqStep_vipiPendXchg0 ..) <|
    alone_step hlt (seqStep_recvTake hret []) <|
    alone_step hlt (seqStep_fenceR ..) (alone_zero _ c)

/-- Settles O27: the first five steps; with no bit to dispatch the sixth is the re-arm. -/
theorem vipiReceive : Obligations.VipiReceive := by
  unfold Obligations.VipiReceive
  intro s c hs hc hfe
  have hlt := hs.core_lt hc
  obtain ⟨⟨-, -, -, -, hw, -⟩, -⟩ := hs
  have hsteps := alone_vipiReceive hw hlt
  have hreceived := coreBecomes_received hlt
  refine ⟨⟨_, exec_vipiReceive_draining hfe, _, hsteps, ?_⟩,
    fun hnone => ⟨_, exec_vipiReceive_draining hfe, ?_⟩⟩
  · have hqueue := hreceived.call hlt ((setBits 32 (s.core c).pending).map SeqStep.recvBit ++
      [.op (.writeIpiMaskClr c .relaxed s.cfg.otherBit)])
    rwa [List.append_assoc] at hqueue
  · have hbits : setBits 32 (s.core c).pending = [] := hnone ▸ setBits_zero 32
    rw [hbits] at hsteps
    have hunmask := hreceived.setOtherMask hlt false
    exact ⟨_, (alone_add _ c 5 1 hsteps).trans <| alone_step (hreceived.core_lt hlt)
      (seqStep_unmaskOther (s := s.received c) hw c []) (alone_done ..), by simpa [hnone] using hunmask⟩

/-! ## VIPI_SEND -/

theorem eq_of_getLsbD_oneBit {b : Nat} (h : (oneBit d).getLsbD b = true) : b = d := by
  rw [getLsbD_oneBit, Bool.and_eq_true] at h
  exact of_decide_eq_true h.2

theorem clearBit_oneBit (d : Nat) : clearBit (oneBit d) d = 0 := BitVec.and_not_self _

theorem lt_of_getLsbD_or_oneBit (hkick : ∀ b, kick.getLsbD b = true → b < n) (hd : d < n) (b : Nat)
    (hb : (kick ||| oneBit d).getLsbD b = true) : b < n := by
  rw [BitVec.getLsbD_or, Bool.or_eq_true] at hb
  rcases hb with hb | hb
  · exact hkick b hb
  · exact eq_of_getLsbD_oneBit hb ▸ hd

/-- The state after the kick of the cores of `kick` by core c, none for an empty set (44_vipi_arbiter R360). -/
def State.kickCores (s : State) (c : Nat) (kick : Word) : State :=
  if kick = 0 then s
  else (s.access c (some .relaxed) [] ((setBits s.cfg.maxCores kick).map fun x => .ipiPend x .other)).updCores
    fun x k => if kick.getLsbD x then { k with ipiPend := { k.ipiPend with other := true } } else k

theorem State.kickCores_core (hd : d < s.cores.length) (c : Nat) (kick : Word) :
    (s.kickCores c kick).core d = { s.core d with
      ipiPend := { (s.core d).ipiPend with
        other := (s.core d).ipiPend.other || kick.getLsbD d } } := by
  unfold State.kickCores
  split
  · next hzero => simp [hzero]
  · rw [State.updCores_core, State.access_cores, if_pos hd, State.access_core]
    cases kick.getLsbD d <;> simp

theorem State.SameRest.kickCores (h : s.SameRest t) (c : Nat) (kick : Word) :
    s.SameRest (t.kickCores c kick) := by
  unfold State.kickCores
  split
  · exact h
  · exact (h.access ..).updCores _

theorem State.kickCores_lines (s : State) (c : Nat) (kick : Word) :
    (s.kickCores c kick).lines = s.lines := by
  unfold State.kickCores
  split <;> rfl

theorem seqStep_sendKick (hkick : ∀ b, kick.getLsbD b = true → b < s.cfg.maxCores) (c : Nat) :
    seqStep c (.sendKick kick) (s.call c []) = .next (s.kickCores c kick) := by
  rw [State.call_nil, seqStep, State.sendKick, State.kickCores]
  split
  · rfl
  · exact exec_writeIpiSend_ok ((badDestination_false ..).2 hkick) c .relaxed

theorem seqStep_sendNext_none (h : setBits s.cfg.maxCores rest = []) (c v : Nat) (kick : Word) :
    seqStep c (.sendNext v rest kick) (s.call c []) =
      .next (s.call c [.op (.fenceW c), .sendKick kick]) := by
  rw [State.call_nil, seqStep, State.sendNext, h]
  rfl

theorem seqStep_sendNext_some (h : s.choose (setBits s.cfg.maxCores rest) = some (d, s.withDraws n))
    (c v : Nat) (kick : Word) : seqStep c (.sendNext v rest kick) (s.call c []) =
      .next ((s.withDraws n).call c [.op (.vipiEnRead c d), .sendTest v d (clearBit rest d) kick]) := by
  rw [State.call_nil, seqStep, State.sendNext, h]

/-- A destination that accepts the line is signalled and kicked. -/
theorem seqStep_sendTest_accepted (h : (s.core c).ret.toWord.getLsbD v = true) (d : Nat)
    (rest kick : Word) : seqStep c (.sendTest v d rest kick) (s.call c []) =
      .next (s.call c [.op (.vipiPendOr c d (oneBit v)), .sendNext v rest (kick ||| oneBit d)]) := by
  rw [State.call_nil, seqStep, State.sendTest, if_pos h]

/-- The send is dropped for any other. -/
theorem seqStep_sendTest_dropped (h : (s.core c).ret.toWord.getLsbD v = false) (d : Nat)
    (rest kick : Word) : seqStep c (.sendTest v d rest kick) (s.call c []) =
      .next (s.call c [.sendNext v rest kick]) := by
  rw [State.call_nil, seqStep, State.sendTest, if_neg (by rw [h]; exact Bool.false_ne_true)]

theorem State.enRead_ret (hc : c < s.cores.length) (d : Nat) :
    ((s.enRead c d).core c).ret.toWord = (s.core d).enabled := by
  simp [State.enRead, State.reply_core, hc, Result.toWord]

theorem State.enRead_length (s : State) (c d : Nat) :
    (s.enRead c d).cores.length = s.cores.length := List.length_modify ..

/-- The state after core c visited core d, which accepts line v, with n numbers drawn. -/
def State.signalled (s : State) (c d v n : Nat) : State :=
  ((s.withDraws n).enRead c d).pendOr c d (oneBit v)

theorem State.signalled_length (s : State) (c d v n : Nat) :
    (s.signalled c d v n).cores.length = s.cores.length :=
  (List.length_modify ..).trans ((s.withDraws n).enRead_length c d)

/-- A visit to a destination that accepts the line, then what follows. -/
theorem alone_visit_accepted {k : Nat} (hc : c < s.cores.length)
    (hchoose : s.choose (setBits s.cfg.maxCores rest) = some (d, s.withDraws n))
    (hen : (s.core d).enabled.getLsbD v = true)
    (hnext : alone c k ((s.signalled c d v n).call c
      [.sendNext v (clearBit rest d) (kick ||| oneBit d)]) = .next t) :
    alone c (k + 4) (s.call c [.sendNext v rest kick]) = .next t := by
  have hlt : c < ((s.withDraws n).enRead c d).cores.length := by rwa [State.enRead_length]
  exact alone_step hc (seqStep_sendNext_some hchoose ..) <|
    alone_step (s := s.withDraws n) hc (seqStep_vipiEnRead ..) <|
    alone_step hlt (seqStep_sendTest_accepted (by rwa [State.enRead_ret (s := s.withDraws n) hc]) ..) <|
    alone_step hlt (seqStep_vipiPendOr ..) hnext

/-- A visit to a destination that does not, then what follows. -/
theorem alone_visit_dropped {k : Nat} (hc : c < s.cores.length)
    (hchoose : s.choose (setBits s.cfg.maxCores rest) = some (d, s.withDraws n))
    (hen : (s.core d).enabled.getLsbD v = false)
    (hnext : alone c k (((s.withDraws n).enRead c d).call c [.sendNext v (clearBit rest d) kick]) =
      .next t) :
    alone c (k + 3) (s.call c [.sendNext v rest kick]) = .next t := by
  have hlt : c < ((s.withDraws n).enRead c d).cores.length := by rwa [State.enRead_length]
  exact alone_step hc (seqStep_sendNext_some hchoose ..) <|
    alone_step (s := s.withDraws n) hc (seqStep_vipiEnRead ..) <|
    alone_step hlt (seqStep_sendTest_dropped (by rwa [State.enRead_ret (s := s.withDraws n) hc]) ..) hnext

/-- With no destination left, the fence and the kick. -/
theorem alone_visits_done (hc : c < s.cores.length) (hnone : setBits s.cfg.maxCores rest = [])
    (hkick : ∀ b, kick.getLsbD b = true → b < s.cfg.maxCores) (v : Nat) :
    alone c 3 (s.call c [.sendNext v rest kick]) =
      .next ((s.note (.fence c .w)).kickCores c kick) :=
  alone_step hc (seqStep_sendNext_none hnone ..) <|
    alone_step hc (seqStep_fenceW ..) <|
    alone_step hc (seqStep_sendKick (s := s.note (.fence c .w)) hkick c)
      (alone_zero _ c)

/-- t is s after what is left of a send of line v by core c: each core of `rest` that accepts the line is
signalled and kicked, each core of `kick` is kicked, and only core c has another answer. -/
def State.Sent (s t : State) (c v : Nat) (rest kick : Word) : Prop :=
  s.SameRest t ∧ t.lines = s.lines ∧ ∀ d, d < s.cores.length → ∃ r, (d ≠ c → r = (s.core d).ret) ∧
    t.core d = { s.core d with
      ret := r
      pending := if (rest.getLsbD d && (s.core d).enabled.getLsbD v) = true
        then (s.core d).pending ||| oneBit v else (s.core d).pending
      ipiPend := { (s.core d).ipiPend with
        other := (s.core d).ipiPend.other ||
          (kick.getLsbD d || rest.getLsbD d && (s.core d).enabled.getLsbD v) } }

theorem State.sent_done (hnone : ∀ d, d < s.cores.length → rest.getLsbD d = false) (c v : Nat)
    (kick : Word) : s.Sent ((s.note (.fence c .w)).kickCores c kick) c v rest kick := by
  refine ⟨((State.SameRest.refl s).note (Event.quiet_fence _ _)).kickCores c kick,
    State.kickCores_lines .., fun d hd => ⟨(s.core d).ret, fun _ => rfl, ?_⟩⟩
  rw [State.kickCores_core (s := s.note (.fence c .w)) hd, State.note_core]
  simp [hnone d hd]

/-- The read of a destination's mask changes no core but for the answer of its own. -/
theorem State.enRead_core (s : State) (c d x : Nat) : ∃ r, (x ≠ c → r = (s.core x).ret) ∧
    (s.enRead c d).core x = { s.core x with ret := r } := by
  rw [State.enRead, State.reply_core]
  split
  · next h => exact ⟨_, fun hx => absurd h.1.symm hx, rfl⟩
  · exact ⟨_, fun _ => rfl, rfl⟩

theorem State.signalled_core {x : Nat} (hx : x < s.cores.length) (hv : v < s.cfg.nrVipi) (c d n : Nat) :
    ∃ r, (x ≠ c → r = (s.core x).ret) ∧ (s.signalled c d v n).core x = { s.core x with
      ret := r
      pending := if x = d then (s.core x).pending ||| oneBit v else (s.core x).pending } := by
  obtain ⟨r, hr, heq⟩ := (s.withDraws n).enRead_core c d x
  refine ⟨r, hr, ?_⟩
  have hlt : x < ((s.withDraws n).enRead c d).cores.length := by rwa [State.enRead_length]
  rw [State.signalled, State.pendOr, State.setPending_core, State.access_core]
  by_cases hd : x = d
  · subst hd
    rw [if_pos ⟨rfl, hlt⟩, heq, if_pos rfl]
    exact congrArg (fun m => { s.core x with ret := r, pending := (s.core x).pending ||| m })
      (vipiBits_oneBit hv)
  · rw [if_neg fun h => hd h.1.symm, heq, if_neg hd]
    rfl

/-- A visit to core d, after which `kick'` are the cores to kick, followed by what is then left of the send, is
what was left of it before the visit. -/
theorem State.Sent.of_visit {kick' : Word} (hrest : s.SameRest u) (hlines : u.lines = s.lines)
    (hd : rest.getLsbD d = true)
    (hcore : ∀ x, x < s.cores.length → ∃ r, (x ≠ c → r = (s.core x).ret) ∧ u.core x = { s.core x with
      ret := r
      pending := if x = d ∧ (s.core d).enabled.getLsbD v = true
        then (s.core x).pending ||| oneBit v else (s.core x).pending })
    (hkick : ∀ x, kick'.getLsbD x = (kick.getLsbD x || (decide (x = d) && (s.core d).enabled.getLsbD v)))
    (h : u.Sent t c v (clearBit rest d) kick') : s.Sent t c v rest kick := by
  obtain ⟨hrest', hlines', hcore'⟩ := h
  obtain ⟨-, -, hlen, -⟩ := id hrest
  refine ⟨hrest.trans hrest', hlines'.trans hlines, fun x hx => ?_⟩
  obtain ⟨r, hr, heq⟩ := hcore x hx
  obtain ⟨r', hr', heq'⟩ := hcore' x (hlen ▸ hx)
  refine ⟨r', fun hne => (hr' hne).trans ((congrArg CoreState.ret heq).trans (hr hne)), ?_⟩
  rw [heq', heq, getLsbD_clearBit, hkick]
  by_cases hxd : x = d
  · subst hxd
    simp [hd]
  · simp [hxd]

theorem State.Sent.of_signalled (hv : v < s.cfg.nrVipi) (hd : rest.getLsbD d = true)
    (hen : (s.core d).enabled.getLsbD v = true)
    (h : (s.signalled c d v n).Sent t c v (clearBit rest d) (kick ||| oneBit d)) :
    s.Sent t c v rest kick := by
  have hlow : d < 32 := BitVec.lt_of_getLsbD hd
  refine h.of_visit (u := s.signalled c d v n)
    ((((State.SameRest.refl s).withDraws n).enRead c d).pendOr ..) rfl hd (fun x hx => ?_) fun x => ?_
  · obtain ⟨r, hr, heq⟩ := State.signalled_core hx hv c d n
    exact ⟨r, hr, by simpa [hen] using heq⟩
  · rw [BitVec.getLsbD_or, getLsbD_oneBit, hen]
    by_cases hx : x = d <;> simp [hx, hlow]

theorem State.Sent.of_dropped (hd : rest.getLsbD d = true)
    (hen : (s.core d).enabled.getLsbD v = false)
    (h : ((s.withDraws n).enRead c d).Sent t c v (clearBit rest d) kick) : s.Sent t c v rest kick := by
  refine h.of_visit (((State.SameRest.refl s).withDraws n).enRead c d) rfl hd (fun x _ => ?_)
    fun x => by rw [hen, Bool.and_false, Bool.or_false]
  obtain ⟨r, hr, heq⟩ := (s.withDraws n).enRead_core c d x
  exact ⟨r, hr, by simpa [hen] using heq⟩

/-- A visit leaves fewer destinations. -/
theorem length_setBits_clearBit (hd : d ∈ setBits n m) :
    (setBits n (clearBit m d)).length < (setBits n m).length := by
  have hsub : setBits n (clearBit m d) = (setBits n m).filter (fun b => !decide (b = d)) := by
    simp [setBits, List.filter_filter, getLsbD_clearBit, Bool.and_comm]
  rw [hsub]
  exact List.length_filter_lt_length_iff_exists.2 ⟨d, hd, by simp⟩

/-- The steps of a send from the head of its loop on, by the number of destinations left. -/
theorem alone_sendNext (hlen : s.cores.length = s.cfg.maxCores) (hc : c < s.cores.length)
    (hv : v < s.cfg.nrVipi) (hkick : ∀ b, kick.getLsbD b = true → b < s.cfg.maxCores) :
    ∃ k t, alone c k (s.call c [.sendNext v rest kick]) = .next t ∧ s.Sent t c v rest kick := by
  induction hk : (setBits s.cfg.maxCores rest).length using Nat.strong_induction_on
    generalizing s rest kick with
  | _ left ih =>
  by_cases hnone : setBits s.cfg.maxCores rest = []
  · refine ⟨3, _, alone_visits_done hc hnone hkick v, State.sent_done (fun d hd => ?_) c v kick⟩
    by_contra hset
    have hmem := (mem_setBits s.cfg.maxCores d rest).2 ⟨hlen ▸ hd, by simpa using hset⟩
    rw [hnone] at hmem
    cases hmem
  · obtain ⟨d, n, hchoose, hd⟩ := s.choose_of_ne hnone
    have hfewer := hk ▸ length_setBits_clearBit hd
    obtain ⟨hlow, hset⟩ := (mem_setBits ..).1 hd
    cases hen : (s.core d).enabled.getLsbD v with
    | true =>
      have hlen' := s.signalled_length c d v n
      obtain ⟨k, t, hrun, hsent⟩ := ih _ hfewer (s := s.signalled c d v n) (hlen'.trans hlen)
        (hlen' ▸ hc) hv (lt_of_getLsbD_or_oneBit hkick hlow) rfl
      exact ⟨k + 4, t, alone_visit_accepted hc hchoose hen hrun, hsent.of_signalled hv hset hen⟩
    | false =>
      have hlen' := (s.withDraws n).enRead_length c d
      obtain ⟨k, t, hrun, hsent⟩ := ih _ hfewer (s := (s.withDraws n).enRead c d)
        (hlen'.trans hlen) (hlen' ▸ hc) hv hkick rfl
      exact ⟨k + 3, t, alone_visit_dropped hc hchoose hen hrun, hsent.of_dropped hset hen⟩

/-- Settles O26: the loop from its head, with every destination left and none to kick. -/
theorem vipiSend : Obligations.VipiSend := by
  unfold Obligations.VipiSend
  intro s c v dests hs hc
  have hlt := hs.core_lt hc
  refine ⟨fun hv _ => ?_, fun hv => if_neg (Nat.not_lt.2 hv)⟩
  obtain ⟨-, -, hlen, -⟩ := hs
  obtain ⟨k, t, hrun, hrest, hlines, hcore⟩ := alone_sendNext (s := s.note (.fence c .w)) (rest := dests)
    (kick := 0) hlen hlt hv (by simp)
  refine ⟨k + 1, _, if_pos hv, t, alone_step hlt (seqStep_fenceW ..) hrun,
    ((State.SameRest.refl s).note (Event.quiet_fence _ _)).trans hrest, hlines, fun d hd => ?_⟩
  obtain ⟨r, hr, heq⟩ := hcore d (hlen ▸ hd)
  rw [heq]
  exact ⟨hr, by simp [oneBit]⟩

/-! ## What a send publishes -/

/-- An access that reads a piece of block state observes an earlier entry that wrote it. -/
theorem observes_of_write {tr : List Event} {x r : Nat} {ev : Event} {k : Option AccessKind} {loc : Loc}
    {rs ws : List Loc} (hx : tr[x]? = some ev) (hwrite : loc ∈ ev.writes)
    (hr : tr[r]? = some (.access c k rs ws)) (hread : loc ∈ rs) (hxr : x < r) :
    observes tr x r = true := by
  refine entryAt_of_eq hr ?_
  simp only [Bool.and_eq_true, List.any_eq_true, List.mem_range, decide_eq_true_eq]
  refine ⟨entryAt_of_eq hx ?_, x, hxr, le_rfl, entryAt_of_eq hx ?_⟩
  · simpa using List.ne_nil_of_mem hwrite
  · exact List.any_eq_true.2 ⟨loc, hread, by simpa using hwrite⟩

/-- What stands in the total order after `pre` once core a fenced, made the entry ev and signalled core c,
and core c, after `mid`, took its pending bits and fenced. -/
def signalThenTake (pre mid : List Event) (ev : Event) (a c : Nat) : List Event :=
  pre ++ Event.fence a .w :: ev :: Event.access a none [] [.pending c] :: mid ++
    [Event.access c none [.pending c] [.pending c], Event.fence c .r]

/-- The fence before the signal and the fence after the exchange make core a's earlier writes visible. -/
theorem paired_signalThenTake {a w : Nat} (pre mid : List Event) (ev : Event) (hw : w < pre.length) :
    paired (signalThenTake pre mid ev a c) a c w = true := by
  have hx : (signalThenTake pre mid ev a c)[pre.length + 2]? = some (.access a none [] [.pending c]) := by
    simp [signalThenTake]
  have hr : (signalThenTake pre mid ev a c)[pre.length + 3 + mid.length]? =
      some (.access c none [.pending c] [.pending c]) := by
    simp [signalThenTake, Nat.add_comm, Nat.add_left_comm]
  have hobs := observes_of_write (loc := .pending c) hx (by simp [Event.writes]) hr (by simp) (by omega)
  refine paired_of (f := pre.length) (g := pre.length + 4 + mid.length) hw (by simp [signalThenTake])
    (by omega) (entryAt_of_eq hx (by simp [Event.writtenBy])) (by omega)
    (entryAt_of_eq hr (by simp [Event.readBy])) hobs (by omega) ?_
  simp [signalThenTake, Nat.add_comm, Nat.add_left_comm]

theorem State.signalled_trace (s : State) (c d v n : Nat) : (s.signalled c d v n).trace = s.trace ++
    [Event.access c none [.enabled d] [], Event.access c none [] [.pending d]] := by
  simp [State.signalled, State.enRead, State.pendOr]

/-- The steps of a send to core d alone, which accepts the line, and what they record. -/
theorem alone_sendNext_one (hc : c < s.cores.length) (hd : d < s.cfg.maxCores) (hd32 : d < 32)
    (hv : v < s.cfg.nrVipi) (hen : (s.core d).enabled.getLsbD v = true) :
    ∃ t l, alone c 7 (s.call c [.sendNext v (oneBit d) 0]) = .next t ∧ s.Sent t c v (oneBit d) 0 ∧
      t.trace = s.trace ++ Event.access c none [.enabled d] [] :: Event.access c none [] [.pending d] :: l := by
  have hmem : d ∈ setBits s.cfg.maxCores (oneBit d) :=
    (mem_setBits ..).2 ⟨hd, by simp [getLsbD_oneBit, hd32]⟩
  obtain ⟨x, n, hchoose, hx⟩ := s.choose_of_ne (List.ne_nil_of_mem hmem)
  obtain ⟨-, hset⟩ := (mem_setBits ..).1 hx
  obtain rfl := eq_of_getLsbD_oneBit hset
  have hleft := clearBit_oneBit x
  have hlt := s.signalled_length c x v n
  have hsent := State.sent_done (s := s.signalled c x v n) (rest := clearBit (oneBit x) x)
    (by simp [hleft]) c v (0 ||| oneBit x)
  obtain ⟨⟨l, hl, -⟩, -⟩ := (State.SameRest.refl ((s.signalled c x v n).note (.fence c .w))).kickCores c
    (0 ||| oneBit x)
  have hnone : setBits s.cfg.maxCores (clearBit (oneBit x) x) = [] := by
    rw [hleft]
    exact setBits_zero _
  have hend := alone_visits_done (s := s.signalled c x v n) (hlt ▸ hc) hnone
    (lt_of_getLsbD_or_oneBit (kick := 0) (by simp) hd) v
  have hrun := alone_visit_accepted hc hchoose hen hend
  refine ⟨_, .fence c .w :: l, hrun, hsent.of_signalled hv hset hen, ?_⟩
  rw [hl, State.note_trace, State.signalled_trace]
  simp

/-- Settles O49: the sender's fence stands before its signal, the receiver's after the exchange that
reads it. -/
theorem vipiSendPublishesMemory : Obligations.VipiSendPublishesMemory := by
  unfold Obligations.VipiSendPublishesMemory
  intro s a c v w addr b line hs ha hc hv hen hfe hw
  have hlt := hs.core_lt ha
  have hltc := hs.core_lt hc
  obtain ⟨⟨-, -, ⟨-, hcores⟩, -, hcodes, -⟩, -⟩ := hs
  obtain ⟨t, l, hsend, ⟨hrest, -, hcore⟩, htrace⟩ := alone_sendNext_one (c := a) (d := c)
    (s := s.note (.fence a .w)) hlt hc (by omega) hv hen
  obtain ⟨r, -, hcore⟩ := hcore c hltc
  have hcfg := hrest.cfg
  obtain ⟨-, -, hlen, -⟩ := hrest
  have hfe' : (t.core c).fe = .draining := by rw [hcore]; exact hfe
  refine ⟨_, if_pos hv, t, alone_step hlt (seqStep_fenceW ..) hsend, _, exec_vipiReceive_draining hfe', _,
    alone_vipiReceive (hcfg ▸ hcodes) (hlen ▸ hltc), ?_⟩
  have hlow : w < s.trace.length := (List.getElem?_eq_some_iff.1 hw).1
  have hall : (t.received c).trace = signalThenTake s.trace
      (l ++ [Event.access c (some .relaxed) [] [.ipiPend c .other], Event.fence c .r])
      (.access a none [.enabled c] []) a c := by
    rw [State.received_trace, htrace]
    simp [signalThenTake]
  have hpaired : paired (t.received c).trace a c w = true := hall ▸ paired_signalThenTake _ _ _ hlow
  have hwrite : (t.received c).trace[w]? = some (.memWrite (.core a) addr b) := by
    rw [hall, signalThenTake, List.append_assoc, List.getElem?_append_left hlow, hw]
  show mustSee (t.received c).trace c line w = true
  simp [mustSee, hwrite, hpaired]

end Sys2Proof.Machine
end

section
/-!
PROOF. A core is in state Draining exactly while it runs one TRAP: trap entry sets the state and adds the one
end of TRAP, that end, performed, resets it, and nothing else touches either.
-/

namespace Sys2Proof.Machine

open Sys2Proof

/-- How many ends of TRAP stand among core c's steps. -/
def State.trapEnds (s : State) (c : Nat) : Nat := (s.core c).seq.countP SeqStep.isTrapExit

variable {c : Nat} {p e : Prop} {s t : State}

/-- What TRAP needs of a core (45_frontend_config R390, R395). -/
theorem trapAdmitted_iff (s : State) (c : Nat) : s.trapAdmitted c = true ↔
    (s.core c).fe = .idle ∧ s.armed = true ∧ (s.core c).seq = [] := by
  simp [State.trapAdmitted, and_assoc]

/-! ## Updates that change neither the state of a front-end nor the ends of TRAP -/

theorem State.DrainingIsOneTrap.of_same (hs : s.DrainingIsOneTrap)
    (harmed : t.armed = false → s.armed = false) (hfe : ∀ d, (t.core d).fe = (s.core d).fe)
    (hends : ∀ d, t.trapEnds d = s.trapEnds d) : t.DrainingIsOneTrap := by
  obtain ⟨hone, hidle⟩ := hs
  refine ⟨fun d => ?_, fun ha d => (hfe d).trans (hidle (harmed ha) d)⟩
  rw [hfe d]
  exact (hends d).trans (hone d)

theorem State.DrainingIsOneTrap.of_seq (hs : s.DrainingIsOneTrap)
    (harmed : t.armed = false → s.armed = false) (hfe : ∀ d, (t.core d).fe = (s.core d).fe)
    (hseq : ∀ d, (t.core d).seq = (s.core d).seq) : t.DrainingIsOneTrap :=
  hs.of_same harmed hfe fun d => congrArg (List.countP SeqStep.isTrapExit) (hseq d)

theorem not_trapExit_of_plain {m : SeqStep} (hm : m.plain = true) : m.isTrapExit = false := by
  rw [SeqStep.plain, Bool.and_eq_true, Bool.not_eq_true', Bool.not_eq_true'] at hm
  exact hm.2

theorem countP_trapExit_of_plain {l : List SeqStep} (hl : l.all SeqStep.plain = true) :
    l.countP SeqStep.isTrapExit = 0 := by
  rw [List.countP_eq_zero]
  intro m hm
  rw [not_trapExit_of_plain (List.all_eq_true.1 hl m hm)]
  exact Bool.false_ne_true

theorem State.DrainingIsOneTrap.call (hs : s.DrainingIsOneTrap) {l : List SeqStep}
    (hl : l.countP SeqStep.isTrapExit = 0) : (s.call c l).DrainingIsOneTrap := by
  refine hs.of_same id (by simp) fun d => ?_
  unfold State.trapEnds
  rw [State.call_core]
  split
  · rw [List.countP_append, hl, Nat.zero_add]
  · rfl

/-- A step that is no end of TRAP is taken off. -/
theorem State.DrainingIsOneTrap.setSeq {m : SeqStep} {rest : List SeqStep} (hs : s.DrainingIsOneTrap)
    (hseq : (s.core c).seq = m :: rest) (hm : m.isTrapExit = false) :
    (s.setSeq c rest).DrainingIsOneTrap := by
  refine hs.of_same id (by simp) fun d => ?_
  unfold State.trapEnds
  rw [State.setSeq_core]
  split
  · next hd =>
    obtain ⟨rfl, -⟩ := hd
    rw [hseq, List.countP_cons_of_neg (by rw [hm]; exact Bool.false_ne_true)]
  · rfl

theorem State.DrainingIsOneTrap.sendIpi (hs : s.DrainingIsOneTrap) {f : Nat → CoreState → CoreState}
    (hf : ∀ d k, f d k = { k with ipiPend := (f d k).ipiPend }) :
    (s.updCores f).DrainingIsOneTrap := by
  have hcore : ∀ d, (s.updCores f).core d =
      { s.core d with ipiPend := ((s.updCores f).core d).ipiPend } := fun d => by
    rw [State.updCores_core]
    split
    · exact hf d _
    · rfl
  exact hs.of_seq id (fun d => by rw [hcore d]) fun d => by rw [hcore d]

/-! ## The start and the end of TRAP -/

/-- Where TRAP starts the core has no end of TRAP among its steps, and gets one. -/
theorem State.DrainingIsOneTrap.takeTrap (hs : s.DrainingIsOneTrap) :
    (s.takeTrap c).DrainingIsOneTrap := by
  cases ha : s.trapAdmitted c with
  | false => rwa [takeTrap_not_admitted ha]
  | true =>
    obtain ⟨-, harmed, hnil⟩ := (trapAdmitted_iff s c).1 ha
    obtain ⟨order, n, horder, ht⟩ := takeTrap_admitted ha
    have hplain : order.countP SeqStep.isTrapExit = 0 := by rcases horder with rfl | rfl <;> rfl
    obtain ⟨hone, -⟩ := hs
    rw [ht]
    refine ⟨fun d => ?_, fun hno => nomatch harmed.symm.trans hno⟩
    by_cases hd : c = d ∧ d < s.cores.length
    · obtain ⟨rfl, hlt⟩ := hd
      simp [State.call_core, State.setFe_core, hlt, hnil, hplain, SeqStep.isTrapExit]
    · simpa [State.call_core, State.setFe_core, hd] using hone d

theorem State.CoreBecomes.trapReturn {st : CoreState} (h : s.CoreBecomes t c st)
    (hc : c < s.cores.length) : s.CoreBecomes (t.trapReturn c) c { st with fe := .idle } :=
  (h.note (Event.quiet_trapReturn c)).updCore hc _

/-- The core that ends a TRAP was in Draining and has no other end of TRAP among its steps. -/
theorem trapReturn_keeps_oneTrap {rest : List SeqStep} (hs : s.DrainingIsOneTrap)
    (hseq : (s.core c).seq = .trapExit :: rest) :
    ((s.setSeq c rest).trapReturn c).DrainingIsOneTrap := by
  obtain ⟨hone, hidle⟩ := hs
  have hlt := core_lt_of_seq hseq
  have hrest : rest.countP SeqStep.isTrapExit = 0 := by
    have hc := hone c
    rw [hseq, List.countP_cons_of_pos rfl] at hc
    split at hc <;> omega
  have hpop : s.CoreBecomes (s.setSeq c rest) c { s.core c with seq := rest } :=
    (State.CoreBecomes.refl s c).updCore hlt _
  obtain ⟨-, -, hothers, hcore⟩ := hpop.trapReturn hlt
  refine ⟨fun d => ?_, fun hno d => ?_⟩
  · by_cases hd : d = c
    · rw [hd, hcore]
      exact hrest
    · rw [hothers d hd]
      exact hone d
  · by_cases hd : d = c
    · rw [hd, hcore]
    · rw [hothers d hd]
      exact hidle hno d

/-! ## The steps -/

/-- An operation's updates keep the invariant. -/
theorem Effect.keeps_oneTrap (h : Effect c p e s t) (hs : s.DrainingIsOneTrap) :
    t.DrainingIsOneTrap := by
  induction h with
  | refl => exact hs
  | note _ _ ih | refuse _ ih | addDiag _ ih | withDraws _ ih | withSched _ ih
  | updLine _ _ ih | updBank _ _ ih => exact ih
  | reply _ ih | withArmed _ ih | setQueue _ ih | setBound _ ih | setFlags _ ih | setArm _ ih
  | setFiqDisabled _ ih | setIpiPend _ ih | setIpiMask _ ih | setPending _ _ ih
  | setEnabled _ _ ih => exact ih.of_seq (by simp) (by simp) (by simp)
  | call _ hl ih => exact ih.call (countP_trapExit_of_plain hl)
  | sendIpi _ hf ih => exact ih.sendIpi hf
  | takeTrap _ ih => exact ih.takeTrap

/-- Core c takes its next step off and performs it. -/
theorem ControlStep.keeps_oneTrap {m : SeqStep} {rest : List SeqStep} (hs : s.DrainingIsOneTrap)
    (hseq : (s.core c).seq = m :: rest) (h : ControlStep c m (s.setSeq c rest) t) :
    t.DrainingIsOneTrap := by
  cases h with
  | operation h => exact h.keeps_oneTrap (hs.setSeq hseq rfl)
  | plain hm h => exact h.keeps_oneTrap (hs.setSeq hseq (not_trapExit_of_plain hm))
  | takeLock =>
    have hpop := hs.setSeq hseq rfl
    exact .call hpop rfl
  | @choose _ _ _ m' r _ hm =>
    have hnone : [m', .affUnlock, .ret r].countP SeqStep.isTrapExit = 0 := by
      rw [List.countP_cons, not_trapExit_of_plain hm]
      rfl
    have hpop := hs.setSeq hseq rfl
    exact .call hpop hnone
  | chooseNone => exact (hs.setSeq hseq rfl).call rfl
  | freeLock => exact hs.setSeq hseq rfl
  | trapReturn => exact trapReturn_keeps_oneTrap hs hseq

theorem CoreStep.keeps_oneTrap (h : CoreStep c s t) (hs : s.DrainingIsOneTrap) :
    t.DrainingIsOneTrap := by
  cases h with
  | effect h => exact h.keeps_oneTrap hs
  | operation hu h => exact h.keeps_oneTrap (hu.keeps_oneTrap hs)
  | @memRead u addr hu =>
    obtain ⟨n, src, v, hr⟩ := memRead_eq u c addr
    rw [hr]
    exact (hu.keeps_oneTrap hs).of_seq id (by simp) (by simp)
  | memWrite hu => exact hu.keeps_oneTrap hs
  | control hu hseq h => exact h.keeps_oneTrap (hu.keeps_oneTrap hs) hseq

/-- Settles O59: a core's move starts a TRAP, ends one, or changes neither `fe` nor the ends of TRAP, and the
environment changes inputs only. -/
theorem stepKeepsOneTrapPerDrain : Obligations.StepKeepsOneTrapPerDrain := by
  unfold Obligations.StepKeepsOneTrapPerDrain
  intro s t hs ht
  cases step_machineStep ht with
  | core c h => exact h.keeps_oneTrap hs
  | input h =>
    obtain ⟨⟨l, hl⟩, hcore⟩ := h
    exact hs.of_seq (by rw [hl]; exact id) (fun d => by rw [hcore d]) fun d => by rw [hcore d]

end Sys2Proof.Machine
end

section
/-!
PROOF. The dispatch front-end and configuration (45_frontend_config): the start of TRAP, one pass of DRAIN,
the routes of CLASSIFY, and the lines that RESOLVE and BIND name.
-/

namespace Sys2Proof

variable {cfg : Config} {kind : Nat}

/-- The code of the kind whose lines are a domain's (30_encoding R122). -/
def Config.codeOf (cfg : Config) : Dom → Nat
  | .hw => cfg.kindCode.hw
  | .fiq => cfg.kindCode.fiq
  | .ipi => cfg.kindCode.ipi

theorem Config.domOfKind_codeOf (h : cfg.Wf) (dom : Dom) :
    cfg.domOfKind (cfg.codeOf dom) = some dom := by
  obtain ⟨-, -, -, -, -, -, -, -, hhwfiq, hhwipi, hfiqipi⟩ := h
  cases dom with
  | hw => exact if_pos rfl
  | fiq => exact (if_neg hhwfiq.symm).trans (if_pos rfl)
  | ipi => exact (if_neg hhwipi.symm).trans ((if_neg hfiqipi.symm).trans (if_pos rfl))

theorem Config.domOfKind_eq_none (hhw : kind ≠ cfg.kindCode.hw) (hfiq : kind ≠ cfg.kindCode.fiq)
    (hipi : kind ≠ cfg.kindCode.ipi) : cfg.domOfKind kind = none :=
  (if_neg hhw).trans ((if_neg hfiq).trans (if_neg hipi))

end Sys2Proof

namespace Sys2Proof.Machine

open Sys2Proof

variable {c index kind : Nat} {dom : Dom} {ew : Word} {s : State}

/-! ## TRAP -/

/-- Settles O30: TRAP is admitted in exactly these states, and sets out its steps in one of the two orders. -/
theorem trapEntry : Obligations.TrapEntry := by
  unfold Obligations.TrapEntry
  intro s c hs hc
  have hlt := hs.core_lt hc
  refine ⟨fun hidle harmed hnil => ?_, fun hnot => ?_⟩
  · obtain ⟨order, n, horder, ht⟩ := takeTrap_admitted ((trapAdmitted_iff s c).2 ⟨hidle, harmed, hnil⟩)
    have hstart := coreBecomes_updCore (((State.SameRest.refl s).withDraws n).note
      (Event.quiet_trapEntry c)) rfl rfl hlt fun k => { k with fe := .draining }
    have hsteps := hstart.call hlt (order ++ [.trapExit])
    rw [hnil, List.append_nil] at hsteps
    exact ⟨_, order, congrArg Host.Outcome.next ht, horder, hsteps⟩
  · have hno : s.trapAdmitted c = false := Bool.eq_false_iff.2 (mt (trapAdmitted_iff s c).1 hnot)
    exact congrArg Host.Outcome.next (takeTrap_not_admitted hno)

/-! ## DRAIN -/

theorem exec_drain_draining (hfe : (s.core c).fe = .draining) : exec (.drain c) s =
    .next (s.call c [.op (.readEvent c .ordered), .drainTest]) :=
  if_pos (decide_eq_true hfe)

theorem seqStep_readEvent (s : State) (c : Nat) (k : AccessKind) (q : List SeqStep) :
    seqStep c (.op (.readEvent c k)) (s.call c q) =
      .next (((s.readEvent c k).2.reply c (.word (s.readEvent c k).1)).call c q) := by
  rw [seqStep, exec_readEvent, readEvent_call, State.call_reply]

/-- An empty EVENT word ends the loop. -/
theorem seqStep_drainTest_empty (h : (s.core c).ret = .word 0) (q : List SeqStep) :
    seqStep c .drainTest (s.call c q) = .next (s.call c q) :=
  congrArg Host.Outcome.next (if_pos (by rw [State.call_core_ret, h]; rfl))

/-- Any other word is classified before the next read. -/
theorem seqStep_drainTest_event (h : (s.core c).ret = .word ew) (hne : ew ≠ 0) (q : List SeqStep) :
    seqStep c .drainTest (s.call c q) = .next (s.call c
      (.op (.classify c ew) :: .op (.readEvent c .ordered) :: .drainTest :: q)) := by
  rw [seqStep, State.drainTest, State.call_call, State.call_core_ret, h]
  exact congrArg Host.Outcome.next (if_neg hne)

/-- The auto-mask and the answer change no field of the core but its masks and its answer. -/
theorem autoMask_reply_core (hc : c < s.cores.length) (ev : EventKind) (r : Result) :
    ∃ b, ((s.autoMask c ev).reply c r).core c = { s.core c with ret := r, ipiMask := b } := by
  cases ev with
  | hw i => exact ⟨_, State.updCore_core_self _ _ _ hc⟩
  | ipi sel => exact ⟨_, autoMask_ipi_reply_core hc sel r⟩

theorem autoMask_line {ev : EventKind} {i : Nat} (hi : ev ≠ .hw i) (s : State) (c : Nat) :
    (s.autoMask c ev).line i = s.line i := by
  cases ev with
  | hw j => exact State.updLine_line_other _ _ fun hij => hi (hij ▸ rfl)
  | ipi sel => rfl

/-- An EVENT read with something waiting, as a step of core c: it answers the word of one of the events and
changes nothing else of the core but its masks, and of the lines none but the reported one. -/
theorem seqStep_readEvent_waiting (hc : c < s.cores.length) (k : AccessKind) (hne : s.events c ≠ []) :
    ∃ ev t b, ev ∈ s.events c ∧
      (∀ q, seqStep c (.op (.readEvent c k)) (s.call c q) = .next (t.call c q)) ∧
      s.SameRest t ∧ s.OtherCores t c ∧ (∀ i, ev ≠ .hw i → t.line i = s.line i) ∧
      t.core c = { s.core c with ret := .word (s.cfg.eventWord ev), ipiMask := b } := by
  obtain ⟨ev, n, hev, hread⟩ := readEvent_some k hne
  obtain ⟨b, hcore⟩ := autoMask_reply_core (s := (s.withDraws n).note (.report c k ev)) hc ev
    (.word (s.cfg.eventWord ev))
  refine ⟨ev, _, b, hev, fun q => by rw [seqStep_readEvent, hread],
    ((((State.SameRest.refl s).withDraws n).note (Event.quiet_report c k ev)).autoMask c ev).reply c _,
    otherCores_autoMask_reply ((s.withDraws n).note (.report c k ev)) c ev _,
    fun i hi => autoMask_line hi ((s.withDraws n).note (.report c k ev)) c, hcore⟩

/-- Settles O33: the first read answers 0, which ends the loop, or the word of a waiting event. -/
theorem drainReadsUntilEmpty : Obligations.DrainReadsUntilEmpty := by
  unfold Obligations.DrainReadsUntilEmpty
  intro s c hs hc hfe
  have hlt := hs.core_lt hc
  refine ⟨fun hempty => ?_, fun hne => ?_⟩
  · have hread := seqStep_readEvent s c .ordered [.drainTest]
    rw [readEvent_none .ordered hempty] at hread
    have hans := answers_access hlt (some .ordered) [] [] (.word 0)
    have hret := congrArg CoreState.ret (State.CoreBecomes.core_eq hans)
    exact ⟨_, exec_drain_draining hfe, _, alone_step hlt hread <|
      alone_step (State.CoreBecomes.core_lt hans hlt) (seqStep_drainTest_empty hret [])
        (alone_done ..), hans⟩
  · obtain ⟨ev, t, b, hev, hread, hrest, hothers, hlines, hcore⟩ :=
      seqStep_readEvent_waiting hlt .ordered hne
    obtain ⟨⟨-, -, -, -, hcodes, -⟩, -⟩ := hs
    have hword := eventWord_ne_zero hcodes ev
    have hlt' : c < t.cores.length := by
      obtain ⟨-, -, hlen, -⟩ := hrest
      rwa [hlen]
    refine ⟨_, exec_drain_draining hfe, _, alone_step hlt (hread _) <|
      alone_step hlt' (seqStep_drainTest_event (congrArg CoreState.ret hcore) hword [])
        (alone_zero _ c), ev, _, hev, rfl, hword, hrest.call c _,
      fun d hd => (State.updCore_core_other _ _ hd).trans (hothers d hd), hlines, ?_⟩
    rw [State.call, State.updCore_core_self _ _ _ hlt', hcore]
    rfl

/-! ## CLASSIFY -/

/-- Settles O34: the three branches, by the type and the index of the word. -/
theorem classifyRoutes : Obligations.ClassifyRoutes := by
  unfold Obligations.ClassifyRoutes
  intro s c ew hs hc _
  have hlt := hs.core_lt hc
  obtain ⟨⟨-, -, -, -, ⟨hcodes, -⟩, -⟩, -⟩ := hs
  have hself := State.CoreBecomes.refl s c
  refine ⟨fun htype hindex => ?_, fun htype hindex => ?_, fun hhw hipi => ?_⟩
  · exact ⟨_, if_pos ⟨htype, hindex⟩, hself.call hlt _⟩
  · have hhw : ¬(eventType ew = s.cfg.evTypeHw ∧ (eventIndex ew).toNat < s.cfg.nrHw) :=
      fun ⟨hhw, _⟩ => hcodes (hhw.symm.trans htype)
    exact ⟨_, (if_neg hhw).trans (if_pos ⟨htype, hindex⟩), hself.call hlt _⟩
  · exact ⟨_, (if_neg hhw).trans (if_neg hipi), _,
      alone_step hlt (seqStep_diag ..) (alone_done ..), (State.Extends.refl s).addDiag .., rfl⟩

/-! ## RESOLVE and BIND -/

theorem exec_resolve_line (hk : s.cfg.domOfKind kind = some dom) (hi : index < s.cfg.domSize dom)
    (c : Nat) (flags : Word) : exec (.resolve c kind index flags) s =
      .next (((s.access c none [] [.flags dom index]).setFlags dom index flags).reply c
        (.line dom index)) := by
  simp [exec, execResolve, hk, hi]

theorem exec_resolve_error (hno : ∀ dom, s.cfg.domOfKind kind = some dom → s.cfg.domSize dom ≤ index)
    (c : Nat) (flags : Word) :
    exec (.resolve c kind index flags) s = .next (s.reply c (.err .config)) := by
  cases hk : s.cfg.domOfKind kind with
  | none => simp [exec, execResolve, hk]
  | some dom => simp [exec, execResolve, hk, hno dom hk]

/-- What RESOLVE stores and answers for a line that is there. -/
theorem resolve_line (hs : s.Shaped) (hc : c < s.cfg.maxCores) (hi : index < s.cfg.domSize dom)
    (flags : Word) :
    ∃ t, exec (.resolve c (s.cfg.codeOf dom) index flags) s = .next t ∧ s.Extends t ∧
      t = { s with cores := t.cores, flags := t.flags, trace := t.trace } ∧
      t.cores.length = s.cores.length ∧ s.OtherCores t c ∧
      t.core c = { s.core c with ret := .line dom index } ∧
      t.flagsOf dom index = some flags ∧
      ∀ dom' idx, ¬(dom' = dom ∧ idx = index) → t.flagsOf dom' idx = s.flagsOf dom' idx := by
  have hlt := hs.core_lt hc
  have hnoted : (s.access c none [] [.flags dom index]).Shaped := hs
  refine ⟨_, exec_resolve_line (Config.domOfKind_codeOf hs.1 dom) hi c flags,
    ((State.Extends.refl s).note (Event.quiet_access c none [] [.flags dom index])).congr (by simp),
    by cases dom <;> rfl, by simp, fun d hd => ?_, ?_, ?_, fun dom' idx hne => ?_⟩
  · simp [State.reply_core, Ne.symm hd]
  · simp [State.reply_core, hlt]
  · exact State.setFlags_flagsOf_self _ flags hnoted hi
  · exact State.setFlags_flagsOf_other _ flags fun ⟨hdom, hidx⟩ => hne ⟨hdom.symm, hidx.symm⟩

theorem resolve_outOfRange (hs : s.Shaped) (hc : c < s.cfg.maxCores)
    (hi : s.cfg.domSize dom ≤ index) (flags : Word) :
    ∃ t, exec (.resolve c (s.cfg.codeOf dom) index flags) s = .next t ∧
      s.Answers t c (.err .config) :=
  ⟨_, exec_resolve_error (fun dom' hdom' => by
    rw [Config.domOfKind_codeOf hs.1, Option.some.injEq] at hdom'
    rwa [← hdom']) c flags, answers_reply (hs.core_lt hc) _⟩

/-- Settles O35: each kind's code names its domain, whose size bounds the index; no other code names one. -/
theorem resolveDescriptor : Obligations.ResolveDescriptor := by
  unfold Obligations.ResolveDescriptor
  intro s c index flags hs hc
  have hline (dom : Dom) := And.intro (resolve_line (index := index) (dom := dom) hs hc · flags)
    (resolve_outOfRange (index := index) (dom := dom) hs hc · flags)
  refine ⟨fun x hx => ?_, fun kind hhw hfiq hipi => ?_⟩
  · simp only [List.mem_cons, List.not_mem_nil, or_false] at hx
    rcases hx with rfl | rfl | rfl
    exacts [hline .hw, hline .fiq, hline .ipi]
  · have hnone := Config.domOfKind_eq_none hhw hfiq hipi
    exact ⟨_, exec_resolve_error (fun dom hdom => nomatch hnone.symm.trans hdom) c flags,
      answers_reply (hs.core_lt hc) _⟩

/-- Settles O36: the entry of the line is set, after the record of the write. -/
theorem bindSetsOneHandler : Obligations.BindSetsOneHandler := by
  unfold Obligations.BindSetsOneHandler
  intro s c idx h dom hs _ hidx
  have hnoted : (s.access c none [] [.bound dom idx]).Shaped := hs
  have hext := (State.Extends.refl s).note (Event.quiet_access c none [] [.bound dom idx])
  exact ⟨_, rfl, State.setBound_bound_self _ h hnoted hidx,
    fun dom' idx' hne =>
      State.setBound_bound_other _ h fun ⟨hdom, hidx⟩ => hne ⟨hdom.symm, hidx.symm⟩,
    hext.congr (by simp), by cases dom <;> rfl⟩

end Sys2Proof.Machine
end

section
/-!
PROOF. Exceptions (60_exceptions): an index out of range is answered an error, an interrupt that is due is
taken before the core's next request, and the end of TRAP resets the front-end alone.
-/

namespace Sys2Proof.Machine

open Sys2Proof

variable {c i : Nat} {s : State}

/-! ## Indices out of range -/

/-- An operation on a line that is not there answers the error, whatever its steps would be. -/
theorem onLine_answers_range (hc : c < s.cores.length) (hi : s.cfg.nrHw ≤ i) (l : List SeqStep) :
    ∃ t, s.onLine c i l = .next t ∧ s.Answers t c (.err .range) :=
  ⟨_, onLine_ge hi c l, answers_reply hc _⟩

theorem onFiq_answers_range (hc : c < s.cores.length) (hi : s.cfg.nrFiq ≤ i) (l : List SeqStep) :
    ∃ t, s.onFiq c i l = .next t ∧ s.Answers t c (.err .range) :=
  ⟨_, onFiq_ge hi c l, answers_reply hc _⟩

theorem onVipi_answers_range (hc : c < s.cores.length) (hi : s.cfg.nrVipi ≤ i) (l : List SeqStep) :
    ∃ t, s.onVipi c i l = .next t ∧ s.Answers t c (.err .range) :=
  ⟨_, onVipi_ge hi c l, answers_reply hc _⟩

/-- Settles O16: each operation starts with the test of its index against the size of its domain. -/
theorem outOfRangeIsErrRange : Obligations.OutOfRangeIsErrRange := by
  unfold Obligations.OutOfRangeIsErrRange
  intro s c x m hs hc
  have hlt := hs.core_lt hc
  simp only [List.forall_mem_cons]
  refine ⟨fun hx => ?_, fun hx => ?_, fun hx => ?_⟩
  · have hrange := onLine_answers_range hlt hx
    exact ⟨hrange _, hrange _, hrange _, hrange _, List.forall_mem_nil _⟩
  · have hrange := onFiq_answers_range hlt hx
    exact ⟨hrange _, hrange _, hrange _, List.forall_mem_nil _⟩
  · have hrange := onVipi_answers_range hlt hx
    exact ⟨hrange _, hrange _, List.forall_mem_nil _⟩

/-! ## An interrupt that is due -/

/-- What makes an interrupt due (60_exceptions R458, 45_frontend_config R395). -/
theorem trapDue_iff (s : State) (c : Nat) : s.trapDue c = true ↔
    s.trapAdmitted c = true ∧ (s.core c).accepts = true ∧ (s.irqOut c = true ∨ s.fiqOut c = true) := by
  simp only [State.trapDue, Bool.and_eq_true, Bool.or_eq_true, and_assoc]

/-- An interrupt is due only at a core with no step to perform, and its move is then TRAP. -/
theorem coreMove_trapDue (hc : c < s.cfg.maxCores) (hdue : s.trapDue c = true) :
    coreMove c s = exec (.trap c) s := by
  obtain ⟨hadmitted, -, -⟩ := (trapDue_iff s c).1 hdue
  obtain ⟨-, -, hnil⟩ := (trapAdmitted_iff s c).1 hadmitted
  rw [coreMove, if_pos hc, hnil]
  exact if_pos hdue

/-- Settles O31: the core's move is TRAP, whose start leaves its requests as they are. -/
theorem dueTrapIsTaken : Obligations.DueTrapIsTaken := by
  unfold Obligations.DueTrapIsTaken
  intro s c movers hs hc hrefused hsched hidle harmed hnil haccepts hraised
  have hdue : (s.withSched movers).trapDue c = true :=
    (trapDue_iff s c).2 ⟨(trapAdmitted_iff s c).2 ⟨hidle, harmed, hnil⟩, haccepts, hraised⟩
  have hstep : step s = exec (.trap c) (s.withSched movers) :=
    (step_sched hrefused hsched).trans (coreMove_trapDue (s := s.withSched movers) hc hdue)
  obtain ⟨hstart, -⟩ := trapEntry (s.withSched movers) c hs.withSched hc
  obtain ⟨t, order, htrap, -, hbegun⟩ := hstart hidle harmed hnil
  refine ⟨t, hstep.trans htrap, htrap, ?_, ?_⟩ <;> simp [hbegun.core_eq]

/-! ## The end of TRAP -/

/-- Settles O32: the end of TRAP is taken off the core's steps, and resets the front-end. -/
theorem trapReturn : Obligations.TrapReturn := by
  unfold Obligations.TrapReturn
  intro s c rest hs hc hseq
  have hlt := hs.core_lt hc
  have hpop : s.CoreBecomes (s.setSeq c rest) c { s.core c with seq := rest } :=
    (State.CoreBecomes.refl s c).updCore hlt _
  exact ⟨(s.setSeq c rest).trapReturn c, advance_cons s hseq, hpop.trapReturn hlt⟩

end Sys2Proof.Machine
end

section
/-!
PROOF. Initialisation and bring-up (70_reset_and_hazards R503, R505): INIT and CPU_ONLINE performed alone to
their end. Both unroll a loop over a count, so what a list of steps does is said for lists of any length.
-/

namespace Sys2Proof.Machine

open Sys2Proof

variable {c k m : Nat} {v w : Word} {x : SeqStep} {l l' : List SeqStep} {F G : Nat → Line → Line}
  {st st' : CoreState} {cfg : Config} {s t u : State}

/-! ## The steps of one core, as a list -/

/-- Core c performs the steps l, alone, and that leads from s to t, whatever steps it has after them. -/
def Performs (c : Nat) (l : List SeqStep) (s t : State) : Prop :=
  ∀ q, ∃ n, alone c n (s.call c (l ++ q)) = .next (t.call c q)

theorem Performs.nil (c : Nat) (s : State) : Performs c [] s s := fun _ => ⟨0, alone_zero _ c⟩

/-- A step that leaves the steps l' to perform in its place. -/
theorem Performs.cons_call (hc : c < s.cores.length)
    (hstep : ∀ q, seqStep c x (s.call c q) = .next (t.call c (l' ++ q)))
    (h : Performs c (l' ++ l) t u) : Performs c (x :: l) s u := fun q => by
  obtain ⟨n, hn⟩ := h q
  exact ⟨n + 1, alone_step hc (hstep (l ++ q)) (List.append_assoc l' l q ▸ hn)⟩

/-- A step that leaves none. -/
theorem Performs.cons (hc : c < s.cores.length)
    (hstep : ∀ q, seqStep c x (s.call c q) = .next (t.call c q)) (h : Performs c l t u) :
    Performs c (x :: l) s u :=
  .cons_call (l' := []) hc hstep h

theorem Performs.append (h : Performs c l s t) (h' : Performs c l' t u) :
    Performs c (l ++ l') s u := fun q => by
  obtain ⟨n, hn⟩ := h (l' ++ q)
  obtain ⟨n', hn'⟩ := h' q
  rw [List.append_assoc]
  exact ⟨n + n', (alone_add _ c n n' hn).trans hn'⟩

/-- An unrolled loop: what holds before each pass, for its index, holds after it for the next. -/
theorem performs_loop {P : Nat → State → Prop} {body : Nat → List SeqStep} (hstart : P 0 s) (m : Nat)
    (hbody : ∀ k u, k < m → P k u → ∃ t, Performs c (body k) u t ∧ P (k + 1) t) :
    ∃ t, Performs c ((List.range m).flatMap body) s t ∧ P m t := by
  induction m with
  | zero => exact ⟨s, .nil c s, hstart⟩
  | succ m ih =>
    obtain ⟨u, hu, hPu⟩ := ih fun k u hk => hbody k u (Nat.lt_succ_of_lt hk)
    obtain ⟨t, ht, hPt⟩ := hbody m u (Nat.lt_succ_self m) hPu
    rw [List.range_succ, List.flatMap_append, List.flatMap_singleton]
    exact ⟨t, hu.append ht, hPt⟩

/-- An operation whose meaning is to leave its core the steps l. -/
theorem Performs.completes {i : Instr} {P : State → Prop} (h : Performs i.core l s t)
    (hexec : exec i s = .next (s.call i.core l)) (ht : P t) : ∃ n, Completes i n s P := by
  obtain ⟨n, hn⟩ := h []
  rw [List.append_nil, State.call_nil] at hn
  exact ⟨n, _, hexec, t, hn, ht⟩

theorem seqStep_writeSwClr (s : State) (c n : Nat) (v : Word) (q : List SeqStep) :
    seqStep c (.op (.writeSwClr c .relaxed n v)) (s.call c q) =
      .next ((s.writeBank c .relaxed n v .sw fun l => { l with sw := false }).call c q) := rfl

theorem seqStep_writeMaskSet (s : State) (c n : Nat) (v : Word) (q : List SeqStep) :
    seqStep c (.op (.writeMaskSet c .relaxed n v)) (s.call c q) =
      .next ((s.writeBank c .relaxed n v .mask fun l => { l with mask := true }).call c q) := rfl

/-! ## Lines changed each by its number -/

/-- Every line is changed by F at its number, and nothing else is but the total order. -/
def State.LinesMapped (s t : State) (F : Nat → Line → Line) : Prop :=
  s.Extends t ∧ t.lines = mapFrom F 0 s.lines ∧ t = { s with lines := t.lines, trace := t.trace }

theorem mapFrom_id {α : Type} (n : Nat) (l : List α) : mapFrom (fun _ x => x) n l = l := by
  induction l generalizing n with
  | nil => rfl
  | cons x l ih => rw [mapFrom, ih]

theorem mapFrom_mapFrom {α : Type} (f g : Nat → α → α) (n : Nat) (l : List α) :
    mapFrom g n (mapFrom f n l) = mapFrom (fun i x => g i (f i x)) n l := by
  induction l generalizing n with
  | nil => rfl
  | cons x l ih => rw [mapFrom, mapFrom, mapFrom, ih]

theorem State.LinesMapped.refl (s : State) : s.LinesMapped s fun _ l => l :=
  ⟨.refl s, (mapFrom_id 0 s.lines).symm, rfl⟩

theorem State.LinesMapped.trans (h : s.LinesMapped t F) (h' : t.LinesMapped u G) :
    s.LinesMapped u fun i l => G i (F i l) := by
  obtain ⟨hext, hlines, heq⟩ := h
  obtain ⟨hext', hlines', heq'⟩ := h'
  refine ⟨hext.trans hext', ?_, ?_⟩
  · rw [hlines', hlines, mapFrom_mapFrom]
  · rw [heq', heq]

/-- Only what becomes of the lines there are matters. -/
theorem State.LinesMapped.congr (h : s.LinesMapped t F)
    (hF : ∀ i l, i < s.lines.length → F i l = G i l) : s.LinesMapped t G := by
  obtain ⟨hext, hlines, heq⟩ := h
  refine ⟨hext, hlines.trans (List.ext_getElem? fun i => ?_), heq⟩
  rw [getElem?_mapFrom, getElem?_mapFrom, Nat.zero_add]
  by_cases hi : i < s.lines.length
  · rw [List.getElem?_eq_getElem hi, Option.map_some, Option.map_some, hF i _ hi]
  · rw [List.getElem?_eq_none (Nat.not_lt.1 hi), Option.map_none, Option.map_none]

/-- The lines p names are changed by f, then by g. -/
theorem State.LinesMapped.trans_ite {p : Nat → Prop} [DecidablePred p] {f g : Line → Line}
    (h : s.LinesMapped t fun i l => if p i then f l else l)
    (h' : t.LinesMapped u fun i l => if p i then g l else l) :
    s.LinesMapped u fun i l => if p i then g (f l) else l :=
  (h.trans h').congr fun i l _ => by by_cases hi : p i <;> simp [hi]

theorem State.LinesMapped.cores_eq (h : s.LinesMapped t F) : t.cores = s.cores := by
  obtain ⟨-, -, heq⟩ := h
  rw [heq]

theorem State.LinesMapped.core_eq (h : s.LinesMapped t F) (d : Nat) : t.core d = s.core d := by
  rw [State.core_def, h.cores_eq, State.core_def]

theorem State.LinesMapped.line_eq (h : s.LinesMapped t F) (hk : k < s.lines.length) :
    t.line k = F k (s.line k) := by
  obtain ⟨-, hlines, -⟩ := h
  rw [State.line_def, hlines, getD_mapFrom, if_pos hk, State.line_def]

/-- The data of all ones acts on every line of its bank. -/
theorem inBank_allOnes (n i : Nat) : inBank n 0xFFFFFFFF i = decide (bankOf i = n) := by
  have hones : ∀ b < 32, (0xFFFFFFFF : Word).getLsbD b = true := by decide
  rw [inBank, hones _ (Nat.mod_lt i (by decide)), Bool.and_true]

theorem linesMapped_writeBank_allOnes (s : State) (b n : Nat) (kind : AccessKind) (loc : Nat → Loc)
    (f : Line → Line) : s.LinesMapped (s.writeBank b kind n 0xFFFFFFFF loc f)
      fun i l => if bankOf i = n then f l else l := by
  refine ⟨(((State.SameRest.refl s).access b ..).updBank ..).1, ?_, rfl⟩
  simp only [State.writeBank, State.updBank_lines, inBank_allOnes, decide_eq_true_eq]
  rfl

theorem linesMapped_updLine (s : State) (b k : Nat) (kind : Option AccessKind) (ws : List Loc)
    (f : Line → Line) :
    s.LinesMapped ((s.access b kind [] ws).updLine k f) fun i l => if i = k then f l else l := by
  rw [← State.updBank_bitOf]
  refine ⟨(((State.SameRest.refl s).access b ..).updBank ..).1, ?_, rfl⟩
  simp [inBank_bitOf]

/-- A loop each of whose passes changes by f the lines with its index as their key. -/
theorem performs_sweep {body : Nat → List SeqStep} {key : Nat → Nat} {f : Line → Line}
    (hbody : ∀ k u, c < u.cores.length →
      ∃ t, Performs c (body k) u t ∧ u.LinesMapped t fun i l => if key i = k then f l else l)
    (hc : c < s.cores.length) (m : Nat) :
    ∃ t, Performs c ((List.range m).flatMap body) s t ∧
      s.LinesMapped t fun i l => if key i < m then f l else l := by
  refine performs_loop (P := fun k t => s.LinesMapped t fun i l => if key i < k then f l else l)
    (by simpa using State.LinesMapped.refl s) m fun k u _ hu => ?_
  obtain ⟨t, hsteps, ht⟩ := hbody k u (hu.cores_eq ▸ hc)
  refine ⟨t, hsteps, (hu.trans ht).congr fun i l _ => ?_⟩
  rcases lt_trichotomy (key i) k with hlt | heq | hgt
  · rw [if_neg hlt.ne, if_pos hlt, if_pos (Nat.lt_succ_of_lt hlt)]
  · rw [if_pos heq, if_neg heq.not_lt, if_pos (heq ▸ Nat.lt_succ_self _)]
  · rw [if_neg hgt.ne', if_neg hgt.not_gt, if_neg (Nat.not_lt.2 hgt)]

/-! ## INIT -/

/-- One pass of INIT's first loop: the latches and the masks of a bank. -/
theorem performs_initBank (hc : c < s.cores.length) (n : Nat) :
    ∃ t, Performs c [.op (.writeSwClr c .relaxed n 0xFFFFFFFF),
        .op (.writeMaskSet c .relaxed n 0xFFFFFFFF)] s t ∧
      s.LinesMapped t fun i l => if bankOf i = n then { l with sw := false, mask := true } else l :=
  ⟨_, .cons hc (seqStep_writeSwClr s c n _) <| .cons hc (seqStep_writeMaskSet _ c n _) <| .nil c _,
    (linesMapped_writeBank_allOnes ..).trans_ite (linesMapped_writeBank_allOnes ..)⟩

/-- One pass of INIT's second loop: the target and the flag of a line. -/
theorem performs_initLine (hc : c < s.cores.length) (v : Word) (k : Nat) :
    ∃ t, Performs c [.op (.writeTarget c .relaxed k v), .setHwDisabled k true] s t ∧
      s.LinesMapped t fun i l => if i = k then { l with target := v, hwDisabled := true } else l :=
  ⟨_, .cons hc (seqStep_writeTarget s c k v) <| .cons hc (seqStep_setHwDisabled _ c k true) <|
    .nil c _, (linesMapped_updLine ..).trans_ite (linesMapped_updLine ..)⟩

/-- What INIT makes of a line. -/
def Line.initialised (deflt : Word) (l : Line) : Line where
  level := l.level
  sw := false
  mask := true
  target := deflt
  hwDisabled := true

/-- INIT's two loops over the lines there are: every line is of a bank below NBANK (30_encoding R119). -/
theorem performs_initSteps (hc : c < s.cores.length) (hm : s.lines.length = m) (v : Word) :
    ∃ t, Performs c (initSteps c m v) s t ∧ s.LinesMapped t fun _ l => l.initialised v := by
  obtain ⟨t, hbanks, ht⟩ := performs_sweep (key := bankOf)
    (fun n u hu => performs_initBank hu n) hc ((m + 31) / 32)
  obtain ⟨u, hlines, hu⟩ := performs_sweep (key := fun i => i)
    (fun k u hu => performs_initLine hu v k) (ht.cores_eq.symm ▸ hc) m
  refine ⟨u, hbanks.append hlines, (ht.trans hu).congr fun i l hi => ?_⟩
  rw [hm] at hi
  have hbank : bankOf i < (m + 31) / 32 := by
    rw [bankOf]
    omega
  simp [hbank, hi, Line.initialised]

/-- The state after core c read INFO. -/
def State.infoRead (s : State) (c : Nat) : State :=
  (s.access c (some .relaxed) [] []).reply c (.word s.cfg.info)

theorem seqStep_readInfo (s : State) (c : Nat) (q : List SeqStep) :
    seqStep c (.op (.readInfo c .relaxed)) (s.call c q) = .next ((s.infoRead c).call c q) :=
  congrArg Host.Outcome.next ((s.access ..).call_reply c c q _)

theorem seqStep_initLoops (h : (s.core c).ret = .word w) (q : List SeqStep) :
    seqStep c .initLoops (s.call c q) = .next
      (s.call c ((initSteps c (lineCount w) s.cfg.defaultTarget ++ [.setArmed, .ret .ok]) ++ q)) := by
  rw [seqStep, State.initLoops, State.call_call, State.call_core_ret, h]
  rfl

theorem seqStep_setArmed (s : State) (c : Nat) (q : List SeqStep) :
    seqStep c .setArmed (s.call c q) = .next ((s.setArmed c).call c q) := rfl

/-- The steps of INIT: the count read off INFO is the number of lines, which the two loops initialise. -/
theorem performs_init (hs : s.Shaped) (hc : c < s.cfg.maxCores) :
    ∃ t, Performs c [.op (.readInfo c .relaxed), .initLoops] s ((t.setArmed c).reply c .ok) ∧
      (s.infoRead c).LinesMapped t fun _ l => l.initialised s.cfg.defaultTarget := by
  have hlt := hs.core_lt hc
  obtain ⟨-, -, hcount, -⟩ := identityReads s c .relaxed hs hc
  have hread : s.Answers (s.infoRead c) c (.word s.cfg.info) := answers_access hlt ..
  have hltr := hread.core_lt hlt
  obtain ⟨-, hlen, -⟩ := hs
  obtain ⟨t, hloops, ht⟩ :=
    performs_initSteps (s := s.infoRead c) hltr hlen s.cfg.defaultTarget
  have hltt : c < t.cores.length := ht.cores_eq ▸ hltr
  refine ⟨t, .cons hlt (seqStep_readInfo s c) <|
    .cons_call hltr (seqStep_initLoops (congrArg CoreState.ret hread.core_eq)) ?_, ht⟩
  rw [List.append_nil, hcount]
  exact hloops.append <| .cons hltt (seqStep_setArmed t c) <|
    .cons hltt (seqStep_ret (t.setArmed c) c .ok) (.nil c _)

/-- Settles O37: after the INFO read only the lines are changed, then the core is armed and answered; with the
window absent it is answered the error at once. -/
theorem initMasksEverything : Obligations.InitMasksEverything := by
  unfold Obligations.InitMasksEverything
  intro s c hs hc
  have hlt := hs.core_lt hc
  refine ⟨fun hpresent => ?_, fun habsent => ?_⟩
  · obtain ⟨t, hsteps, ht⟩ := performs_init hs hc
    have hread : s.Answers (s.infoRead c) c (.word s.cfg.info) := answers_access hlt ..
    have hltt : c < t.cores.length := ht.cores_eq ▸ hread.core_lt hlt
    have hline (i : Nat) (hi : i < s.cfg.nrHw) := ht.line_eq (k := i) (hs.line_lt hi)
    obtain ⟨⟨hext, -⟩, -, hothers, hcore⟩ := hread
    obtain ⟨hext', hlines, heq⟩ := id ht
    refine hsteps.completes (i := .init c) (if_pos hpresent) ⟨?_, ?_, ?_, fun d hd => ?_, ?_, hline⟩
    · exact ((hext.trans hext').note (Event.quiet_access c none [] [.armed])).congr rfl
    · rw [heq]
      rfl
    · exact (congrArg List.length hlines).trans (length_mapFrom ..)
    · exact (State.updCore_core_other _ _ hd).trans ((ht.core_eq d).trans (hothers d hd))
    · rw [State.reply, State.updCore_core_self (t.setArmed c) _ _ hltt,
        show (t.setArmed c).core c = _ from (ht.core_eq c).trans hcore]
  · exact ⟨_, if_neg (Bool.eq_false_iff.1 habsent), answers_reply hlt _⟩

/-! ## CPU_ONLINE -/

/-- The fiq_disabled bits l once the index of a cause, where it has one, is disabled. -/
def disableDom (dom : Option Nat) (l : List Bool) : List Bool := dom.elim l (l.set · true)

theorem length_disableDom (dom : Option Nat) (l : List Bool) :
    (disableDom dom l).length = l.length := by
  cases dom with
  | none => rfl
  | some d => exact List.length_set

theorem getElem?_set_of_getElem? {α : Type} {a : List α} {y : α} (i : Nat) {j : Nat}
    (h : a[j]? = some y) : (a.set i y)[j]? = some y := by
  rcases eq_or_ne i j with rfl | hij
  · rw [List.getElem?_set_self', h]
    rfl
  · rwa [List.getElem?_set_ne hij]

/-- A bit that is set stays set. -/
theorem getElem?_disableDom (dom : Option Nat) {l : List Bool} {j : Nat} (h : l[j]? = some true) :
    (disableDom dom l)[j]? = some true := by
  cases dom with
  | none => exact h
  | some d => exact getElem?_set_of_getElem? d h

/-- What CPU_ONLINE makes of its core for cause k. -/
def CoreState.quiet (cfg : Config) (k : Nat) (st : CoreState) : CoreState :=
  { st with
    arm := st.arm.set k false, fiqDisabled := disableDom (cfg.cause k).dom st.fiqDisabled }

/-- Of the core st only arm and fiq_disabled are changed, it is st' now, and every cause below k is disarmed
and its index disabled. -/
def CoreState.QuietBelow (cfg : Config) (k : Nat) (st st' : CoreState) : Prop :=
  st' = { st with arm := st'.arm, fiqDisabled := st'.fiqDisabled } ∧ st'.Shaped cfg ∧
  (∀ j < k, st'.arm[j]? = some false) ∧
  ∀ j < k, ∀ d < cfg.nrFiq, (cfg.cause j).dom = some d → st'.fiqDisabled[d]? = some true

theorem CoreState.QuietBelow.zero (h : st.Shaped cfg) : st.QuietBelow cfg 0 st :=
  ⟨rfl, h, fun j hj => absurd hj j.not_lt_zero, fun j hj => absurd hj j.not_lt_zero⟩

theorem CoreState.QuietBelow.quiet (h : st.QuietBelow cfg k st') (hk : k < cfg.causes.length) :
    st.QuietBelow cfg (k + 1) (st'.quiet cfg k) := by
  obtain ⟨heq, ⟨hcond, harm, hfiq⟩, harms, hfiqs⟩ := h
  refine ⟨?_, ⟨hcond, List.length_set.trans harm, (length_disableDom ..).trans hfiq⟩,
    fun j hj => ?_, fun j hj d hd hdom => ?_⟩
  · rw [heq]
    rfl
  · rcases Nat.lt_succ_iff_lt_or_eq.1 hj with hlt | rfl
    · exact getElem?_set_of_getElem? k (harms j hlt)
    · exact List.getElem?_set_self (harm ▸ hk)
  · rcases Nat.lt_succ_iff_lt_or_eq.1 hj with hlt | rfl
    · exact getElem?_disableDom _ (hfiqs j hlt d hd hdom)
    · rw [CoreState.quiet, hdom]
      exact List.getElem?_set_self (hfiq ▸ hd)

theorem eq_replicate_of_getElem? {α : Type} {a : List α} {y : α} {n : Nat} (hlen : a.length = n)
    (h : ∀ j < n, a[j]? = some y) : a = List.replicate n y := by
  refine List.ext_getElem? fun j => ?_
  by_cases hj : j < n
  · rw [h j hj, List.getElem?_replicate_of_lt hj]
  · rw [List.getElem?_eq_none (by omega), List.getElem?_eq_none (by simpa using hj)]

/-- With every cause done, every arm bit is clear, and every fiq_disabled bit is set, since every index has a
cause (00_scope R10). -/
theorem CoreState.QuietBelow.eq_all (h : st.QuietBelow cfg cfg.causes.length st') (hw : cfg.Wf) :
    st' = { st with
      arm := List.replicate cfg.causes.length false
      fiqDisabled := List.replicate cfg.nrFiq true } := by
  obtain ⟨heq, ⟨-, harm, hfiq⟩, harms, hfiqs⟩ := h
  rw [heq, eq_replicate_of_getElem? harm harms, eq_replicate_of_getElem? hfiq fun d hd => ?_]
  obtain ⟨hlt, hdom⟩ := isCauseOf_causeOf hw hd
  exact hfiqs _ hlt d hd hdom

/-- One pass of CPU_ONLINE's loop. -/
theorem performs_onlineCause (hc : c < s.cores.length) (h : s.CoreBecomes t c st)
    (hdraws : t.draws = s.draws) (k : Nat) :
    ∃ u, Performs c (onlineCause s.cfg c k) t u ∧ s.CoreBecomes u c (st.quiet s.cfg k) ∧
      u.draws = s.draws := by
  have hlt := h.core_lt hc
  have harm := h.writeArm hc k false
  rw [onlineCause, CoreState.quiet]
  cases (s.cfg.cause k).dom with
  | none =>
    exact ⟨_, .cons hlt (seqStep_fiqWriteArm t c k false) (.nil c _), harm, hdraws⟩
  | some d =>
    exact ⟨_, .cons hlt (seqStep_fiqWriteArm t c k false) <|
      .cons (harm.core_lt hc) (seqStep_setFiqDisabled _ c d true) (.nil c _),
      harm.access.updCore hc _, hdraws⟩

/-- CPU_ONLINE's loop over the causes. -/
theorem performs_onlineCauses (hs : s.Shaped) (hc : c < s.cfg.maxCores) :
    ∃ t, Performs c ((List.range s.cfg.causes.length).flatMap (onlineCause s.cfg c)) s t ∧
      s.CoreBecomes t c { s.core c with
        arm := List.replicate s.cfg.causes.length false
        fiqDisabled := List.replicate s.cfg.nrFiq true } ∧ t.draws = s.draws := by
  obtain ⟨t, hsteps, st, hbelow, hbecomes⟩ := performs_loop (c := c)
    (P := fun k t => ∃ st, (s.core c).QuietBelow s.cfg k st ∧ s.CoreBecomes t c st ∧
      t.draws = s.draws)
    ⟨s.core c, .zero (hs.core_shaped hc), .refl s c, rfl⟩ s.cfg.causes.length
    fun k u hk ⟨st, hbelow, hu, hdraws⟩ => by
      obtain ⟨t, hsteps, ht⟩ := performs_onlineCause (hs.core_lt hc) hu hdraws k
      exact ⟨t, hsteps, _, hbelow.quiet hk, ht⟩
  obtain ⟨hwf, -⟩ := hs
  rw [hbelow.eq_all hwf] at hbecomes
  exact ⟨t, hsteps, hbecomes⟩

/-- The state after core c masked both its physical IPI lines (42_physical_ipi R285). -/
def State.maskIpis (s : State) (c : Nat) : State :=
  (s.access c (some .relaxed) [] [.ipiMask c .other, .ipiMask c .self]).setIpiMask c ⟨true, true⟩

theorem State.CoreBecomes.maskIpis (h : s.CoreBecomes t c st) (hc : c < s.cores.length) :
    s.CoreBecomes (t.maskIpis c) c { st with ipiMask := ⟨true, true⟩ } :=
  h.access.updCore hc _

theorem exec_writeIpiMaskSet_both (hw : s.cfg.CodesWf) (c : Nat) :
    exec (.writeIpiMaskSet c .relaxed (s.cfg.otherBit ||| s.cfg.selfBit)) s = .next (s.maskIpis c) := by
  rw [exec, execWriteIpiMaskSet, writeSelector_ok (badSelector_both _), Config.selected,
    selects_both _ hw]
  rfl

theorem seqStep_writeIpiMaskSet_both (hw : s.cfg.CodesWf) (c : Nat) (q : List SeqStep) :
    seqStep c (.op (.writeIpiMaskSet c .relaxed (s.cfg.otherBit ||| s.cfg.selfBit))) (s.call c q) =
      .next ((s.maskIpis c).call c q) :=
  (exec_writeIpiMaskSet_both (s := s.call c q) hw c).trans
    (congrArg Host.Outcome.next ((s.access ..).call_setIpiMask c c q _))

/-- The state after core c read WHOAMI. -/
def State.whoamiRead (s : State) (c : Nat) : State :=
  (s.access c (some .relaxed) [] []).reply c (.word (s.cfg.hwidOf c))

theorem State.CoreBecomes.whoamiRead (h : s.CoreBecomes t c st) (hc : c < s.cores.length) :
    s.CoreBecomes (t.whoamiRead c) c { st with ret := .word (s.cfg.hwidOf c) } := by
  obtain ⟨hrest, -⟩ := id h
  rw [← hrest.cfg]
  exact h.access.reply hc _

theorem seqStep_readWhoami (s : State) (c : Nat) (q : List SeqStep) :
    seqStep c (.op (.readWhoami c .relaxed)) (s.call c q) = .next ((s.whoamiRead c).call c q) :=
  congrArg Host.Outcome.next ((s.access ..).call_reply c c q _)

/-- The test of what WHOAMI read, and the answer: a word of another number is recorded. -/
theorem performs_onlineTest (hc : c < s.cores.length) (h : (s.core c).ret = .word w) :
    Performs c [.onlineTest, .ret .ok] s (if w.toNat = c then s.reply c .ok
      else (s.reply c .ok).addDiag c .topology (.ids c w)) := by
  have htest (q : List SeqStep) : seqStep c .onlineTest (s.call c q) =
      .next (if w.toNat = c then s.call c q else s.call c ([.diag .topology (.ids c w)] ++ q)) := by
    rw [seqStep, State.onlineTest, State.call_call, State.call_core_ret, h]
    rfl
  split
  next heq =>
    exact .cons hc (fun q => (htest q).trans (congrArg _ (if_pos heq))) <|
      .cons hc (seqStep_ret s c .ok) (.nil c _)
  next hne =>
    exact .cons_call hc (fun q => (htest q).trans (congrArg _ (if_neg hne))) <|
      .cons hc (seqStep_diag s c _ _) <|
      .cons hc (seqStep_ret (s.addDiag c .topology (.ids c w)) c .ok) (.nil c _)

/-- The steps of CPU_ONLINE up to the test: the causes, the masks, and WHOAMI's answer. -/
theorem performs_cpuOnline (hs : s.Shaped) (hc : c < s.cfg.maxCores) :
    ∃ t, Performs c ((List.range s.cfg.causes.length).flatMap (onlineCause s.cfg c) ++
        [.op (.writeIpiMaskSet c .relaxed (s.cfg.otherBit ||| s.cfg.selfBit)),
          .op (.readWhoami c .relaxed)]) s t ∧
      s.CoreBecomes t c { s.core c with
        arm := List.replicate s.cfg.causes.length false
        fiqDisabled := List.replicate s.cfg.nrFiq true
        ipiMask := ⟨true, true⟩
        ret := .word (s.cfg.hwidOf c) } ∧ t.draws = s.draws := by
  have hlt := hs.core_lt hc
  obtain ⟨t, hcauses, ht, hdraws⟩ := performs_onlineCauses hs hc
  obtain ⟨⟨-, -, -, -, hcodes, -⟩, -⟩ := hs
  obtain ⟨hrest, -⟩ := id ht
  have hmask := ht.maskIpis hlt
  have hmaskStep := seqStep_writeIpiMaskSet_both (s := t) (hrest.cfg ▸ hcodes) c
  rw [hrest.cfg] at hmaskStep
  exact ⟨_, hcauses.append <| .cons (ht.core_lt hlt) hmaskStep <|
    .cons (hmask.core_lt hlt) (seqStep_readWhoami (t.maskIpis c) c) (.nil c _),
    hmask.whoamiRead hlt, hdraws⟩

/-- Where no draw was made, core c and the total order are all that changed. -/
theorem State.CoreBecomes.eq_of_draws (h : s.CoreBecomes t c st) (hdraws : t.draws = s.draws) :
    t = { s with cores := t.cores, trace := t.trace } := by
  obtain ⟨⟨-, -, -, heq⟩, hlines, -⟩ := h
  rw [hlines, hdraws] at heq
  exact heq

/-- Settles O38: the core is left quiet with WHOAMI's answer, by which the record is made or not. -/
theorem cpuOnlineMasksTheCore : Obligations.CpuOnlineMasksTheCore := by
  unfold Obligations.CpuOnlineMasksTheCore
  intro s c hs hc
  have hlt := hs.core_lt hc
  obtain ⟨t, hsteps, ht, hdraws⟩ := performs_cpuOnline hs hc
  have htest := hsteps.append <|
    performs_onlineTest (ht.core_lt hlt) (congrArg CoreState.ret ht.core_eq)
  rw [List.append_assoc] at htest
  have hend := ht.reply hlt .ok
  have hframe := hend.eq_of_draws hdraws
  obtain ⟨⟨hext, -⟩, -, hothers, hcore⟩ := hend
  by_cases hid : (s.cfg.hwidOf c).toNat = c
  · simp only [if_pos hid, List.append_nil] at htest ⊢
    exact htest.completes (i := .cpuOnline c) rfl ⟨hext, hframe, hothers, hcore⟩
  · simp only [if_neg hid] at htest ⊢
    refine htest.completes (i := .cpuOnline c) rfl ⟨hext.addDiag .., ?_, hothers, hcore⟩
    rw [State.addDiag_eq, hframe]

end Sys2Proof.Machine
end
